-- ==== Sys2Proof/Word.lean ====
section
/-! DEFINITION. The word types of the block and nothing else: a byte, a 64-bit register, a 32-bit
host address, and a code (a bit string written first bit first, 00_scope.md R7 and R8). -/

namespace Sys2Proof

/-- An 8-bit byte (00_scope.md R6: byte values 0 to 255). -/
abbrev Byte := BitVec 8

/-- A 64-bit register, count or command word (10_state.md R31, 00_scope.md R6 COUNT_WIDTH). -/
abbrev Word := BitVec 64

/-- A host address, 32 bits wide (20_memory.md R100). -/
abbrev Addr := BitVec 32

/-- A code or bit string, index 0 the FIRST bit (00_scope.md R8). -/
abbrev Code := List Bool

/-- `zext_64` of an unsigned number (00_scope.md R7); a number of 64 bits or fewer keeps its value. -/
abbrev toWord (n : Nat) : Word := BitVec.ofNat 64 n

end Sys2Proof
end

