-- ==== Sys2Proof/Syntax.lean ====
section
/-! DEFINITION. The commands of the HCZ-CORE command set, version 1: one constructor per row of
spec/opcode_table.json. No command has an operand field (30_encoding.md R140 and R142). -/

namespace Sys2Proof

/-- The fourteen commands of 30_encoding.md R141, in opcode order. -/
inductive Instr where
  | nop          -- 0x00
  | analyze      -- 0x01
  | buildTree    -- 0x02
  | buildMap     -- 0x03
  | bsClear      -- 0x04
  | bsAppend     -- 0x05
  | bsBitat      -- 0x06
  | encode       -- 0x07
  | decode       -- 0x08
  | serialize    -- 0x09
  | deserialize  -- 0x0A
  | compress     -- 0x10
  | decompress   -- 0x11
  | softReset    -- 0x1F
  deriving DecidableEq, Repr

end Sys2Proof
end

