-- ==== Sys2Proof/Config.lean ====
section
/-! DEFINITION. What an implementation fixes (the parameters of 00_scope.md R6), the constants the
spec decides, and the model's free value. -/

namespace Sys2Proof

/-- The OPEN parameters of 00_scope.md R6: buffer sizes in bytes and the bit-sequence capacity in
bits. A state carries them, so a statement about every state is one about every choice of sizes. -/
structure Params where
  ibufSize : Nat
  obufSize : Nat
  bsCapBits : Nat
  deriving DecidableEq, Repr

/-- The test configuration TCFG of 00_scope.md R6. -/
def Params.tcfg : Params := { ibufSize := 4096, obufSize := 4096, bsCapBits := 32768 }

/-- SYMBOLS (00_scope.md R6). -/
def Config.symbols : Nat := 256

/-- NODE_CAP, the most tree nodes (00_scope.md R6). -/
def Config.nodeCap : Nat := 511

/-- MAX_CODE_LEN, the longest code in bits (00_scope.md R6). -/
def Config.maxCodeLen : Nat := 255

/-- ARCHIVE_MAGIC, archive offsets 0 to 3 (30_encoding.md R151), the spec's value as a constant
(DESIGN CHOICE, assumption 16, unsafe for other devices). -/
def Config.archiveMagic : List Byte := [0x48, 0x55, 0x46, 0x5A]

/-- ARCHIVE_VERSION (30_encoding.md R152). -/
def Config.archiveVersion : Byte := 0x01

/-- The command-set version in ID[47:40] (10_state.md R32). -/
def Config.commandSetVersion : Byte := 0x01

/-- The region bases of 20_memory.md R101. -/
def Config.regBase : Nat := 0x00000000
def Config.ftabBase : Nat := 0x00001000
def Config.mapLenBase : Nat := 0x00002000
def Config.mapCodeBase : Nat := 0x00004000
def Config.bssBase : Nat := 0x10000000
def Config.ibufBase : Nat := 0x20000000
def Config.obufBase : Nat := 0x30000000

/-- THE FREE VALUE: the byte found at a host address where the spec says it is unspecified "(a
draw)" (20_memory.md R105 to R107, 70_reset_and_hazards.md R462, 10_state.md R54). The first
argument is the number of the draw, a counter in the state, the second the host address. It has no
body, so no value of it can be proved. DESIGN CHOICE (assumption 1), safe. -/
opaque Config.freeByte : Nat → Nat → Byte

end Sys2Proof
end

