-- ==== Sys2Proof/WellFormed.lean ====
section
/-! DEFINITION. What a well-formed command and a well-formed choice of parameters are. -/

namespace Sys2Proof

/-- Every command is well formed: a command has no operand field that could be out of range
(30_encoding.md R140, R142). What can be wrong with a command WORD is refused by the decoder
(`decodeWord`), and what can be wrong with an operand REGISTER is an error of the command. -/
def Instr.wellFormed : Instr → Bool
  | .nop => true
  | .analyze => true
  | .buildTree => true
  | .buildMap => true
  | .bsClear => true
  | .bsAppend => true
  | .bsBitat => true
  | .encode => true
  | .decode => true
  | .serialize => true
  | .deserialize => true
  | .compress => true
  | .decompress => true
  | .softReset => true

/-- A buffer size: a multiple of 8, 8 to 2^28 bytes (00_scope.md R6). -/
def bufferSizeOk (n : Nat) : Bool := n % 8 == 0 && 8 ≤ n && n ≤ 2 ^ 28

/-- A bit-sequence capacity: a multiple of 64, 64 to 2^31 bits (00_scope.md R6). -/
def bitCapacityOk (n : Nat) : Bool := n % 64 == 0 && 64 ≤ n && n ≤ 2 ^ 31

/-- The constraints 00_scope.md R6 puts on the OPEN parameters. -/
def Params.wellFormed (p : Params) : Bool :=
  bufferSizeOk p.ibufSize && bufferSizeOk p.obufSize && bitCapacityOk p.bsCapBits

end Sys2Proof
end

