-- ==== Sys2Proof/Decode.lean ====
section
/-! DEFINITION. The decoder of command words, total and refusing by name, and the encoder
(30_encoding.md R140, R141, R143). -/

namespace Sys2Proof

/-- Why a word is no command (30_encoding.md R143): its reserved bits [63:8] are not 0, or its
opcode is not listed; a byte string may also be too short to hold the one 64-bit word. -/
inductive DecodeReject where
  | reservedBits (w : Word)
  | unlistedOpcode (opc : Byte)
  | truncated
  deriving DecidableEq, Repr

/-- OPC, bits [7:0] of a command word (30_encoding.md R140). -/
def opcField (w : Word) : Byte := w.extractLsb' 0 8

/-- RSV, bits [63:8] of a command word (30_encoding.md R140). -/
def rsvField (w : Word) : BitVec 56 := w.extractLsb' 8 56

/-- The opcode map of 30_encoding.md R141. -/
def opcode? (opc : Byte) : Option Instr :=
  match opc.toNat with
  | 0x00 => some .nop
  | 0x01 => some .analyze
  | 0x02 => some .buildTree
  | 0x03 => some .buildMap
  | 0x04 => some .bsClear
  | 0x05 => some .bsAppend
  | 0x06 => some .bsBitat
  | 0x07 => some .encode
  | 0x08 => some .decode
  | 0x09 => some .serialize
  | 0x0A => some .deserialize
  | 0x10 => some .compress
  | 0x11 => some .decompress
  | 0x1F => some .softReset
  | _ => none

/-- The command a 64-bit word selects, or why it selects none (30_encoding.md R141, R143). -/
def decodeWord (w : Word) : Except DecodeReject Instr :=
  if rsvField w = 0 then
    match opcode? (opcField w) with
    | some i => .ok i
    | none => .error (.unlistedOpcode (opcField w))
  else .error (.reservedBits w)

/-- Byte `k` of a 64-bit value: its bits [8k+7 : 8k] (20_memory.md R103). -/
def wordByte (w : Word) (k : Nat) : Byte := w.extractLsb' (8 * k) 8

/-- The little-endian value of bytes, the first byte least significant (20_memory.md R103). -/
def leNat : List Byte → Nat
  | [] => 0
  | b :: bs => b.toNat + 256 * leNat bs

/-- The eight bytes of a word in the order of their addresses (20_memory.md R103). -/
def wordBytes (w : Word) : List Byte := (List.range 8).map (wordByte w)

/-- The command in the first eight bytes of a byte string, with the bytes after it. A command is
one 64-bit word, moved in little-endian order (30_encoding.md R140, 20_memory.md R103). -/
def decodeBytes (bs : List Byte) : Except DecodeReject (Instr × List Byte) :=
  if bs.length < 8 then .error .truncated
  else
    match decodeWord (toWord (leNat (bs.take 8))) with
    | .ok i => .ok (i, bs.drop 8)
    | .error e => .error e

/-- OPC of each command (30_encoding.md R141). -/
def Instr.opcode : Instr → Byte
  | .nop => 0x00
  | .analyze => 0x01
  | .buildTree => 0x02
  | .buildMap => 0x03
  | .bsClear => 0x04
  | .bsAppend => 0x05
  | .bsBitat => 0x06
  | .encode => 0x07
  | .decode => 0x08
  | .serialize => 0x09
  | .deserialize => 0x0A
  | .compress => 0x10
  | .decompress => 0x11
  | .softReset => 0x1F

/-- The word of a command: `zext_64(OPC)` (30_encoding.md R141, R144 `CMD M`). -/
def encodeWord (i : Instr) : Word := i.opcode.zeroExtend 64

/-- What this decoder reads from a command whose bits are `w`, numbered as the opcode table numbers
them: the low `nbits` bits of `w`, laid out as the eight bytes of one word. -/
def decodeTableWord (nbits w : Nat) : Option Instr :=
  let v := w % 2 ^ nbits
  if v < 2 ^ 64 then
    match decodeBytes (wordBytes (toWord v)) with
    | .ok (i, _) => some i
    | .error _ => none
  else none

end Sys2Proof
end

