-- ==== Sys2Proof/Machine/State.lean ====
section
/-! DEFINITION. The state of the block as plain data, the ways a step stops, and the state after a
hardware reset (10_state.md). A quantity the spec defines as a function of other state (TOTAL,
ENTRIES, NODECOUNT, MAXLEN, BITLEN, VALID, STATUS, `irq`) is computed from it in Machine/Flags.lean
and stored nowhere else. -/

namespace Sys2Proof.Machine

/-- The sequencing state SEQ (10_state.md R30): idle, or running the command word `w`. -/
inductive Seq where
  | idle
  | running (w : Word)
  deriving DecidableEq, Repr

/-- A HuffmanNode (10_state.md R50): a leaf with its byte value and frequency, or an internal node
with its frequency, left and right child. -/
inductive HuffmanNode where
  | leaf (v : Byte) (f : Word)
  | internal (f : Word) (l r : HuffmanNode)
  deriving DecidableEq, Repr

/-- One event of the environment's schedule, an input of the machine: one host access (20_memory.md
R102 to R104), the reset input (70_reset_and_hazards.md R450), or the core's turn to complete the
running command (48_control_and_composite.md R361, R363). -/
inductive Turn where
  /-- A host read of `width` bytes at `addr`. -/
  | read (addr : Addr) (width : Nat)
  /-- A host write of the low `width` bytes of `value` at `addr`. -/
  | write (addr : Addr) (width : Nat) (value : Word)
  /-- The reset input is asserted and released, as one event (DESIGN CHOICE, assumption 8, safe). -/
  | hardReset
  /-- The core moves before any further host access. -/
  | core
  deriving DecidableEq, Repr

/-- Everything the spec gives the block (10_state.md), and after it the model's own three fields. -/
structure State where
  /-- IBUF_SIZE, OBUF_SIZE, BS_CAP_BITS (00_scope.md R6, 10_state.md R44, R54): never changed
  (DESIGN CHOICE, assumption 4). -/
  params : Params
  /-- SEQ (R30); STATUS.BUSY reads 1 exactly when it is `running`. -/
  seq : Seq
  /-- STATUS.DONE (R34). -/
  done : Bool
  /-- STATUS.ERR (R34). -/
  err : Bool
  /-- STATUS.OVR (R34). -/
  ovr : Bool
  /-- STATUS.ERRCODE (R34, 60_exceptions.md R401). -/
  errCode : BitVec 4
  /-- STATUS.LASTOPC (R34). -/
  lastOpc : Byte
  /-- ERRINFO (R35). -/
  errInfo : Word
  /-- IRQEN.DONE_IE (R36). -/
  doneIe : Bool
  /-- IRQEN.ERR_IE (R36). -/
  errIe : Bool
  /-- ARG0 (R37). -/
  arg0 : Word
  /-- ARG1 (R37). -/
  arg1 : Word
  /-- RESULT (R38). -/
  result : Word
  /-- ILEN (R39). -/
  ilen : Word
  /-- OLEN (R39). -/
  olen : Word
  /-- FTAB (R40): 256 counts, indexed by byte value; a count of 0 is an absent entry. -/
  ftab : List Word
  /-- VALID.TREE_VALID (R42). -/
  treeValid : Bool
  /-- TREE (R50): absent, or one tree. -/
  tree : Option HuffmanNode
  /-- VALID.MAP_VALID (R42). -/
  mapValid : Bool
  /-- MAP (R46): 256 codes, indexed by byte value; the empty code is "no code". MAPLEN is the
  length and MAPCODE the code padded with 0 (DEDUCED, assumption 9, safe). -/
  map : List Code
  /-- BITSEQ (R47): the bits in order. BITLEN is the length, and storage byte `k` is their packing
  (30_encoding.md R160) for k < ceil(BITLEN / 8) and unspecified beyond (DEDUCED, assumptions 9
  and 10, safe). -/
  bits : List Bool
  /-- The bytes of IBUF and OBUF (R48) that hold a specified value, by host address (20_memory.md
  R101), in rising order; every unlisted byte is unspecified (20_memory.md R105, R106; DESIGN CHOICE,
  assumption 11, safe). -/
  mem : List Host.Cell
  /-- MODEL'S OWN (assumption 2): what the environment does next, oldest first. -/
  turns : List Turn
  /-- MODEL'S OWN (assumption 3): the value the last host read returned. -/
  rdata : Word
  /-- MODEL'S OWN (assumption 1): the number of the next draw of unspecified values. -/
  draws : Nat
  deriving DecidableEq, Repr

/-- Why the machine stops. Both are the spec's "model faults of the host" (60_exceptions.md R411);
no command raises either. A
fault ends the run (R411; DEDUCED, assumption 19, safe). -/
inductive Fault where
  /-- HostAccessFault: a host access of a width or alignment that its region does not admit
  (20_memory.md R102, 60_exceptions.md R413). Raised by a host read or write; it records the address
  and the width. Safe: the hardware answers with a bus error and the model goes no further. -/
  | hostAccessFault (addr : Addr) (width : Nat)
  /-- HostHazard: a host write to IBUF, ILEN, ARG0 or ARG1 while STATUS.BUSY = 1
  (70_reset_and_hazards.md R461). Raised by a host write; it records the address. Safe: the spec
  leaves the result open and the model goes no further. -/
  | hostHazard (addr : Addr)
  deriving DecidableEq, Repr

/-- Why a command is refused. Nothing of this hardware is: an illegal command word is the error
ILLEGAL_COMMAND, a next state. -/
inductive Refusal where
  /-- A command that has no meaning in the model yet. Raised by `exec` alone, and by no arm of it
  now. Safe: the machine stops. -/
  | notModelled (mnemonic : String)
  deriving DecidableEq, Repr

/-- The state after a hardware reset with parameters `p` (10_state.md R53, 70_reset_and_hazards.md
R450). IBUF and OBUF list nothing: their contents are unspecified. The model's own fields start
with no input, 0 and 0 (DESIGN CHOICE, assumptions 1 to 3). -/
def State.resetWith (p : Params) : State :=
  { params := p
    seq := .idle
    done := false
    err := false
    ovr := false
    errCode := 0
    lastOpc := 0
    errInfo := 0
    doneIe := false
    errIe := false
    arg0 := 0
    arg1 := 0
    result := 0
    ilen := 0
    olen := 0
    ftab := List.replicate 256 0
    treeValid := false
    tree := none
    mapValid := false
    map := List.replicate 256 []
    bits := []
    mem := []
    turns := []
    rdata := 0
    draws := 0 }

/-- The machine right after reset, in the test configuration TCFG (00_scope.md R6; DESIGN CHOICE,
assumption 4, unsafe for a claim about this state alone). -/
def State.reset : State := State.resetWith Params.tcfg

end Sys2Proof.Machine
end

