-- ==== Sys2Proof/Machine/Ops.lean ====
section
/-! DEFINITION. The named operations: memory, the packing of bits into bytes, register files,
invalidation, ending a command with success or with an error, acknowledging an error, and issue. -/

namespace Sys2Proof.Machine

/-! ### Memory: a rising list of (address, byte) pairs -/

/-- The canonical form: addresses strictly rising. An unlisted byte reads as a free value, so no
listed byte can equal it and there is no second clause (DESIGN CHOICE, assumption 11, safe). -/
abbrev Mem.wf (m : List Host.Cell) : Prop := m.Pairwise (fun c d => c.1 < d.1)

/-- The specified byte at an address, if there is one. -/
def Mem.get? : List Host.Cell → Nat → Option Byte
  | [], _ => none
  | (b, v) :: m, a => if b = a then some v else Mem.get? m a

/-- Write one byte. -/
def Mem.put : List Host.Cell → Nat → Byte → List Host.Cell
  | [], a, v => [(a, v)]
  | (b, x) :: m, a, v =>
    if a < b then (a, v) :: (b, x) :: m
    else if a = b then (a, v) :: m
    else (b, x) :: Mem.put m a v

/-- Write bytes at rising addresses, in order. -/
def Mem.putBytes (m : List Host.Cell) (a : Nat) : List Byte → List Host.Cell
  | [] => m
  | b :: bs => Mem.putBytes (Mem.put m a b) (a + 1) bs

/-- The cells of bytes laid out from an address on. -/
def Mem.cells (a : Nat) : List Byte → List Host.Cell
  | [] => []
  | b :: bs => (a, b) :: Mem.cells (a + 1) bs

/-- OBUF's bytes become unspecified; IBUF's stay (20_memory.md R106; DEDUCED, assumption 10, safe). -/
def Mem.dropObuf (m : List Host.Cell) : List Host.Cell :=
  m.filter (fun c => decide (c.1 < Config.obufBase))

/-- OBUF holds exactly these bytes, from index 0, and nothing specified beyond them: the
`MemWrite(OBUF_BASE + k, 1, bytes[k])` of a command, k = 0, 1, ... (20_memory.md R106). -/
def Mem.setObuf (m : List Host.Cell) (bs : List Byte) : List Host.Cell :=
  Mem.dropObuf m ++ Mem.cells Config.obufBase bs

/-- `MemRead(addr, 1)` (00_scope.md R9): the byte the machine finds at a buffer address; a byte with
no specified value is a draw, the same for the core as for a host read at that point (20_memory.md
R105). Within one completion it is one value (DEDUCED, assumption 7, unsafe). -/
def State.memRead (s : State) (a : Nat) : Byte :=
  (Mem.get? s.mem a).getD (Config.freeByte s.draws a)

/-! ### Bits and bytes, first bit most significant (30_encoding.md R156, R160, R161) -/

/-- The byte whose bit (7 - j) is bit j of the list, j = 0 to 7; missing bits are 0. -/
def byteOfBits (bs : List Bool) : Byte :=
  BitVec.ofNat 8 ((List.range 8).foldl (fun n j => 2 * n + (bs.getD j false).toNat) 0)

/-- The eight bits of a byte, most significant first. -/
def byteBits (b : Byte) : List Bool := (List.range 8).map (fun j => b.getLsbD (7 - j))

/-- Storage byte `k` of a bit string (30_encoding.md R160): bit i is bit (7 - i mod 8) of byte
(i div 8), and bits past the end are 0. -/
def storeByte (bits : List Bool) (k : Nat) : Byte := byteOfBits ((bits.drop (8 * k)).take 8)

/-- `ceil(n / 8)`. -/
def ceilDiv8 (n : Nat) : Nat := (n + 7) / 8

/-- The first `n` storage bytes of a bit string. -/
def packBytes : Nat → List Bool → List Byte
  | 0, _ => []
  | n + 1, bits => byteOfBits (bits.take 8) :: packBytes n (bits.drop 8)

/-- The payload of a bit string: its ceil(B / 8) storage bytes (30_encoding.md R156, R157). -/
def packBits (bits : List Bool) : List Byte := packBytes (ceilDiv8 bits.length) bits

/-- The bits of a byte string, most significant first per byte (30_encoding.md R156). -/
def unpackBits (bs : List Byte) : List Bool := bs.flatMap byteBits

/-! ### Register files of 256 entries -/

/-- The byte values 0 to 255, ascending. -/
def allBytes : List Byte := (List.range 256).map (BitVec.ofNat 8)

/-- The register file whose entry `v` is `f v`. -/
def tabulate {α : Type} (f : Byte → α) : List α := allBytes.map f

/-- FTAB[v] (10_state.md R40); 0 past the end, which no run reaches (assumption 14, safe). -/
def tableGet (F : List Word) (v : Byte) : Word := F.getD v.toNat 0

/-- MAP's code of `v`, empty when it has none (10_state.md R46). -/
def codeGet (M : List Code) (v : Byte) : Code := M.getD v.toNat []

/-- The empty table (10_state.md R53). -/
def emptyTable : List Word := List.replicate 256 0

/-- The empty map (10_state.md R53). -/
def emptyMap : List Code := List.replicate 256 []

/-- The entries (v, FTAB[v]) with a positive count, in ascending v (30_encoding.md R155,
42_tree_builder.md R221). -/
def tableEntries (F : List Word) : List (Byte × Word) :=
  (allBytes.zip F).filter (fun e => decide (e.2 ≠ 0))

/-- The sum of a table's counts, exact (10_state.md R41). -/
def tableSum (F : List Word) : Nat := (F.map BitVec.toNat).sum

/-! ### Writing FTAB, TREE, MAP, BITSEQ and OBUF -/

/-- MAP <- empty; MAP_VALID <- 0; MAXLEN <- 0 (10_state.md R51). -/
def State.invalidateMap (s : State) : State := { s with mapValid := false, map := emptyMap }

/-- TREE <- absent; TREE_VALID <- 0; NODECOUNT <- 0, and the map with it (10_state.md R51). -/
def State.invalidateTree (s : State) : State :=
  { s with treeValid := false, tree := none, mapValid := false, map := emptyMap }

/-- FTAB <- F, which invalidates TREE and MAP (10_state.md R51). -/
def State.writeTable (s : State) (F : List Word) : State := { s.invalidateTree with ftab := F }

/-- TREE <- t; TREE_VALID <- 1, which invalidates MAP (10_state.md R51). -/
def State.writeTree (s : State) (t : Option HuffmanNode) : State :=
  { s.invalidateMap with treeValid := true, tree := t }

/-- MAP <- M; MAP_VALID <- 1 (43_encoding_map.md R240). -/
def State.writeMap (s : State) (M : List Code) : State := { s with mapValid := true, map := M }

/-- BITSEQ <- bits, and so BITLEN (44_bit_sequence.md R262). -/
def State.writeBits (s : State) (bits : List Bool) : State := { s with bits := bits }

/-- OBUF[0..] <- bytes and OLEN <- their number (10_state.md R39). -/
def State.writeOutput (s : State) (bs : List Byte) : State :=
  { s with mem := Mem.setObuf s.mem bs, olen := toWord bs.length }

/-- Everything a hardware reset sets, with the parameters and the model's own fields kept. -/
def State.hardwareReset (s : State) : State :=
  { State.resetWith s.params with turns := s.turns, rdata := s.rdata, draws := s.draws }

/-! ### Errors (60_exceptions.md R400 to R407) -/

/-- The seven error kinds the core raises (60_exceptions.md R400, R401). -/
inductive ErrKind where
  | formatError
  | encodingError
  | decodingError
  | illegalCommand
  | sequenceError
  | rangeError
  | capacityError
  deriving DecidableEq, Repr

/-- ERRCODE of a kind (60_exceptions.md R401). -/
def errCodeOf : ErrKind → BitVec 4
  | .formatError => 1
  | .encodingError => 2
  | .decodingError => 3
  | .illegalCommand => 4
  | .sequenceError => 5
  | .rangeError => 6
  | .capacityError => 7

/-- What a `raise` records: the kind and the ERRINFO value (00_scope.md R9, 60_exceptions.md R403). -/
structure CmdError where
  kind : ErrKind
  info : Word
  deriving DecidableEq, Repr

/-- `raise <ErrorKind>(info)` (00_scope.md R9): no later line of the command runs. -/
def raise {α : Type} (k : ErrKind) (info : Nat) : Except CmdError α := .error ⟨k, toWord info⟩

/-- The members of a destination set (48_control_and_composite.md R350). -/
inductive DestMember where
  | ftab
  | tree
  | map
  | bitseq
  | obuf
  | result
  deriving DecidableEq, Repr

/-- Dest(c), the state a command may write (48_control_and_composite.md R350). SOFT_RESET, which
never fails, writes all of it. -/
def dest : Instr → List DestMember
  | .nop => []
  | .analyze => [.ftab, .tree, .map]
  | .buildTree => [.tree, .map]
  | .buildMap => [.map]
  | .bsClear => [.bitseq]
  | .bsAppend => [.bitseq]
  | .bsBitat => [.result]
  | .encode => [.bitseq]
  | .decode => [.obuf]
  | .serialize => [.obuf]
  | .deserialize => [.ftab, .tree, .map, .bitseq]
  | .compress => [.ftab, .tree, .map, .bitseq, .obuf]
  | .decompress => [.ftab, .tree, .map, .bitseq, .obuf]
  | .softReset => [.ftab, .tree, .map, .bitseq, .obuf, .result]

/-- A member of a destination set takes its cleared value (48_control_and_composite.md R350). -/
def clearMember (s : State) : DestMember → State
  | .ftab => { s with ftab := emptyTable }
  | .tree => { s with treeValid := false, tree := none }
  | .map => { s with mapValid := false, map := emptyMap }
  | .bitseq => { s with bits := [] }
  | .obuf => { s with mem := Mem.dropObuf s.mem, olen := 0 }
  | .result => { s with result := 0 }

/-- Every member of a destination set takes its cleared value. -/
def clearDest (ds : List DestMember) (s : State) : State := ds.foldl clearMember s

/-- ERROR ENTRY, the one way a command takes an error (60_exceptions.md R405,
48_control_and_composite.md R361): Dest(c) is cleared, ERR, ERRCODE and ERRINFO record the error,
and the core is idle again. Nothing else is saved: there is no program counter, mode or vector. -/
def completeError (ds : List DestMember) (e : CmdError) (s : State) : State :=
  { clearDest ds s with
    seq := .idle, done := false, err := true, errCode := errCodeOf e.kind, errInfo := e.info }

/-- A command ends without error (48_control_and_composite.md R361). -/
def completeOk (s : State) : State :=
  { s with seq := .idle, done := true, err := false, errCode := 0, errInfo := 0 }

/-- Acknowledging an error, the return from it (60_exceptions.md R407): a host write of 1 to
STATUS.ERR clears ERR, ERRCODE and ERRINFO (10_state.md R34). -/
def acknowledgeError (s : State) : State := { s with err := false, errCode := 0, errInfo := 0 }

/-- The values drawn in this step are used up (assumption 1). -/
def State.advanceDraws (s : State) : State := { s with draws := s.draws + 1 }

/-- The completion step of a command whose body gave `r` on the state `s` (48_control_and_composite.md
R361): on success the body's writes take effect, on an error only Dest(c) and the error record
change. -/
def complete (ds : List DestMember) (s : State) (r : Except CmdError State) :
    Host.Outcome State Fault Refusal :=
  match r with
  | .ok t => .next (completeOk t).advanceDraws
  | .error e => .next (completeError ds e s).advanceDraws

/-- The completion of an illegal word (48_control_and_composite.md R355): ILLEGAL_COMMAND with the
whole word in ERRINFO, and an empty destination set. -/
def completeIllegal (w : Word) (s : State) : Host.Outcome State Fault Refusal :=
  complete [] s (.error ⟨.illegalCommand, w⟩)

/-- Issue of the word `w` (48_control_and_composite.md R360). -/
def State.issue (s : State) (w : Word) : State :=
  { s with
    seq := .running w, done := false, err := false, ovr := false, errCode := 0,
    lastOpc := opcField w, errInfo := 0 }

end Sys2Proof.Machine
end

