-- ==== Sys2Proof/Machine/Flags.lean ====
section
/-! DEFINITION. The registers that are functions of other state (10_state.md R34, R36, R41 to R43,
R47) and the interrupt line (R52). -/

namespace Sys2Proof.Machine

/-- STATUS.BUSY (10_state.md R30, R34). -/
def State.busy (s : State) : Bool :=
  match s.seq with
  | .idle => false
  | .running _ => true

/-- The `irq` output (10_state.md R52, 60_exceptions.md R408), an observable of the state (DESIGN
CHOICE, assumption 20, safe). -/
def State.irq (s : State) : Bool := (s.done && s.doneIe) || (s.err && s.errIe)

/-- The STATUS word (10_state.md R34): BUSY bit 0, DONE 1, ERR 2, OVR 3, ERRCODE 11:8,
LASTOPC 23:16, every other bit 0. -/
def State.statusWord (s : State) : Word :=
  toWord (s.busy.toNat + 2 * s.done.toNat + 4 * s.err.toNat + 8 * s.ovr.toNat
    + 256 * s.errCode.toNat + 65536 * s.lastOpc.toNat)

/-- The IRQEN word (10_state.md R36). -/
def State.irqenWord (s : State) : Word := toWord (s.doneIe.toNat + 2 * s.errIe.toNat)

/-- The VALID word (10_state.md R42). -/
def State.validWord (s : State) : Word := toWord (s.treeValid.toNat + 2 * s.mapValid.toNat)

/-- TOTAL (10_state.md R41). -/
def State.total (s : State) : Word := toWord (tableSum s.ftab)

/-- ENTRIES (10_state.md R41). -/
def State.entries (s : State) : Word := toWord (tableEntries s.ftab).length

/-- The number of nodes of a tree. -/
def HuffmanNode.nodes : HuffmanNode → Nat
  | .leaf _ _ => 1
  | .internal _ l r => l.nodes + r.nodes + 1

/-- The number of nodes of TREE, 0 when it is absent. -/
def treeNodes : Option HuffmanNode → Nat
  | none => 0
  | some t => t.nodes

/-- NODECOUNT (10_state.md R43). -/
def State.nodeCount (s : State) : Word := toWord (treeNodes s.tree)

/-- The longest code of a map, 0 for the empty map. -/
def longestCode (M : List Code) : Nat := M.foldl (fun n c => max n c.length) 0

/-- MAXLEN (10_state.md R43). -/
def State.maxLen (s : State) : Word := toWord (longestCode s.map)

/-- BITLEN as a number (10_state.md R47, 44_bit_sequence.md R262). -/
def State.bitLen (s : State) : Nat := s.bits.length

/-- A host write of `v` to STATUS (10_state.md R34): DONE, ERR and OVR are cleared by writing 1,
ERR together with ERRCODE and ERRINFO; every other bit is ignored. -/
def State.writeStatus (s : State) (v : Word) : State :=
  let s1 := if v.getLsbD 1 then { s with done := false } else s
  let s2 := if v.getLsbD 3 then { s1 with ovr := false } else s1
  if v.getLsbD 2 then acknowledgeError s2 else s2

/-- A host write of `v` to IRQEN (10_state.md R36): bits [63:2] are ignored. -/
def State.writeIrqen (s : State) (v : Word) : State :=
  { s with doneIe := v.getLsbD 0, errIe := v.getLsbD 1 }

/-- The ID constant (10_state.md R32): ARCHIVE_MAGIC little-endian in [31:0], ARCHIVE_VERSION in
[39:32], the command-set version in [47:40], 0 above. -/
def idWord : Word :=
  toWord (leNat (Config.archiveMagic ++ [Config.archiveVersion, Config.commandSetVersion]))

end Sys2Proof.Machine
end

