-- ==== Sys2Proof/Machine/Operands.lean ====
section
/-! DEFINITION. The operands of the commands, read from registers and buffers at the completion step
(30_encoding.md R142). -/

namespace Sys2Proof.Machine

/-- IBUF[0..n-1], read one byte at a time in increasing index order (20_memory.md R108). -/
def State.inputBytes (s : State) (n : Nat) : List Byte :=
  (List.range n).map (fun k => s.memRead (Config.ibufBase + k))

/-- The input operand of ANALYZE, ENCODE, DESERIALIZE, COMPRESS and DECOMPRESS: ILEN bytes of IBUF,
RANGE_ERROR when ILEN exceeds IBUF_SIZE (10_state.md R39, 60_exceptions.md R404). -/
def State.input (s : State) : Except CmdError (List Byte) :=
  if s.params.ibufSize < s.ilen.toNat then raise .rangeError s.ilen.toNat
  else .ok (s.inputBytes s.ilen.toNat)

/-- The `n`-bit pattern of BS_APPEND: ARG1 bit n-1 first, bit 0 last, higher bits ignored
(30_encoding.md R142, 44_bit_sequence.md R265). -/
def patternBits (n : Nat) (w : Word) : List Bool :=
  (List.range n).map (fun j => w.getLsbD (n - 1 - j))

/-- `BitAt(i)`, for i < BITLEN (44_bit_sequence.md R260); no command reads past the end. -/
def bitAt (bits : List Bool) (i : Nat) : Bool := bits.getD i false

end Sys2Proof.Machine
end

