-- ==== Sys2Proof/Machine/BitSequence.lean ====
section
/-! DEFINITION. The bit-sequence commands BS_CLEAR, BS_APPEND and BS_BITAT (44_bit_sequence.md). -/

namespace Sys2Proof.Machine

/-- The body of BS_CLEAR (44_bit_sequence.md R264). -/
def bsClearBody (s : State) : Except CmdError State := .ok (s.writeBits [])

/-- BS_CLEAR (44_bit_sequence.md R264). -/
def execBsClear (s : State) : Host.Outcome State Fault Refusal :=
  complete (dest .bsClear) s (bsClearBody s)

/-- The body of BS_APPEND (44_bit_sequence.md R265). -/
def bsAppendBody (s : State) : Except CmdError State :=
  if 64 < s.arg0.toNat then raise .rangeError s.arg0.toNat
  else if s.params.bsCapBits < s.bitLen + s.arg0.toNat then
    raise .capacityError (s.bitLen + s.arg0.toNat)
  else .ok (s.writeBits (s.bits ++ patternBits s.arg0.toNat s.arg1))

/-- BS_APPEND (44_bit_sequence.md R265). -/
def execBsAppend (s : State) : Host.Outcome State Fault Refusal :=
  complete (dest .bsAppend) s (bsAppendBody s)

/-- The body of BS_BITAT (44_bit_sequence.md R266). -/
def bsBitatBody (s : State) : Except CmdError State :=
  if s.bitLen ≤ s.arg0.toNat then raise .rangeError s.arg0.toNat
  else .ok { s with result := toWord (bitAt s.bits s.arg0.toNat).toNat }

/-- BS_BITAT (44_bit_sequence.md R266). -/
def execBsBitat (s : State) : Host.Outcome State Fault Refusal :=
  complete (dest .bsBitat) s (bsBitatBody s)

end Sys2Proof.Machine
end

