-- ==== Sys2Proof/Machine/Analyzer.lean ====
section
/-! DEFINITION. The frequency analyzer: ANALYZE (41_frequency_analyzer.md). -/

namespace Sys2Proof.Machine

/-- The table of a byte string: F[v] is the number of its bytes equal to v (41_frequency_analyzer.md
R200, R201). -/
def countTable (bs : List Byte) : List Word := tabulate (fun v => toWord (bs.count v))

/-- The body of ANALYZE (41_frequency_analyzer.md R200). -/
def analyzeBody (s : State) : Except CmdError State :=
  match s.input with
  | .error e => .error e
  | .ok bs => .ok (s.writeTable (countTable bs))

/-- ANALYZE (41_frequency_analyzer.md R200). -/
def execAnalyze (s : State) : Host.Outcome State Fault Refusal :=
  complete (dest .analyze) s (analyzeBody s)

end Sys2Proof.Machine
end

