-- ==== Sys2Proof/Machine/Codec.lean ====
section
/-! DEFINITION. The archive codec: SERIALIZE and DESERIALIZE (47_archive_codec.md, the layout of
30_encoding.md R150 to R159). -/

namespace Sys2Proof.Machine

/-- The varint of a number below 2^(7 (k + 1)), low 7-bit group first, bit 7 set on every byte but
the last (30_encoding.md R153). -/
def varintBytes : Nat → Nat → List Byte
  | 0, v => [BitVec.ofNat 8 (v % 128)]
  | k + 1, v =>
    if v < 128 then [BitVec.ofNat 8 v]
    else BitVec.ofNat 8 (v % 128 + 128) :: varintBytes k (v / 128)

/-- The minimal varint of a 64-bit value, 1 to 10 bytes (30_encoding.md R153). -/
def varint (v : Word) : List Byte := varintBytes 9 v.toNat

/-- `serialize(F, s)` (47_archive_codec.md R321). -/
def serializeBytes (F : List Word) (bits : List Bool) : List Byte :=
  Config.archiveMagic ++ [Config.archiveVersion]
    ++ varint (toWord (tableEntries F).length)
    ++ (tableEntries F).flatMap (fun e => e.1 :: varint e.2)
    ++ varint (toWord bits.length)
    ++ packBits bits

/-- The body of SERIALIZE (47_archive_codec.md R320): it has no precondition. -/
def serializeBody (s : State) : Except CmdError State :=
  if s.params.obufSize < (serializeBytes s.ftab s.bits).length then
    raise .capacityError (serializeBytes s.ftab s.bits).length
  else .ok (s.writeOutput (serializeBytes s.ftab s.bits))

/-- SERIALIZE (47_archive_codec.md R320). -/
def execSerialize (s : State) : Host.Outcome State Fault Refusal :=
  complete (dest .serialize) s (serializeBody s)

/-- Where a reader stands in an archive: the offset `p` of the next byte, and the bytes from there
to the end (47_archive_codec.md R323). -/
structure Cursor where
  pos : Nat
  rest : List Byte
  deriving DecidableEq, Repr

/-- `readByte()` (47_archive_codec.md R323). -/
def readByte (c : Cursor) : Except CmdError (Byte × Cursor) :=
  match c.rest with
  | [] => raise .formatError c.pos
  | b :: bs => .ok (b, ⟨c.pos + 1, bs⟩)

/-- The loop of `readVarint()` (47_archive_codec.md R323) before byte i = 9 - k, started at offset
`s0`, with the value `v` so far. Byte 9 must be at most 0x01, so it always ends the varint. -/
def readVarintFrom (s0 : Nat) : Nat → Nat → Cursor → Except CmdError (Nat × Cursor)
  | 0, v, c =>
    match readByte c with
    | .error e => .error e
    | .ok (b, c') =>
      if 0x01 < b.toNat then raise .formatError s0
      else if b = 0x00 then raise .formatError s0
      else .ok (v + (b.toNat % 128) * 2 ^ 63, c')
  | k + 1, v, c =>
    match readByte c with
    | .error e => .error e
    | .ok (b, c') =>
      if b.toNat < 128 then
        if k + 1 < 9 ∧ b = 0x00 then raise .formatError s0
        else .ok (v + (b.toNat % 128) * 2 ^ (7 * (9 - (k + 1))), c')
      else readVarintFrom s0 k (v + (b.toNat % 128) * 2 ^ (7 * (9 - (k + 1)))) c'

/-- `readVarint()` (47_archive_codec.md R323, 30_encoding.md R154). -/
def readVarint (c : Cursor) : Except CmdError (Nat × Cursor) := readVarintFrom c.pos 9 0 c

/-- The header bytes from offset `k` on must be those given (47_archive_codec.md R323). -/
def readHeader : Nat → List Byte → Cursor → Except CmdError Cursor
  | _, [], c => .ok c
  | k, m :: ms, c =>
    match readByte c with
    | .error e => .error e
    | .ok (b, c') => if b ≠ m then raise .formatError k else readHeader (k + 1) ms c'

/-- `m` table entries, byte values at least `least` and rising, with the counts so far summing to
`sum` (47_archive_codec.md R323, with `least` = prev + 1). -/
def readEntries : Nat → Nat → Nat → Cursor → Except CmdError (List (Byte × Nat) × Cursor)
  | 0, _, _, c => .ok ([], c)
  | m + 1, least, sum, c =>
    match readByte c with
    | .error e => .error e
    | .ok (v, c1) =>
      if v.toNat < least then raise .formatError c.pos
      else
        match readVarint c1 with
        | .error e => .error e
        | .ok (n, c2) =>
          if n = 0 then raise .formatError c1.pos
          else if 2 ^ 64 - 1 < sum + n then raise .formatError c1.pos
          else
            match readEntries m (v.toNat + 1) (sum + n) c2 with
            | .error e => .error e
            | .ok (es, c3) => .ok ((v, n) :: es, c3)

/-- The table of the entries read: F[v] <- c for each, 0 elsewhere. -/
def tableOf (es : List (Byte × Nat)) : List Word :=
  tabulate (fun v => toWord (es.foldl (fun n e => if e.1 = v then e.2 else n) 0))

/-- The payload of `B` bits, which must fill the rest of the archive: its ceil(B / 8) bytes present,
padding bits 0, and nothing after it (47_archive_codec.md R323). -/
def readPayload (B : Nat) (c : Cursor) : Except CmdError (List Bool) :=
  if c.rest.length < ceilDiv8 B then raise .formatError (c.pos + c.rest.length)
  else if ((unpackBits (c.rest.take (ceilDiv8 B))).drop B).any id then
    raise .formatError (c.pos + ceilDiv8 B - 1)
  else if c.rest.length ≠ ceilDiv8 B then raise .formatError (c.pos + ceilDiv8 B)
  else .ok ((unpackBits (c.rest.take (ceilDiv8 B))).take B)

/-- `deserialize()` of an archive (47_archive_codec.md R323), with the bit capacity `cap`. -/
def deserializeBytes (cap : Nat) (bs : List Byte) : Except CmdError (List Word × List Bool) :=
  match readHeader 0 (Config.archiveMagic ++ [Config.archiveVersion]) ⟨0, bs⟩ with
  | .error e => .error e
  | .ok c =>
    match readVarint c with
    | .error e => .error e
    | .ok (m, c1) =>
      if 256 < m then raise .formatError c.pos
      else
        match readEntries m 0 0 c1 with
        | .error e => .error e
        | .ok (es, c2) =>
          match readVarint c2 with
          | .error e => .error e
          | .ok (B, c3) =>
            if cap < B then raise .capacityError B
            else
              match readPayload B c3 with
              | .error e => .error e
              | .ok bits => .ok (tableOf es, bits)

/-- The body of DESERIALIZE (47_archive_codec.md R322). -/
def deserializeBody (s : State) : Except CmdError State :=
  match s.input with
  | .error e => .error e
  | .ok bs =>
    match deserializeBytes s.params.bsCapBits bs with
    | .error e => .error e
    | .ok (F, bits) => .ok ((s.writeTable F).writeBits bits)

/-- DESERIALIZE (47_archive_codec.md R322). -/
def execDeserialize (s : State) : Host.Outcome State Fault Refusal :=
  complete (dest .deserialize) s (deserializeBody s)

end Sys2Proof.Machine
end

