-- ==== Sys2Proof/Machine/Decoder.lean ====
section
/-! DEFINITION. The bit-sequence unpacker: DECODE (46_decoder.md). -/

namespace Sys2Proof.Machine

/-- `decodeWalk` (46_decoder.md R301) on a tree whose root has the children `rootL` and `rootR`. The
walk stands at the internal node with children `l` and `r`, before bit `k`, with `out` symbols
emitted; `total` is T. The result is the bytes emitted from here on, or the first error. -/
def decodeWalk (total : Nat) (rootL rootR : HuffmanNode) :
    HuffmanNode → HuffmanNode → Nat → Nat → List Bool → Except CmdError (List Byte)
  | l, r, k, out, [] =>
    if (l, r) ≠ (rootL, rootR) then raise .decodingError k
    else if out ≠ total then raise .formatError k
    else .ok []
  | l, r, k, out, b :: bits =>
    match if b then r else l with
    | .leaf v _ =>
      if out = total then raise .formatError k
      else
        match decodeWalk total rootL rootR rootL rootR (k + 1) (out + 1) bits with
        | .error e => .error e
        | .ok rest => .ok (v :: rest)
    | .internal _ l' r' => decodeWalk total rootL rootR l' r' (k + 1) out bits

/-- `decodeSingleton` (46_decoder.md R302) for the byte value `v`, before bit `k`, with `left`
symbols still to emit. -/
def decodeSingleton (v : Byte) : Nat → Nat → List Bool → Except CmdError (List Byte)
  | k, 0, bits => if bits = [] then .ok [] else raise .formatError k
  | k, _ + 1, [] => raise .decodingError k
  | k, left + 1, b :: bits =>
    if b then raise .decodingError k
    else
      match decodeSingleton v (k + 1) left bits with
      | .error e => .error e
      | .ok rest => .ok (v :: rest)

/-- `decodeEmpty` (46_decoder.md R303). -/
def decodeEmpty (bits : List Bool) : Except CmdError (List Byte) :=
  if bits = [] then .ok [] else raise .formatError 0

/-- The bytes `total` symbols of the bits decode to with a tree (46_decoder.md R300). -/
def decodeBits (t : Option HuffmanNode) (total : Nat) (bits : List Bool) :
    Except CmdError (List Byte) :=
  match t with
  | none => decodeEmpty bits
  | some (.leaf v _) => decodeSingleton v 0 total bits
  | some (.internal _ l r) => decodeWalk total l r l r 0 0 bits

/-- The body of DECODE (46_decoder.md R300). A successful decode emits exactly T bytes, so
`writeOutput` sets OLEN to T. -/
def decodeBody (s : State) : Except CmdError State :=
  if s.treeValid then
    if s.params.obufSize < s.total.toNat then raise .capacityError s.total.toNat
    else
      match decodeBits s.tree s.total.toNat s.bits with
      | .error e => .error e
      | .ok bs => .ok (s.writeOutput bs)
  else raise .sequenceError 0x08

/-- DECODE (46_decoder.md R300). -/
def execDecode (s : State) : Host.Outcome State Fault Refusal :=
  complete (dest .decode) s (decodeBody s)

end Sys2Proof.Machine
end

