-- ==== Sys2Proof/Machine/Encoder.lean ====
section
/-! DEFINITION. The bit-sequence packer: ENCODE (45_encoder.md). -/

namespace Sys2Proof.Machine

/-- The loop of 45_encoder.md R280 over the input from index `i` on, with BITLEN = `n`: the bits it
appends, or the first error. -/
def encodeBytes (M : List Code) (cap : Nat) : Nat → Nat → List Byte → Except CmdError (List Bool)
  | _, _, [] => .ok []
  | i, n, b :: bs =>
    if codeGet M b = [] then raise .encodingError i
    else if cap < n + (codeGet M b).length then raise .capacityError (n + (codeGet M b).length)
    else
      match encodeBytes M cap (i + 1) (n + (codeGet M b).length) bs with
      | .error e => .error e
      | .ok rest => .ok (codeGet M b ++ rest)

/-- The body of ENCODE (45_encoder.md R280): it starts from the empty sequence. -/
def encodeBody (s : State) : Except CmdError State :=
  if s.mapValid then
    match s.input with
    | .error e => .error e
    | .ok bs =>
      match encodeBytes s.map s.params.bsCapBits 0 0 bs with
      | .error e => .error e
      | .ok bits => .ok (s.writeBits bits)
  else raise .sequenceError 0x07

/-- ENCODE (45_encoder.md R280). -/
def execEncode (s : State) : Host.Outcome State Fault Refusal :=
  complete (dest .encode) s (encodeBody s)

end Sys2Proof.Machine
end

