-- ==== Sys2Proof/Machine/MapBuilder.lean ====
section
/-! DEFINITION. The encoding-map traverser: BUILD_MAP (43_encoding_map.md). -/

namespace Sys2Proof.Machine

/-- The (byte value, path) pairs of the leaves under a node reached by the path `p`, left to right:
a left edge appends 0 (`false`), a right edge 1 (`true`) (43_encoding_map.md R241). -/
def HuffmanNode.paths : HuffmanNode → Code → List (Byte × Code)
  | .leaf v _, p => [(v, p)]
  | .internal _ l r, p => l.paths (p ++ [false]) ++ r.paths (p ++ [true])

/-- The code the assignments `M[v] <- p`, made in order, leave in `M[v]`; empty if none does. -/
def codeOf (ps : List (Byte × Code)) (v : Byte) : Code :=
  ps.foldl (fun c e => if e.1 = v then e.2 else c) []

/-- The assignments `buildMap` makes: none for an absent tree, the code "0" for a singleton root,
the root-to-leaf paths for an internal root (43_encoding_map.md R241, R242). -/
def mapAssignments : Option HuffmanNode → List (Byte × Code)
  | none => []
  | some (.leaf v _) => [(v, [false])]
  | some (.internal f l r) => (HuffmanNode.internal f l r).paths []

/-- `buildMap(t)` (43_encoding_map.md R241). -/
def buildMap (t : Option HuffmanNode) : List Code := tabulate (codeOf (mapAssignments t))

/-- The body of BUILD_MAP (43_encoding_map.md R240). -/
def buildMapBody (s : State) : Except CmdError State :=
  if s.treeValid then .ok (s.writeMap (buildMap s.tree))
  else raise .sequenceError 0x03

/-- BUILD_MAP (43_encoding_map.md R240). -/
def execBuildMap (s : State) : Host.Outcome State Fault Refusal :=
  complete (dest .buildMap) s (buildMapBody s)

end Sys2Proof.Machine
end

