-- ==== Sys2Proof/Machine/TreeBuilder.lean ====
section
/-! DEFINITION. The tree builder with its deterministic tie-break: BUILD_TREE
(42_tree_builder.md). -/

namespace Sys2Proof.Machine

/-- The frequency of a node (10_state.md R50). -/
def HuffmanNode.freq : HuffmanNode → Word
  | .leaf _ f => f
  | .internal f _ _ => f

/-- `minsym`, the smallest byte value under a node (10_state.md R50, 42_tree_builder.md R223). -/
def HuffmanNode.minsym : HuffmanNode → Nat
  | .leaf v _ => v.toNat
  | .internal _ l r => min l.minsym r.minsym

/-- The key order of 42_tree_builder.md R223: (freq, minsym), lexicographic, strict. -/
def HuffmanNode.before (a b : HuffmanNode) : Bool :=
  decide (a.freq.toNat < b.freq.toNat)
    || (decide (a.freq.toNat = b.freq.toNat) && decide (a.minsym < b.minsym))

/-- Remove the node with the least key from the queue `n :: q`. -/
def popLeast (n : HuffmanNode) : List HuffmanNode → HuffmanNode × List HuffmanNode
  | [] => (n, [])
  | m :: q =>
    if m.before n then
      let (a, rest) := popLeast m q
      (a, n :: rest)
    else
      let (a, rest) := popLeast n q
      (a, m :: rest)

/-- `Internal(a.freq + b.freq, a, b)`: the first node removed is the left child (42_tree_builder.md
R222). The sum never wraps (R224). -/
def joinNodes (a b : HuffmanNode) : HuffmanNode := .internal (a.freq + b.freq) a b

/-- The merge loop of 42_tree_builder.md R222 on a queue; the first argument bounds the number of
merges left, and a queue of n nodes takes n - 1 (DEDUCED, assumption 15). -/
def mergeQueue : Nat → List HuffmanNode → Option HuffmanNode
  | _, [] => none
  | _, [n] => some n
  | 0, n :: _ => some n
  | k + 1, n :: m :: q =>
    match popLeast n (m :: q) with
    | (a, []) => some a
    | (a, x :: rest) =>
      match popLeast x rest with
      | (b, rest') => mergeQueue k (joinNodes a b :: rest')

/-- One Leaf per table entry, and nothing else (42_tree_builder.md R221). -/
def seedQueue (F : List Word) : List HuffmanNode :=
  (tableEntries F).map (fun e => .leaf e.1 e.2)

/-- `build(F)` (42_tree_builder.md R222): absent for the empty table. -/
def buildTree (F : List Word) : Option HuffmanNode :=
  mergeQueue (seedQueue F).length (seedQueue F)

/-- The body of BUILD_TREE (42_tree_builder.md R220): it has no precondition. -/
def buildTreeBody (s : State) : Except CmdError State := .ok (s.writeTree (buildTree s.ftab))

/-- BUILD_TREE (42_tree_builder.md R220). -/
def execBuildTree (s : State) : Host.Outcome State Fault Refusal :=
  complete (dest .buildTree) s (buildTreeBody s)

end Sys2Proof.Machine
end

