-- ==== Sys2Proof/Machine/Control.lean ====
section
/-! DEFINITION. The top-level commands COMPRESS and DECOMPRESS and the control commands NOP and
SOFT_RESET (48_control_and_composite.md). -/

namespace Sys2Proof.Machine

/-- NOP (48_control_and_composite.md R351). -/
def execNop (s : State) : Host.Outcome State Fault Refusal := complete (dest .nop) s (.ok s)

/-- Run the bodies in order; the first `raise` ends the whole (48_control_and_composite.md R352). -/
def runBodies : List (State → Except CmdError State) → State → Except CmdError State
  | [], s => .ok s
  | f :: fs, s =>
    match f s with
    | .error e => .error e
    | .ok t => runBodies fs t

/-- The body of COMPRESS (48_control_and_composite.md R352). -/
def compressBody (s : State) : Except CmdError State :=
  runBodies [analyzeBody, buildTreeBody, buildMapBody, encodeBody, serializeBody] s

/-- COMPRESS (48_control_and_composite.md R352). -/
def execCompress (s : State) : Host.Outcome State Fault Refusal :=
  complete (dest .compress) s (compressBody s)

/-- The body of DECOMPRESS (48_control_and_composite.md R353). -/
def decompressBody (s : State) : Except CmdError State :=
  runBodies [deserializeBody, buildTreeBody, decodeBody] s

/-- DECOMPRESS (48_control_and_composite.md R353). -/
def execDecompress (s : State) : Host.Outcome State Fault Refusal :=
  complete (dest .decompress) s (decompressBody s)

/-- The body of SOFT_RESET (48_control_and_composite.md R354): the reset values, with IBUF's
contents kept and STATUS.LASTOPC = 0x1F. -/
def softResetBody (s : State) : Except CmdError State :=
  .ok { s.hardwareReset with mem := Mem.dropObuf s.mem, lastOpc := 0x1F }

/-- SOFT_RESET (48_control_and_composite.md R354). -/
def execSoftReset (s : State) : Host.Outcome State Fault Refusal :=
  complete (dest .softReset) s (softResetBody s)

end Sys2Proof.Machine
end

