-- ==== Sys2Proof/Machine/Dispatch.lean ====
section
/-! DEFINITION. exec: the completion of each command, one arm per constructor of Instr. -/

namespace Sys2Proof.Machine

def exec (i : Instr) (s : State) : Host.Outcome State Fault Refusal :=
  match i with
  | .nop => Sys2Proof.Machine.execNop s
  | .analyze => Sys2Proof.Machine.execAnalyze s
  | .buildTree => Sys2Proof.Machine.execBuildTree s
  | .buildMap => Sys2Proof.Machine.execBuildMap s
  | .bsClear => Sys2Proof.Machine.execBsClear s
  | .bsAppend => Sys2Proof.Machine.execBsAppend s
  | .bsBitat => Sys2Proof.Machine.execBsBitat s
  | .encode => Sys2Proof.Machine.execEncode s
  | .decode => Sys2Proof.Machine.execDecode s
  | .serialize => Sys2Proof.Machine.execSerialize s
  | .deserialize => Sys2Proof.Machine.execDeserialize s
  | .compress => Sys2Proof.Machine.execCompress s
  | .decompress => Sys2Proof.Machine.execDecompress s
  | .softReset => Sys2Proof.Machine.execSoftReset s

end Sys2Proof.Machine
end

