-- ==== Sys2Proof/Machine/HostBus.lean ====
section
/-! DEFINITION. The host interface: the address map, the control registers, and what one host access
does (20_memory.md, 10_state.md R31, 70_reset_and_hazards.md R460 to R462). -/

namespace Sys2Proof.Machine

/-- The regions of 20_memory.md R101. -/
inductive Region where
  | reg
  | ftabw
  | maplenw
  | mapcodew
  | bssw
  | ibuf
  | obuf
  deriving DecidableEq, Repr

/-- A row of the address map. -/
structure RegionRow where
  region : Region
  base : Nat
  size : Nat
  deriving DecidableEq, Repr

/-- The address map of 20_memory.md R101; every other address is unmapped. -/
def memoryMap (p : Params) : List RegionRow :=
  [ ⟨.reg, Config.regBase, 0x100⟩,
    ⟨.ftabw, Config.ftabBase, 0x800⟩,
    ⟨.maplenw, Config.mapLenBase, 0x800⟩,
    ⟨.mapcodew, Config.mapCodeBase, 0x2000⟩,
    ⟨.bssw, Config.bssBase, p.bsCapBits / 8⟩,
    ⟨.ibuf, Config.ibufBase, p.ibufSize⟩,
    ⟨.obuf, Config.obufBase, p.obufSize⟩ ]

/-- The region an access of `width` bytes at `a` is an access TO: one that holds its first byte or
any other byte of it. None means every byte is unmapped. An access that starts outside every region
and runs into one counts as an access to that one, and bytes are counted without wrapping at 2^32
(DESIGN CHOICE, assumption 5, safe but for an access that would wrap). -/
def touchedRegion (p : Params) (a width : Nat) : Option RegionRow :=
  (memoryMap p).find? (fun r => decide (a < r.base + r.size) && decide (r.base < a + max width 1))

/-- The widths and alignments a region admits (20_memory.md R102); no other width, 0 included, is
admitted anywhere (DESIGN CHOICE, assumption 13, safe). -/
def regionAdmits (r : Region) (a width : Nat) : Bool :=
  match r with
  | .reg => decide (width = 8) && decide (a % 8 = 0)
  | .ftabw => decide (width = 8) && decide (a % 8 = 0)
  | .maplenw => decide (width = 8) && decide (a % 8 = 0)
  | .mapcodew => [1, 2, 4, 8].contains width && decide (a % width = 0)
  | .bssw => [1, 2, 4, 8].contains width && decide (a % width = 0)
  | .ibuf => [1, 2, 4, 8].contains width && decide (a % width = 0)
  | .obuf => [1, 2, 4, 8].contains width && decide (a % width = 0)

/-- The control registers of 10_state.md R31; `reserved` stands for offsets 0x98 to 0xF8. -/
inductive Reg where
  | id
  | cmd
  | status
  | errinfo
  | irqen
  | arg0
  | arg1
  | result
  | ilen
  | olen
  | bitlen
  | total
  | entries
  | valid
  | nodecount
  | maxlen
  | capIbuf
  | capObuf
  | capBits
  | reserved
  deriving DecidableEq, Repr

/-- The register at byte offset `off` (10_state.md R31); the low three bits select a byte of it. -/
def regAt (off : Nat) : Reg :=
  match off / 8 with
  | 0 => .id
  | 1 => .cmd
  | 2 => .status
  | 3 => .errinfo
  | 4 => .irqen
  | 5 => .arg0
  | 6 => .arg1
  | 7 => .result
  | 8 => .ilen
  | 9 => .olen
  | 10 => .bitlen
  | 11 => .total
  | 12 => .entries
  | 13 => .valid
  | 14 => .nodecount
  | 15 => .maxlen
  | 16 => .capIbuf
  | 17 => .capObuf
  | 18 => .capBits
  | _ => .reserved

/-- The byte offset of each register (10_state.md R31); the first reserved one for `reserved`. -/
def regOffset : Reg → Nat
  | .id => 0x00
  | .cmd => 0x08
  | .status => 0x10
  | .errinfo => 0x18
  | .irqen => 0x20
  | .arg0 => 0x28
  | .arg1 => 0x30
  | .result => 0x38
  | .ilen => 0x40
  | .olen => 0x48
  | .bitlen => 0x50
  | .total => 0x58
  | .entries => 0x60
  | .valid => 0x68
  | .nodecount => 0x70
  | .maxlen => 0x78
  | .capIbuf => 0x80
  | .capObuf => 0x88
  | .capBits => 0x90
  | .reserved => 0x98

/-- The value a register holds (10_state.md R31 to R45); CMD and the reserved offsets read 0. -/
def State.regValue (s : State) : Reg → Word
  | .id => idWord
  | .cmd => 0
  | .status => s.statusWord
  | .errinfo => s.errInfo
  | .irqen => s.irqenWord
  | .arg0 => s.arg0
  | .arg1 => s.arg1
  | .result => s.result
  | .ilen => s.ilen
  | .olen => s.olen
  | .bitlen => toWord s.bitLen
  | .total => s.total
  | .entries => s.entries
  | .valid => s.validWord
  | .nodecount => s.nodeCount
  | .maxlen => s.maxLen
  | .capIbuf => toWord s.params.ibufSize
  | .capObuf => toWord s.params.obufSize
  | .capBits => toWord s.params.bsCapBits
  | .reserved => 0

/-- The registers that hold a command's results, whose reads while BUSY = 1 are draws
(70_reset_and_hazards.md R460, R462). -/
def isResultReg : Reg → Bool
  | .id => false
  | .cmd => false
  | .status => false
  | .errinfo => true
  | .irqen => false
  | .arg0 => false
  | .arg1 => false
  | .result => true
  | .ilen => false
  | .olen => true
  | .bitlen => true
  | .total => true
  | .entries => true
  | .valid => true
  | .nodecount => true
  | .maxlen => true
  | .capIbuf => false
  | .capObuf => false
  | .capBits => false
  | .reserved => false

/-- The byte a host read finds at offset `k` of a region when no command runs (20_memory.md R101,
R105 to R107, 30_encoding.md R160, R161). -/
def State.idleByte (s : State) (r : Region) (k : Nat) : Byte :=
  match r with
  | .reg => wordByte (s.regValue (regAt k)) (k % 8)
  | .ftabw => wordByte (s.ftab.getD (k / 8) 0) (k % 8)
  | .maplenw => wordByte (toWord (s.map.getD (k / 8) []).length) (k % 8)
  | .mapcodew => storeByte (s.map.getD (k / 32) []) (k % 32)
  | .bssw =>
    if k < ceilDiv8 s.bitLen then storeByte s.bits k
    else Config.freeByte s.draws (Config.bssBase + k)
  | .ibuf => s.memRead (Config.ibufBase + k)
  | .obuf =>
    if k < s.olen.toNat then s.memRead (Config.obufBase + k)
    else Config.freeByte s.draws (Config.obufBase + k)

/-- Whether a read of offset `k` of a region while BUSY = 1 is a draw (70_reset_and_hazards.md
R462). The draws end with BUSY (DEDUCED, assumption 17, unsafe). -/
def drawnWhileBusy (r : Region) (k : Nat) : Bool :=
  match r with
  | .reg => isResultReg (regAt k)
  | .ftabw => true
  | .maplenw => true
  | .mapcodew => true
  | .bssw => true
  | .ibuf => false
  | .obuf => true

/-- The byte a host read finds at an address; unmapped addresses read 0 (20_memory.md R104). -/
def State.hostByte (s : State) (a : Nat) : Byte :=
  match touchedRegion s.params a 1 with
  | none => 0
  | some row =>
    if s.busy && drawnWhileBusy row.region (a - row.base) then Config.freeByte s.draws a
    else s.idleByte row.region (a - row.base)

/-- The value a host read of `width` bytes at `a` returns, little-endian (20_memory.md R103). -/
def State.hostValue (s : State) (a width : Nat) : Word :=
  toWord (leNat ((List.range (min width 8)).map (fun k => s.hostByte (a + k))))

/-- A host read (20_memory.md R102, R109): a bus error for an access its region does not admit, and
otherwise the value, with no side effect on the block. -/
def hostRead (a : Addr) (width : Nat) (s : State) : Host.Outcome State Fault Refusal :=
  match touchedRegion s.params a.toNat width with
  | none => .next { s with rdata := 0 }.advanceDraws
  | some row =>
    if regionAdmits row.region a.toNat width then
      .next { s with rdata := s.hostValue a.toNat width }.advanceDraws
    else .fault (.hostAccessFault a width)

/-- A host write of `v` to a control register (10_state.md R31 to R39, R45). A write to CMD issues
a command, or is dropped with OVR set while one runs (48_control_and_composite.md R360, R362);
ARG0, ARG1 and ILEN must not be written while one runs (70_reset_and_hazards.md R461); writes to
read-only and reserved registers are ignored. -/
def writeReg (a : Addr) (r : Reg) (v : Word) (s : State) : Host.Outcome State Fault Refusal :=
  match r with
  | .cmd => if s.busy then .next { s with ovr := true } else .next (s.issue v)
  | .status => .next (s.writeStatus v)
  | .irqen => .next (s.writeIrqen v)
  | .arg0 => if s.busy then .fault (.hostHazard a) else .next { s with arg0 := v }
  | .arg1 => if s.busy then .fault (.hostHazard a) else .next { s with arg1 := v }
  | .ilen => if s.busy then .fault (.hostHazard a) else .next { s with ilen := v }
  | .id => .next s
  | .errinfo => .next s
  | .result => .next s
  | .olen => .next s
  | .bitlen => .next s
  | .total => .next s
  | .entries => .next s
  | .valid => .next s
  | .nodecount => .next s
  | .maxlen => .next s
  | .capIbuf => .next s
  | .capObuf => .next s
  | .capBits => .next s
  | .reserved => .next s

/-- A host write of the low `width` bytes of `v` at `a` (20_memory.md R102 to R104): registers,
IBUF (not while a command runs, 70_reset_and_hazards.md R461), and nothing elsewhere. The width and
alignment are checked before the hazard (DESIGN CHOICE, assumption 12, safe). -/
def hostWrite (a : Addr) (width : Nat) (v : Word) (s : State) : Host.Outcome State Fault Refusal :=
  match touchedRegion s.params a.toNat width with
  | none => .next s
  | some row =>
    if regionAdmits row.region a.toNat width then
      match row.region with
      | .reg => writeReg a (regAt (a.toNat - row.base)) v s
      | .ibuf =>
        if s.busy then .fault (.hostHazard a)
        else .next { s with mem := Mem.putBytes s.mem a.toNat ((wordBytes v).take width) }
      | .ftabw => .next s
      | .maplenw => .next s
      | .mapcodew => .next s
      | .bssw => .next s
      | .obuf => .next s
    else .fault (.hostAccessFault a width)

end Sys2Proof.Machine
end

