-- ==== Sys2Proof/Machine/Step.lean ====
section
/-! DEFINITION. One step of the machine: the next event of the environment's schedule, or, when
there is none, the core's own step. -/

namespace Sys2Proof.Machine

/-- The core's step (48_control_and_composite.md R361): it completes the running command, an illegal
word with ILLEGAL_COMMAND. An idle core waits for a CMD write (70_reset_and_hazards.md R450,
60_exceptions.md R419). -/
def coreStep (s : State) : Host.Outcome State Fault Refusal :=
  match s.seq with
  | .idle => .next s
  | .running w =>
    match decodeWord w with
    | .ok i => exec i s
    | .error _ => completeIllegal w s

/-- One step. Host accesses and the completion are interleaved one at a time in the order the
schedule gives (20_memory.md R111, 60_exceptions.md R410); with no host access left the core
moves, so an issued command completes (48_control_and_composite.md R363). -/
def step (s : State) : Host.Outcome State Fault Refusal :=
  match s.turns with
  | [] => coreStep s
  | .core :: ts => coreStep { s with turns := ts }
  | .read a n :: ts => hostRead a n { s with turns := ts }
  | .write a n v :: ts => hostWrite a n v { s with turns := ts }
  | .hardReset :: ts => .next { s with turns := ts }.hardwareReset

/-- `s` with the command word `w` issued (48_control_and_composite.md R360) and the core's turn
next, so that the next step completes exactly that command. There is no instruction fetch
(10_state.md R30): a command comes to run because the host writes its word to CMD (DESIGN
CHOICE, assumption 6, safe). -/
def State.withFetchWord (s : State) (nbits w : Nat) : State :=
  { s.issue (toWord (w % 2 ^ nbits)) with turns := .core :: s.turns }

end Sys2Proof.Machine
end

