-- ==== Sys2Proof/Machine/HostProgram.lean ====
section
/-! DEFINITION. The second agent, the HOST (00_scope.md R3): the host program notation of
30_encoding.md R144 and R145, the bus accesses that encode each action, and a host that runs such a
program against the block one access at a time. The host's program and variables are not state of
the block (10_state.md R54), so they stand beside `State` here and not in it. -/

namespace Sys2Proof.Machine

/-- The value of a host variable: a word, or a byte list. That a word has 64 bits is the model's
(DESIGN CHOICE, assumption 21, unsafe). -/
inductive HostVal where
  | word (w : Word)
  | bytes (bs : List Byte)
  deriving DecidableEq, Repr

/-- Host variables by name; the first entry for a name counts. -/
abbrev HostVars := List (String × HostVal)

/-- The value of a host variable that holds a word; 0 for an unset name (DESIGN CHOICE, assumption
18, unsafe) and for one that holds bytes (DESIGN CHOICE, assumption 22, unsafe). -/
def wordVar (vs : HostVars) (x : String) : Word :=
  match vs.lookup x with
  | some (.word w) => w
  | _ => 0

/-- The value of a host variable that holds bytes; no bytes for an unset name (DESIGN CHOICE,
assumption 18, unsafe) and for one that holds a word (DESIGN CHOICE, assumption 22, unsafe). -/
def bytesVar (vs : HostVars) (x : String) : List Byte :=
  match vs.lookup x with
  | some (.bytes bs) => bs
  | _ => []

/-- The host's word expressions: a constant, a variable, a sum, a byte of a byte list (the forms are
a DESIGN CHOICE, assumption 18, unsafe). -/
inductive HostExpr where
  | lit (w : Word)
  | var (x : String)
  | add (a b : HostExpr)
  | byteOf (x : String) (i : HostExpr)
  deriving DecidableEq, Repr

/-- The value of a host expression. A sum wraps modulo 2^64 (DESIGN CHOICE, assumption 21, unsafe).
The spec does not say what a byte of a byte list past its end is; here it is 0 (DESIGN CHOICE,
assumption 22, unsafe). -/
def evalExpr (vs : HostVars) : HostExpr → Word
  | .lit w => w
  | .var x => wordVar vs x
  | .add a b => evalExpr vs a + evalExpr vs b
  | .byteOf x i => ((bytesVar vs x).getD (evalExpr vs i).toNat 0).zeroExtend 64

/-- The bytes of a `WB` action: written out, or one whole byte-list variable. 30_encoding.md R144
does not say what they may be; a computed byte or a word variable is no form of the model (DESIGN
CHOICE, assumption 22, unsafe). -/
inductive HostBytes where
  | lit (bs : List Byte)
  | var (x : String)
  deriving DecidableEq, Repr

/-- The value of a `WB` operand. -/
def evalBytes (vs : HostVars) : HostBytes → List Byte
  | .lit bs => bs
  | .var x => bytesVar vs x

/-- The conditions of `IF cond GOTO L` on host variables: equal, different, a bit set. 30_encoding.md
R144 leaves `cond` open; an order comparison is no form of the model (DESIGN CHOICE, assumption 22,
unsafe). -/
inductive HostCond where
  | eq (a b : HostExpr)
  | ne (a b : HostExpr)
  | bitSet (a : HostExpr) (i : Nat)
  deriving DecidableEq, Repr

/-- The truth of a condition. A bit past the 64 of a word is 0 (DESIGN CHOICE, assumption 22,
unsafe). -/
def evalCond (vs : HostVars) : HostCond → Bool
  | .eq a b => evalExpr vs a == evalExpr vs b
  | .ne a b => evalExpr vs a != evalExpr vs b
  | .bitSet a i => (evalExpr vs a).getLsbD i

/-- The actions of 30_encoding.md R144, one per line of a host program. Regions and registers the
rule does not list for an action are admitted, and `t <- v` sets words only (DESIGN CHOICE,
assumption 22, unsafe). -/
inductive HostAct where
  /-- `WR NAME, v` -/
  | wr (r : Reg) (v : HostExpr)
  /-- `RD NAME -> t` -/
  | rd (r : Reg) (t : String)
  /-- `WB IBUF[k], b0, b1, ...` -/
  | wb (k : HostExpr) (bs : HostBytes)
  /-- `RB REGION[k], n -> t` -/
  | rb (g : Region) (k n : HostExpr) (t : String)
  /-- `RQ REGION[v] -> t` -/
  | rq (g : Region) (v : HostExpr) (t : String)
  /-- `CMD M` -/
  | cmd (i : Instr)
  /-- `t <- v`, on host variables -/
  | set (t : String) (v : HostExpr)
  /-- `L:` -/
  | label (l : String)
  /-- `IF cond GOTO L` -/
  | ifGoto (c : HostCond) (l : String)
  deriving DecidableEq, Repr

/-- The base address of a region (20_memory.md R101). -/
def regionBase : Region → Nat
  | .reg => Config.regBase
  | .ftabw => Config.ftabBase
  | .maplenw => Config.mapLenBase
  | .mapcodew => Config.mapCodeBase
  | .bssw => Config.bssBase
  | .ibuf => Config.ibufBase
  | .obuf => Config.obufBase

/-- One-byte writes at rising addresses, in order, each address reduced modulo 2^32 (DESIGN CHOICE,
assumption 21, unsafe). -/
def byteWrites (a : Nat) : List Byte → List Turn
  | [] => []
  | b :: bs => .write (BitVec.ofNat 32 a) 1 (b.zeroExtend 64) :: byteWrites (a + 1) bs

/-- The bus accesses that encode an action (30_encoding.md R144). The rule does not say what an action
does whose base + k passes 2^32: here every address is reduced modulo 2^32, the width of a host
address (00_scope.md R6), and `k`, `n` and `v` are 64-bit words (DESIGN CHOICE, assumption 21,
unsafe). -/
def accesses (vs : HostVars) : HostAct → List Turn
  | .wr r v => [.write (BitVec.ofNat 32 (regOffset r)) 8 (evalExpr vs v)]
  | .rd r _ => [.read (BitVec.ofNat 32 (regOffset r)) 8]
  | .wb k bs => byteWrites (Config.ibufBase + (evalExpr vs k).toNat) (evalBytes vs bs)
  | .rb g k n _ =>
    (List.range (evalExpr vs n).toNat).map
      (fun j => .read (BitVec.ofNat 32 (regionBase g + (evalExpr vs k).toNat + j)) 1)
  | .rq g v _ => [.read (BitVec.ofNat 32 (regionBase g + 8 * (evalExpr vs v).toNat)) 8]
  | .cmd i => [.write (BitVec.ofNat 32 (regOffset .cmd)) 8 (encodeWord i)]
  | .set _ _ => []
  | .label _ => []
  | .ifGoto _ _ => []

/-- The host's variables after an action whose reads returned `got`, in order. -/
def bindResults (vs : HostVars) (got : List Word) : HostAct → HostVars
  | .rd _ t => (t, .word (got.getD 0 0)) :: vs
  | .rb _ _ _ t => (t, .bytes (got.map (fun w => wordByte w 0))) :: vs
  | .rq _ _ t => (t, .word (got.getD 0 0)) :: vs
  | .set t v => (t, .word (evalExpr vs v)) :: vs
  | .wr _ _ => vs
  | .wb _ _ => vs
  | .cmd _ => vs
  | .label _ => vs
  | .ifGoto _ _ => vs

/-- The line after an action: the label's line for a taken `IF cond GOTO L`, else the next line. The
first matching label counts, and a missing one ends the program (DESIGN CHOICE, assumption 18,
unsafe). -/
def nextLine (prog : List HostAct) (pc : Nat) (vs : HostVars) : HostAct → Nat
  | .ifGoto c l => if evalCond vs c then prog.findIdx (fun a => a == .label l) else pc + 1
  | .wr _ _ => pc + 1
  | .rd _ _ => pc + 1
  | .wb _ _ => pc + 1
  | .rb _ _ _ _ => pc + 1
  | .rq _ _ _ => pc + 1
  | .cmd _ => pc + 1
  | .set _ _ => pc + 1
  | .label _ => pc + 1

/-- The host: its program, the line it stands at, its variables, the accesses of the running line
still to make (none before the line starts), and what its reads have returned so far. -/
structure HostAgent where
  prog : List HostAct
  pc : Nat
  vars : HostVars
  todo : Option (List Turn)
  got : List Word
  deriving DecidableEq, Repr

/-- The block and its host (00_scope.md R3: "No other agent exists"). Which of them moves next is
given from outside, so the schedule inside `core` is not used (assumption 23). -/
structure System where
  core : State
  host : HostAgent
  deriving DecidableEq, Repr

/-- Whether an access returns a value to the host. -/
def isRead : Turn → Bool
  | .read _ _ => true
  | .write _ _ _ => false
  | .hardReset => false
  | .core => false

/-- The block's step taken inside the system. -/
def withCore (y : System) (t : Turn) (after : State → HostAgent) :
    Host.Outcome System Fault Refusal :=
  match step { y.core with turns := t :: y.core.turns } with
  | .next s => .next { core := s, host := after s }
  | .fault f => .fault f
  | .refused r => .refused r

/-- The host's move: it starts its line, makes the line's next access, or goes on to the next line.
A program that has run off its end moves no more (DESIGN CHOICE, assumption 18, unsafe), and a line's
operands are evaluated when it starts (DESIGN CHOICE, assumption 22, unsafe). -/
def hostMove (y : System) : Host.Outcome System Fault Refusal :=
  match y.host.prog[y.host.pc]? with
  | none => .next y
  | some act =>
    match y.host.todo with
    | none => .next { y with host := { y.host with todo := some (accesses y.host.vars act), got := [] } }
    | some [] =>
      .next { y with
        host :=
          { y.host with
            pc := nextLine y.host.prog y.host.pc y.host.vars act
            vars := bindResults y.host.vars y.host.got act
            todo := none
            got := [] } }
    | some (t :: ts) =>
      withCore y t (fun s =>
        { y.host with
          todo := some ts
          got := if isRead t then y.host.got ++ [s.rdata] else y.host.got })

/-- The core's move (48_control_and_composite.md R361). -/
def coreMove (y : System) : Host.Outcome System Fault Refusal := withCore y .core (fun _ => y.host)

/-- The reset input's move (70_reset_and_hazards.md R450): the block is reset, and the host goes on as
it stands. The spec does not say who asserts the input, nor what the host then does (DESIGN CHOICE,
assumption 23, safe over all movers, unsafe for what a host does after a reset). -/
def resetMove (y : System) : Host.Outcome System Fault Refusal :=
  withCore y .hardReset (fun _ => y.host)

/-- What can move next in a system: an agent of 00_scope.md R3, or the reset input. -/
inductive Mover where
  | host
  | core
  | reset
  deriving DecidableEq, Repr

/-- One move of the mover named: the host or the core may come first (60_exceptions.md R410), and the
reset input may come at any time, while a host program runs too (70_reset_and_hazards.md R450 does
not say; DESIGN CHOICE, assumption 23, safe over all movers). -/
def systemMove (m : Mover) (y : System) : Host.Outcome System Fault Refusal :=
  match m with
  | .host => hostMove y
  | .core => coreMove y
  | .reset => resetMove y

/-! ### The pseudo-actions of 30_encoding.md R145; `l` is a label of the program's own choice -/

/-- `WAIT`: poll STATUS until BUSY = 0. -/
def waitActs (l : String) : List HostAct :=
  [.label l, .rd .status "s", .ifGoto (.bitSet (.var "s") 0) l]

/-- `RUN M`. -/
def runActs (i : Instr) (l : String) : List HostAct := .cmd i :: waitActs l

/-- `LOAD b0, ..., b(n-1)`. -/
def loadActs (bs : List Byte) : List HostAct :=
  [.wb (.lit 0) (.lit bs), .wr .ilen (.lit (toWord bs.length))]

/-- `APPEND n, p`. -/
def appendActs (n p : HostExpr) (l : String) : List HostAct :=
  [.wr .arg0 n, .wr .arg1 p] ++ runActs .bsAppend l

/-- `BITAT i -> t`. -/
def bitatActs (i : HostExpr) (t l : String) : List HostAct :=
  [.wr .arg0 i] ++ runActs .bsBitat l ++ [.rd .result t]

/-- `COPYBACK`. -/
def copybackActs : List HostAct :=
  [.rd .olen "n", .rb .obuf (.lit 0) (.var "n") "t", .wb (.lit 0) (.var "t"), .wr .ilen (.var "n")]

/-- `CLEARSTATUS`. -/
def clearStatusActs : List HostAct := [.wr .status (.lit 0xE)]

end Sys2Proof.Machine
end

