-- ==== Sys2Proof/Safety.lean ====
section
/-! DEFINITION. The terms claims use: the invariant of the block's state, what a step that stops is,
what the merge rule of the tree builder allows, and measures of trees. -/

namespace Sys2Proof.Machine

/-- What holds at reset and is kept by every step (10_state.md R34, R39, R41, R47, R48, R51): the
tree and the map are current or absent, counts and buffers are within their capacities, memory is
canonical and holds buffer bytes only, and the status bits agree with one another. -/
structure State.Inv (s : State) : Prop where
  paramsOk : s.params.wellFormed = true
  tableSize : s.ftab.length = 256
  totalFits : tableSum s.ftab < 2 ^ 64
  treeCurrent : s.treeValid = true → s.tree = buildTree s.ftab
  treeAbsent : s.treeValid = false → s.tree = none
  mapNeedsTree : s.mapValid = true → s.treeValid = true
  mapCurrent : s.mapValid = true → s.map = buildMap s.tree
  mapEmpty : s.mapValid = false → s.map = emptyMap
  bitsFit : s.bits.length ≤ s.params.bsCapBits
  outputFits : s.olen.toNat ≤ s.params.obufSize
  memCanonical : Mem.wf s.mem
  memInBuffers : ∀ c ∈ s.mem,
    (Config.ibufBase ≤ c.1 ∧ c.1 < Config.ibufBase + s.params.ibufSize) ∨
      (Config.obufBase ≤ c.1 ∧ c.1 < Config.obufBase + s.olen.toNat)
  outputSpecified : ∀ k, k < s.olen.toNat → (Mem.get? s.mem (Config.obufBase + k)).isSome = true
  doneOrErr : ¬ (s.done = true ∧ s.err = true)
  busyQuiet : s.busy = true → s.done = false ∧ s.err = false
  noErrNoCode : s.err = false → s.errCode = 0 ∧ s.errInfo = 0
  errCodeKnown : s.err = true → 1 ≤ s.errCode.toNat ∧ s.errCode.toNat ≤ 7
  resultIsBit : s.result = 0 ∨ s.result = 1

/-- The widths and alignments of 20_memory.md R102, as claims say them: 8 bytes at a multiple of 8 in
every region, and 1, 2 or 4 bytes at a multiple of the width in MAPCODEW, BSSW, IBUF and OBUF. -/
def accessAllowed (r : Region) (a n : Nat) : Bool :=
  (n == 8 && a % 8 == 0)
    || ([Region.mapcodew, .bssw, .ibuf, .obuf].contains r && [1, 2, 4].contains n && a % n == 0)

/-- The fault the next host access of a schedule is, if it is one (60_exceptions.md R411, R413,
70_reset_and_hazards.md R461): an access its region does not admit, or a write to IBUF, ILEN, ARG0
or ARG1 while a command runs. Which accesses are accesses to a region, and which fault comes first,
are the model's choices where the rules leave them open (assumptions 5, 12, 13). -/
def turnFault (s : State) : Turn → Option Fault
  | .read a n =>
    match touchedRegion s.params a.toNat n with
    | none => none
    | some row => if accessAllowed row.region a.toNat n then none else some (.hostAccessFault a n)
  | .write a n _ =>
    match touchedRegion s.params a.toNat n with
    | none => none
    | some row =>
      if accessAllowed row.region a.toNat n then
        if s.busy && (row.region == .ibuf
            || (row.region == .reg
              && [Reg.ilen, Reg.arg0, Reg.arg1].contains (regAt (a.toNat - row.base)))) then
          some (.hostHazard a)
        else none
      else some (.hostAccessFault a n)
  | .hardReset => none
  | .core => none

/-- `t` differs from `s` in nothing but the members of a destination set (48_control_and_composite.md
R350): every register, flag and byte of memory outside it is the same. The completion record itself
(SEQ, DONE, ERR, ERRCODE, ERRINFO and the model's draw counter) is not spoken of. IBUF, every
address below OBUF, is never a destination. -/
structure KeepsOutside (ds : List DestMember) (s t : State) : Prop where
  params : t.params = s.params
  ovr : t.ovr = s.ovr
  lastOpc : t.lastOpc = s.lastOpc
  doneIe : t.doneIe = s.doneIe
  errIe : t.errIe = s.errIe
  arg0 : t.arg0 = s.arg0
  arg1 : t.arg1 = s.arg1
  ilen : t.ilen = s.ilen
  turns : t.turns = s.turns
  rdata : t.rdata = s.rdata
  ibuf : ∀ a, a < Config.obufBase → Mem.get? t.mem a = Mem.get? s.mem a
  ftab : DestMember.ftab ∉ ds → t.ftab = s.ftab
  tree : DestMember.tree ∉ ds → t.tree = s.tree ∧ t.treeValid = s.treeValid
  map : DestMember.map ∉ ds → t.map = s.map ∧ t.mapValid = s.mapValid
  bitseq : DestMember.bitseq ∉ ds → t.bits = s.bits
  obuf : DestMember.obuf ∉ ds → t.mem = s.mem ∧ t.olen = s.olen
  result : DestMember.result ∉ ds → t.result = s.result

/-- Every member of a destination set has its cleared value (48_control_and_composite.md R350). -/
structure Cleared (ds : List DestMember) (t : State) : Prop where
  ftab : DestMember.ftab ∈ ds → t.ftab = emptyTable
  tree : DestMember.tree ∈ ds → t.tree = none ∧ t.treeValid = false
  map : DestMember.map ∈ ds → t.map = emptyMap ∧ t.mapValid = false
  bitseq : DestMember.bitseq ∈ ds → t.bits = []
  obuf : DestMember.obuf ∈ ds → t.olen = 0
  result : DestMember.result ∈ ds → t.result = 0

/-- A command has ended without error (48_control_and_composite.md R361). -/
structure EndsOk (t : State) : Prop where
  seq : t.seq = .idle
  done : t.done = true
  err : t.err = false
  errCode : t.errCode = 0
  errInfo : t.errInfo = 0

/-- A command has ended with the error code and information given (48_control_and_composite.md R361,
60_exceptions.md R405). -/
structure EndsWith (code : BitVec 4) (info : Word) (t : State) : Prop where
  seq : t.seq = .idle
  done : t.done = false
  err : t.err = true
  errCode : t.errCode = code
  errInfo : t.errInfo = info

/-- OBUF holds exactly these bytes at index 0 on, every other OBUF byte is unspecified, and OLEN is
their number (10_state.md R39, 20_memory.md R106). -/
structure OutputIs (bs : List Byte) (t : State) : Prop where
  olen : t.olen = toWord bs.length
  bytes : ∀ k, Mem.get? t.mem (Config.obufBase + k) = bs[k]?

/-- The concatenation of the codes a map gives the bytes of a string (45_encoder.md R280). -/
def codesOf (M : List Code) (bs : List Byte) : List Bool := bs.flatMap (codeGet M)

/-- A run of `k` steps is safe when no step of it stops (60_exceptions.md R411: a faulted state is
never final). -/
def SafeRun (k : Nat) (s : State) : Prop :=
  ∃ t, Host.Core.run { State := State, Fault := Fault, Refusal := Refusal, step := step,
                       reset := State.reset } k s = .next t

/-! ### Trees -/

/-- The leaves of a tree, left to right. -/
def HuffmanNode.leaves : HuffmanNode → List (Byte × Word)
  | .leaf v f => [(v, f)]
  | .internal _ l r => l.leaves ++ r.leaves

/-- The byte values at the leaves of a tree, left to right. -/
def HuffmanNode.symbols (n : HuffmanNode) : List Byte := n.leaves.map Prod.fst

/-- The node a bit string leads to from a node: 0 to the left child, 1 to the right child; none if it
goes on past a leaf (46_decoder.md R301, 43_encoding_map.md R241). -/
def HuffmanNode.follow : HuffmanNode → Code → Option HuffmanNode
  | n, [] => some n
  | .leaf _ _, _ :: _ => none
  | .internal _ l r, b :: c => if b then r.follow c else l.follow c

/-- The depth of a tree: 0 for a leaf. -/
def HuffmanNode.depth : HuffmanNode → Nat
  | .leaf _ _ => 0
  | .internal _ l r => max l.depth r.depth + 1

/-- Every internal node's frequency is the exact sum of its children's (42_tree_builder.md R224). -/
def HuffmanNode.SumsExact : HuffmanNode → Prop
  | .leaf _ _ => True
  | .internal f l r =>
    f.toNat = l.freq.toNat + r.freq.toNat ∧ l.SumsExact ∧ r.SumsExact

/-- The key of 42_tree_builder.md R223. -/
def HuffmanNode.key (n : HuffmanNode) : Nat × Nat := (n.freq.toNat, n.minsym)

/-- The lexicographic order of keys (42_tree_builder.md R223). -/
def keyLess (a b : Nat × Nat) : Prop := a.1 < b.1 ∨ (a.1 = b.1 ∧ a.2 < b.2)

/-- `a` is THE node of the queue with the least key, and `rest` the queue without it, in any order
(42_tree_builder.md R222). -/
def TakesLeast (q : List HuffmanNode) (a : HuffmanNode) (rest : List HuffmanNode) : Prop :=
  q.Perm (a :: rest) ∧ ∀ x ∈ rest, keyLess a.key x.key

/-- `Builds q t`: the merge rule of 42_tree_builder.md R222 can take the queue `q` to the single
node `t`. -/
inductive Builds : List HuffmanNode → HuffmanNode → Prop where
  | one (n : HuffmanNode) : Builds [n] n
  | merge (q rest rest' : List HuffmanNode) (a b t : HuffmanNode) :
      TakesLeast q a rest → TakesLeast rest b rest' →
      Builds (.internal (a.freq + b.freq) a b :: rest') t → Builds q t

/-- No code of a map is a prefix of the code of another byte value (43_encoding_map.md R244(b)). -/
def PrefixFree (M : List Code) : Prop :=
  ∀ u v : Byte, u ≠ v → codeGet M u ≠ [] → codeGet M v ≠ [] → ¬ (codeGet M u <+: codeGet M v)

/-! ### Archives, and what can be wrong with one -/

/-- The header of an archive: magic and version (30_encoding.md R151, R152). -/
def archiveHeader : List Byte := [0x48, 0x55, 0x46, 0x5A, 0x01]

/-- A run of table entries a reader takes (30_encoding.md R155, 47_archive_codec.md R323): rising
byte values, positive counts, and a sum of counts of at most 2^64 - 1. -/
structure GoodEntries (es : List (Byte × Word)) : Prop where
  rising : es.Pairwise (fun d e => d.1.toNat < e.1.toNat)
  positive : ∀ e ∈ es, e.2 ≠ 0
  fits : (es.map (fun e => e.2.toNat)).sum ≤ 2 ^ 64 - 1

/-- An archive up to the entries `es`, with `m` as its entryCount (30_encoding.md R150). -/
def archiveUpTo (m : Word) (es : List (Byte × Word)) : List Byte :=
  archiveHeader ++ varint m ++ es.flatMap (fun e => e.1 :: varint e.2)

/-- An archive of the entries `es` up to its totalBits `B` (30_encoding.md R150). -/
def archiveUpToBits (es : List (Byte × Word)) (B : Word) : List Byte :=
  archiveUpTo (toWord es.length) es ++ varint B

/-- What is wrong with the bytes `tail`, from offset `q` to the end `n` of an archive, as a varint,
and the offset a reader reports (47_archive_codec.md R323, 30_encoding.md R154): the archive ends
before a byte without the continuation flag; a last byte 0 after others; a tenth byte over 1. -/
inductive VarintFault (q n : Nat) (tail : List Byte) : Nat → Prop where
  | cutShort : tail.length ≤ 9 → (∀ b ∈ tail, 0x80 ≤ b.toNat) → VarintFault q n tail n
  | notMinimal (flagged rest : List Byte) : tail = flagged ++ 0x00 :: rest → 1 ≤ flagged.length →
      flagged.length ≤ 9 → (∀ b ∈ flagged, 0x80 ≤ b.toNat) → VarintFault q n tail q
  | tooLarge (flagged rest : List Byte) (b : Byte) : tail = flagged ++ b :: rest →
      flagged.length = 9 → (∀ c ∈ flagged, 0x80 ≤ c.toNat) → 0x01 < b.toNat → VarintFault q n tail q

/-- `ArchiveFault cap A code info`: the first thing wrong with the byte string `A` as an archive, for
a bit capacity `cap`, is an error with this ERRCODE and ERRINFO. One constructor per `raise` of
47_archive_codec.md R323, in its order; what stands before the fault is in order. -/
inductive ArchiveFault (cap : Nat) (A : List Byte) : BitVec 4 → Nat → Prop where
  /-- A header byte is wrong or missing. -/
  | header (k : Nat) : k < 5 → (∀ j, j < k → A[j]? = archiveHeader[j]?) →
      A[k]? ≠ archiveHeader[k]? → ArchiveFault cap A 1 k
  /-- entryCount is no varint. -/
  | entryCountVarint (tail : List Byte) (info : Nat) : A = archiveHeader ++ tail →
      VarintFault 5 A.length tail info → ArchiveFault cap A 1 info
  /-- entryCount is over 256. -/
  | entryCountTooLarge (m : Word) (rest : List Byte) : A = archiveUpTo m [] ++ rest →
      256 < m.toNat → ArchiveFault cap A 1 5
  /-- The archive ends before an entry. -/
  | entryMissing (m : Word) (es : List (Byte × Word)) : A = archiveUpTo m es → GoodEntries es →
      es.length < m.toNat → m.toNat ≤ 256 → ArchiveFault cap A 1 A.length
  /-- An entry's byte value is that of an entry before it, or less. -/
  | entryOutOfOrder (m : Word) (es : List (Byte × Word)) (v : Byte) (rest : List Byte) :
      A = archiveUpTo m es ++ v :: rest → GoodEntries es → es.length < m.toNat → m.toNat ≤ 256 →
      (∃ e ∈ es, v.toNat ≤ e.1.toNat) → ArchiveFault cap A 1 (archiveUpTo m es).length
  /-- An entry's count is no varint. -/
  | countVarint (m : Word) (es : List (Byte × Word)) (v : Byte) (tail : List Byte) (info : Nat) :
      A = archiveUpTo m es ++ v :: tail → GoodEntries es → es.length < m.toNat → m.toNat ≤ 256 →
      (∀ e ∈ es, e.1.toNat < v.toNat) →
      VarintFault ((archiveUpTo m es).length + 1) A.length tail info → ArchiveFault cap A 1 info
  /-- An entry's count is 0. -/
  | countZero (m : Word) (es : List (Byte × Word)) (v : Byte) (rest : List Byte) :
      A = archiveUpTo m es ++ v :: 0x00 :: rest → GoodEntries es → es.length < m.toNat →
      m.toNat ≤ 256 → (∀ e ∈ es, e.1.toNat < v.toNat) →
      ArchiveFault cap A 1 ((archiveUpTo m es).length + 1)
  /-- The counts sum to more than 2^64 - 1. -/
  | countSumTooLarge (m : Word) (es : List (Byte × Word)) (v : Byte) (c : Word) (rest : List Byte) :
      A = archiveUpTo m es ++ v :: (varint c ++ rest) → GoodEntries es → es.length < m.toNat →
      m.toNat ≤ 256 → (∀ e ∈ es, e.1.toNat < v.toNat) →
      2 ^ 64 - 1 < (es.map (fun e => e.2.toNat)).sum + c.toNat →
      ArchiveFault cap A 1 ((archiveUpTo m es).length + 1)
  /-- totalBits is no varint. -/
  | totalBitsVarint (es : List (Byte × Word)) (tail : List Byte) (info : Nat) :
      A = archiveUpTo (toWord es.length) es ++ tail → GoodEntries es →
      VarintFault (archiveUpTo (toWord es.length) es).length A.length tail info →
      ArchiveFault cap A 1 info
  /-- totalBits is over the capacity, whatever follows: CAPACITY_ERROR. -/
  | overCapacity (es : List (Byte × Word)) (B : Word) (rest : List Byte) :
      A = archiveUpToBits es B ++ rest → GoodEntries es → cap < B.toNat →
      ArchiveFault cap A 7 B.toNat
  /-- The payload is cut short. -/
  | payloadShort (es : List (Byte × Word)) (B : Word) (payload : List Byte) :
      A = archiveUpToBits es B ++ payload → GoodEntries es → B.toNat ≤ cap →
      payload.length < (B.toNat + 7) / 8 → ArchiveFault cap A 1 A.length
  /-- A padding bit of the last payload byte is 1. -/
  | paddingNotZero (es : List (Byte × Word)) (B : Word) (rest : List Byte) (j : Nat) :
      A = archiveUpToBits es B ++ rest → GoodEntries es → B.toNat ≤ cap →
      (B.toNat + 7) / 8 ≤ rest.length → B.toNat ≤ j → j < 8 * ((B.toNat + 7) / 8) →
      (rest.getD (j / 8) 0).getLsbD (7 - j % 8) = true →
      ArchiveFault cap A 1 ((archiveUpToBits es B).length + (B.toNat + 7) / 8 - 1)
  /-- Bytes follow the payload. -/
  | trailingBytes (es : List (Byte × Word)) (B : Word) (rest : List Byte) :
      A = archiveUpToBits es B ++ rest → GoodEntries es → B.toNat ≤ cap →
      (B.toNat + 7) / 8 < rest.length →
      (∀ j, B.toNat ≤ j → j < 8 * ((B.toNat + 7) / 8) →
        (rest.getD (j / 8) 0).getLsbD (7 - j % 8) = false) →
      ArchiveFault cap A 1 ((archiveUpToBits es B).length + (B.toNat + 7) / 8)

end Sys2Proof.Machine
end

