-- ==== Sys2Proof/Certificates/Slice0/Obligations.lean ====
section
/-! DEFINITION. The statements for the provers, from the numbered rules of spec/. Each docstring
names the rules it formalises, and the log entry where the model chose something. -/

open Sys2Proof Sys2Proof.Machine

/-! ### Encoding -/

/-- 30_encoding.md R141: a word selects a command exactly when w[63:8] = 0 and w[7:0] is listed, by
the opcode map of that rule. -/
def Obligations.WordSelectsACommandExactlyWhenListed : Prop :=
  ∀ (w : Word) (i : Instr), decodeWord w = .ok i ↔
    (w.extractLsb' 8 56 = 0 ∧
      (w.extractLsb' 0 8, i) ∈
        [(0x00#8, Instr.nop), (0x01#8, .analyze), (0x02#8, .buildTree), (0x03#8, .buildMap),
         (0x04#8, .bsClear), (0x05#8, .bsAppend), (0x06#8, .bsBitat), (0x07#8, .encode),
         (0x08#8, .decode), (0x09#8, .serialize), (0x0A#8, .deserialize), (0x10#8, .compress),
         (0x11#8, .decompress), (0x1F#8, .softReset)])

/-- 30_encoding.md R140, R141, 20_memory.md R103: decoding and encoding agree on byte strings. The
bytes of a command decode to it, whatever follows, and nothing else does. -/
def Obligations.DecodeAndEncodeAgree : Prop :=
  ∀ (bs : List Byte) (i : Instr) (rest : List Byte),
    decodeBytes bs = .ok (i, rest) ↔ bs = wordBytes (encodeWord i) ++ rest

/-- 30_encoding.md R141, R143: a few words written out from the opcode map (sanity). -/
def Obligations.SampleWordsDecodeAsListed : Prop :=
  decodeWord 0x0000000000000000#64 = .ok .nop ∧
  decodeWord 0x0000000000000001#64 = .ok .analyze ∧
  decodeWord 0x0000000000000002#64 = .ok .buildTree ∧
  decodeWord 0x0000000000000003#64 = .ok .buildMap ∧
  decodeWord 0x0000000000000005#64 = .ok .bsAppend ∧
  decodeWord 0x0000000000000007#64 = .ok .encode ∧
  decodeWord 0x0000000000000008#64 = .ok .decode ∧
  decodeWord 0x000000000000000A#64 = .ok .deserialize ∧
  decodeWord 0x0000000000000010#64 = .ok .compress ∧
  decodeWord 0x000000000000001F#64 = .ok .softReset ∧
  decodeWord 0x000000000000000B#64 = .error (.unlistedOpcode 0x0B) ∧
  decodeWord 0x0000000000000101#64 = .error (.reservedBits 0x101)

/-! ### Steps -/

/-- 48_control_and_composite.md R361: when the running word decodes to a command, the core's step is
`exec` of that command, whether the schedule gives the core its turn (that turn is used up) or holds
nothing more (the schedule is the model's own, assumption 2). An idle core's step changes nothing
(60_exceptions.md R419, 70_reset_and_hazards.md R450). -/
def Obligations.StepRunsTheDecodedCommand : Prop :=
  (∀ (s : State) (w : Word) (i : Instr), s.seq = .running w → decodeWord w = .ok i →
    (s.turns = [] → step s = exec i s) ∧
    (∀ ts, s.turns = .core :: ts → step s = exec i { s with turns := ts })) ∧
  (∀ s : State, s.seq = .idle →
    (s.turns = [] → step s = .next s) ∧
    (∀ ts, s.turns = .core :: ts → step s = .next { s with turns := ts }))

/-- 48_control_and_composite.md R360: issue. -/
def Obligations.CmdWriteIssuesTheCommand : Prop :=
  ∀ (s : State) (w : Word) (ts : List Turn), s.busy = false → s.turns = .write 0x08 8 w :: ts →
    ∃ t, step s = .next t ∧
      t = { s with
            turns := ts, seq := .running w, done := false, err := false, ovr := false,
            errCode := 0, lastOpc := w.extractLsb' 0 8, errInfo := 0 } ∧
      t.busy = true ∧ t.irq = false

/-- 48_control_and_composite.md R362: overrun, and what clears OVR. -/
def Obligations.CmdWriteWhileBusyIsDropped : Prop :=
  (∀ (s : State) (w : Word) (ts : List Turn), s.busy = true → s.turns = .write 0x08 8 w :: ts →
    step s = .next { s with turns := ts, ovr := true }) ∧
  (∀ (s : State) (w : Word) (ts : List Turn), s.busy = false → s.turns = .write 0x08 8 w :: ts →
    ∃ t, step s = .next t ∧ t.ovr = false) ∧
  (∀ (s : State) (v : Word) (ts : List Turn), v.getLsbD 3 = true →
    s.turns = .write 0x10 8 v :: ts → ∃ t, step s = .next t ∧ t.ovr = false) ∧
  (∀ (s : State) (ts : List Turn), s.turns = .hardReset :: ts →
    ∃ t, step s = .next t ∧ t.ovr = false) ∧
  (∀ s : State, ∃ t, exec .softReset s = .next t ∧ t.ovr = false)

/-- 48_control_and_composite.md R355: an illegal word is issued like any command and completes with
ILLEGAL_COMMAND, ERRINFO the whole word, and no other change: from its issue with the completion
next, and in every state in which it runs, whatever happened since the issue. -/
def Obligations.IllegalWordEndsInIllegalCommand : Prop :=
  ∀ (s : State) (w : Word), (∀ i, decodeWord w ≠ .ok i) →
    (∀ ts, s.busy = false → s.turns = .write 0x08 8 w :: .core :: ts →
      ∃ t u, step s = .next t ∧ t.seq = .running w ∧ step t = .next u ∧
        u = { s with
              turns := ts, seq := .idle, done := false, err := true, ovr := false, errCode := 4,
              lastOpc := w.extractLsb' 0 8, errInfo := w, draws := u.draws }) ∧
    (s.seq = .running w → s.turns = [] →
      ∃ u, step s = .next u ∧
        u = { s with
              seq := .idle, done := false, err := true, errCode := 4, errInfo := w,
              draws := u.draws }) ∧
    (∀ ts, s.seq = .running w → s.turns = .core :: ts →
      ∃ u, step s = .next u ∧
        u = { s with
              turns := ts, seq := .idle, done := false, err := true, errCode := 4, errInfo := w,
              draws := u.draws })

/-- 60_exceptions.md R411, R413, 70_reset_and_hazards.md R461: a step faults exactly when the next
turn is a host access that is one of the two model faults of the host, and no step is refused. Where
the rules leave it open, which accesses fault is the model's choice: one that starts unmapped and runs
into a region does, and one that passes 2^32 does not for the bytes it would wrap to (assumption 5);
an inadmissible write that is a hazard too is HostAccessFault (assumption 12); a width other than 1,
2, 4 or 8 is admitted by no region and harmless outside them (assumption 13). -/
def Obligations.OnlyHostAccessesFault : Prop :=
  ∀ (s : State) (f : Fault),
    (step s = .fault f ↔
      ∃ t ts, s.turns = t :: ts ∧ turnFault { s with turns := ts } t = some f) ∧
    (∀ r, step s ≠ .refused r)

/-- 48_control_and_composite.md R350, R356, R361, 60_exceptions.md R406: every command ends, in every
state: no command faults or is refused, the core is idle again, and exactly one of DONE and ERR is
set, with no error code under DONE, and a code of 1 to 7 and a cleared destination set under ERR. -/
def Obligations.EveryCommandEnds : Prop :=
  ∀ (i : Instr) (s : State), ∃ t, exec i s = .next t ∧ t.seq = .idle ∧ t.busy = false ∧
    ((t.done = true ∧ t.err = false ∧ t.errCode = 0 ∧ t.errInfo = 0) ∨
      (t.done = false ∧ t.err = true ∧ 1 ≤ t.errCode.toNat ∧ t.errCode.toNat ≤ 7 ∧
        Cleared (dest i) t))

/-- FRAME of all commands but SOFT_RESET (48_control_and_composite.md R350, R361): a command, ended
with or without error, changes only the members of its destination set, written out here from R350's
table, and the completion record. Every other register, flag and byte of memory is as before; IBUF is
never changed. -/
def Obligations.CommandsKeepWhatTheyDoNotWrite : Prop :=
  ∀ (i : Instr) (ds : List DestMember) (s t : State),
    (i, ds) ∈
      [(Instr.nop, []), (.analyze, [.ftab, .tree, .map]), (.buildTree, [.tree, .map]),
       (.buildMap, [.map]), (.bsClear, [.bitseq]), (.bsAppend, [.bitseq]), (.encode, [.bitseq]),
       (.bsBitat, [.result]), (.decode, [.obuf]), (.serialize, [.obuf]),
       (.deserialize, [.ftab, .tree, .map, .bitseq]),
       (.compress, [.ftab, .tree, .map, .bitseq, .obuf]),
       (.decompress, [.ftab, .tree, .map, .bitseq, .obuf])] →
    exec i s = .next t → KeepsOutside ds s t

/-! ### The invariant -/

/-- 10_state.md R53, R51, R34: reset, with any legal parameters, meets the invariant. -/
def Obligations.ResetMeetsTheInvariant : Prop :=
  (∀ p : Params, p.wellFormed = true → (State.resetWith p).Inv) ∧ State.reset.Inv

/-- 10_state.md R34, R39, R41, R51: EVERY step keeps the invariant: tree and map are current or
absent, TOTAL fits, bits and output are within capacity, memory is canonical and inside the buffers,
status bits agree. -/
def Obligations.EveryStepKeepsTheInvariant : Prop :=
  ∀ s t : State, s.Inv → step s = .next t → t.Inv

/-- 48_control_and_composite.md R361: completion is the only step that changes FTAB, TREE, MAP,
BITSEQ, OBUF, OLEN, RESULT, or sets DONE or ERR, other than reset. A host read or write leaves them
all. -/
def Obligations.HostAccessesLeaveResultsAlone : Prop :=
  ∀ (s t : State) (a : Addr) (n : Nat) (v : Word) (ts : List Turn),
    (s.turns = .read a n :: ts ∨ s.turns = .write a n v :: ts) → s.params.wellFormed = true →
    step s = .next t →
    t.params = s.params ∧ t.ftab = s.ftab ∧ t.tree = s.tree ∧ t.treeValid = s.treeValid ∧
    t.map = s.map ∧ t.mapValid = s.mapValid ∧ t.bits = s.bits ∧ t.olen = s.olen ∧
    t.result = s.result ∧
    (∀ k, Config.obufBase ≤ k → Mem.get? t.mem k = Mem.get? s.mem k) ∧
    (t.done = true → s.done = true) ∧ (t.err = true → s.err = true)

/-- 20_memory.md R109: reads have no side effect: nothing of the block changes (the value read and
the draw counter are the model's own, assumptions 1 and 3). -/
def Obligations.ReadsHaveNoSideEffect : Prop :=
  ∀ (s t : State) (a : Addr) (n : Nat) (ts : List Turn), s.turns = .read a n :: ts →
    step s = .next t →
    t = { s with turns := ts, rdata := t.rdata, draws := t.draws }

/-! ### Registers and windows -/

/-- 10_state.md R34: the fields of the STATUS word; every other bit is 0. -/
def Obligations.StatusWordLayout : Prop :=
  ∀ s : State,
    s.statusWord.getLsbD 0 = s.busy ∧ s.statusWord.getLsbD 1 = s.done ∧
    s.statusWord.getLsbD 2 = s.err ∧ s.statusWord.getLsbD 3 = s.ovr ∧
    s.statusWord.extractLsb' 4 4 = 0 ∧ s.statusWord.extractLsb' 8 4 = s.errCode ∧
    s.statusWord.extractLsb' 12 4 = 0 ∧ s.statusWord.extractLsb' 16 8 = s.lastOpc ∧
    s.statusWord.extractLsb' 24 40 = 0

/-- 10_state.md R34, 60_exceptions.md R407: a host write to STATUS clears DONE, OVR and ERR (with
ERRCODE and ERRINFO) by ones, busy or not, and nothing else. -/
def Obligations.StatusWriteClearsByOnes : Prop :=
  ∀ (s : State) (v : Word) (ts : List Turn), s.turns = .write 0x10 8 v :: ts →
    step s = .next { s with
      turns := ts
      done := s.done && !v.getLsbD 1
      err := s.err && !v.getLsbD 2
      ovr := s.ovr && !v.getLsbD 3
      errCode := if v.getLsbD 2 then 0 else s.errCode
      errInfo := if v.getLsbD 2 then 0 else s.errInfo }

/-- 10_state.md R36: IRQEN, written and read back busy or not: bit 0 is DONE_IE, bit 1 ERR_IE, the
other bits are ignored and read 0; reset value 0. -/
def Obligations.IrqenKeepsItsTwoBits : Prop :=
  (∀ (s : State) (v : Word) (ts : List Turn), s.turns = .write 0x20 8 v :: .read 0x20 8 :: ts →
    ∃ t u, step s = .next t ∧
      t = { s with
            turns := .read 0x20 8 :: ts, doneIe := v.getLsbD 0, errIe := v.getLsbD 1 } ∧
      step t = .next u ∧ u.rdata = v &&& 3) ∧
  (∀ p : Params, (State.resetWith p).irqenWord = 0)

/-- 60_exceptions.md R408, 10_state.md R52: `irq` is (STATUS.DONE and IRQEN.DONE_IE) or (STATUS.ERR
and IRQEN.ERR_IE) in every state; after a completion it is the enable of the way the command ended;
the next issue makes it fall, a write to STATUS that clears whichever of DONE and ERR is set does,
and so does a write to IRQEN that clears the enable of whichever is set. -/
def Obligations.InterruptFollowsCompletion : Prop :=
  (∀ s : State, s.irq =
    ((s.statusWord.getLsbD 1 && s.irqenWord.getLsbD 0) ||
      (s.statusWord.getLsbD 2 && s.irqenWord.getLsbD 1))) ∧
  (∀ (i : Instr) (s t : State), exec i s = .next t →
    t.irq = if t.err then t.errIe else t.doneIe) ∧
  (∀ (s : State) (w : Word) (ts : List Turn), s.busy = false → s.turns = .write 0x08 8 w :: ts →
    ∃ t, step s = .next t ∧ t.irq = false) ∧
  (∀ (s : State) (v : Word) (ts : List Turn), s.turns = .write 0x10 8 v :: ts →
    ∃ t, step s = .next t ∧
      t.irq = ((s.done && !v.getLsbD 1 && s.doneIe) || (s.err && !v.getLsbD 2 && s.errIe)) ∧
      ((s.done = false ∨ v.getLsbD 1 = true) → (s.err = false ∨ v.getLsbD 2 = true) →
        t.irq = false)) ∧
  (∀ (s : State) (v : Word) (ts : List Turn), s.turns = .write 0x20 8 v :: ts →
    ∃ t, step s = .next t ∧
      t.irq = ((s.done && v.getLsbD 0) || (s.err && v.getLsbD 1)) ∧
      ((s.done = false ∨ v.getLsbD 0 = false) → (s.err = false ∨ v.getLsbD 1 = false) →
        t.irq = false))

/-- 10_state.md R31 to R44: what an 8-byte host read of each control register returns while no
command runs. -/
def Obligations.ControlRegistersReadTheirState : Prop :=
  ∀ (s : State) (off : Addr) (val : Word) (ts : List Turn), s.busy = false →
    (off, val) ∈
      [(0x00#32, 0x000001015A465548#64), (0x08#32, 0), (0x10#32, s.statusWord),
       (0x18#32, s.errInfo), (0x20#32, s.irqenWord), (0x28#32, s.arg0), (0x30#32, s.arg1),
       (0x38#32, s.result), (0x40#32, s.ilen), (0x48#32, s.olen),
       (0x50#32, toWord s.bits.length), (0x58#32, toWord (tableSum s.ftab)),
       (0x60#32, toWord (tableEntries s.ftab).length),
       (0x68#32, toWord (s.treeValid.toNat + 2 * s.mapValid.toNat)),
       (0x70#32, toWord (treeNodes s.tree)), (0x78#32, toWord (longestCode s.map)),
       (0x80#32, toWord s.params.ibufSize), (0x88#32, toWord s.params.obufSize),
       (0x90#32, toWord s.params.bsCapBits)] →
    s.turns = .read off 8 :: ts →
    ∃ t, step s = .next t ∧ t = { s with turns := ts, rdata := val, draws := t.draws }

/-- 10_state.md R32, R44: ID and the capacities read the same at all times, a command running or
not, and writes to them are ignored. -/
def Obligations.IdentityAndCapacitiesAreConstant : Prop :=
  ∀ (s : State) (off : Addr) (val v : Word) (ts : List Turn),
    (off, val) ∈
      [(0x00#32, 0x000001015A465548#64), (0x80#32, toWord s.params.ibufSize),
       (0x88#32, toWord s.params.obufSize), (0x90#32, toWord s.params.bsCapBits)] →
    (s.turns = .read off 8 :: ts →
      ∃ t, step s = .next t ∧ t = { s with turns := ts, rdata := val, draws := t.draws }) ∧
    (s.turns = .write off 8 v :: ts → step s = .next { s with turns := ts })

/-- 10_state.md R37, R39: ARG0, ARG1 and ILEN take every value a host writes while no command
runs. -/
def Obligations.OperandRegistersTakeEveryValue : Prop :=
  ∀ (s : State) (v : Word) (ts : List Turn), s.busy = false →
    (s.turns = .write 0x28 8 v :: ts → step s = .next { s with turns := ts, arg0 := v }) ∧
    (s.turns = .write 0x30 8 v :: ts → step s = .next { s with turns := ts, arg1 := v }) ∧
    (s.turns = .write 0x40 8 v :: ts → step s = .next { s with turns := ts, ilen := v })

/-- 10_state.md R45: the reserved offsets read 0 and ignore writes, and so do the reserved bits of
STATUS and IRQEN. -/
def Obligations.ReservedOffsetsAndBitsReadZero : Prop :=
  (∀ (s : State) (a : Addr) (v : Word) (ts : List Turn), 0x98 ≤ a.toNat → a.toNat ≤ 0xF8 →
    a.toNat % 8 = 0 →
    (s.turns = .read a 8 :: ts →
      ∃ t, step s = .next t ∧ t = { s with turns := ts, rdata := 0, draws := t.draws }) ∧
    (s.turns = .write a 8 v :: ts → step s = .next { s with turns := ts })) ∧
  (∀ s : State, s.statusWord &&& 0xFFFFFFFFFF00F0F0 = 0 ∧ s.irqenWord &&& 0xFFFFFFFFFFFFFFFC = 0) ∧
  (∀ (s : State) (v : Word), s.writeStatus v = s.writeStatus (v &&& 0xE) ∧
    s.writeIrqen v = s.writeIrqen (v &&& 3))

/-- 60_exceptions.md R413, 20_memory.md R102: a read or write that starts in a mapped region with a
width or alignment the region does not admit is the fault HostAccessFault with its address and
width, busy or not. The widths and alignments are written out from R102. -/
def Obligations.InadmissibleAccessFaults : Prop :=
  ∀ (s : State) (row : RegionRow) (a : Addr) (n : Nat) (v : Word) (ts : List Turn),
    s.params.wellFormed = true → row ∈ memoryMap s.params →
    row.base ≤ a.toNat → a.toNat < row.base + row.size →
    ¬ ((n = 8 ∧ a.toNat % 8 = 0) ∨
        (row.region ∈ [Region.mapcodew, .bssw, .ibuf, .obuf] ∧ n ∈ [1, 2, 4] ∧
          a.toNat % n = 0)) →
    (s.turns = .read a n :: ts → step s = .fault (.hostAccessFault a n)) ∧
    (s.turns = .write a n v :: ts → step s = .fault (.hostAccessFault a n))

/-- 20_memory.md R104: writes to read-only registers and regions are ignored, reads of CMD return 0,
and an access that touches no mapped byte reads 0 or is ignored, for any width and alignment. Which
bytes an access touches is the model's choice where it passes 2^32: they are counted without wrapping
(assumption 5). -/
def Obligations.ReadOnlyAndUnmappedAccesses : Prop :=
  ∀ (s : State) (a : Addr) (n : Nat) (v : Word) (ts : List Turn), s.params.wellFormed = true →
    (∀ off ∈ [0x00#32, 0x18#32, 0x38#32, 0x48#32, 0x50#32, 0x58#32, 0x60#32, 0x68#32, 0x70#32,
        0x78#32, 0x80#32, 0x88#32, 0x90#32],
      s.turns = .write off 8 v :: ts → step s = .next { s with turns := ts }) ∧
    (∀ row ∈ memoryMap s.params,
      row.region ∈ [Region.ftabw, .maplenw, .mapcodew, .bssw, .obuf] →
      row.base ≤ a.toNat → a.toNat < row.base + row.size →
      regionAdmits row.region a.toNat n = true →
      s.turns = .write a n v :: ts → step s = .next { s with turns := ts }) ∧
    (s.turns = .read 0x08 8 :: ts →
      ∃ t, step s = .next t ∧ t = { s with turns := ts, rdata := 0, draws := t.draws }) ∧
    ((∀ row ∈ memoryMap s.params, ¬ (a.toNat < row.base + row.size ∧ row.base < a.toNat + max n 1)) →
      (s.turns = .read a n :: ts →
        ∃ t, step s = .next t ∧ t = { s with turns := ts, rdata := 0, draws := t.draws }) ∧
      (s.turns = .write a n v :: ts → step s = .next { s with turns := ts }))

/-- 20_memory.md R102, R103, R109: every access its region admits is performed, a command running or
not: an n-byte read of a mapped region returns the value whose byte k is the byte found at address
a + k, and no byte more, and changes nothing of the block (the value read and the draw counter are
the model's own, assumptions 1 and 3); a 1-byte read of a + k returns the same byte. Writing IBUF is
little-endian too. -/
def Obligations.HostAccessesAreLittleEndian : Prop :=
  (∀ (s : State) (row : RegionRow) (a : Addr) (n : Nat) (ts : List Turn),
    s.params.wellFormed = true → row ∈ memoryMap s.params → row.base ≤ a.toNat →
    a.toNat < row.base + row.size →
    ((n = 8 ∧ a.toNat % 8 = 0) ∨
      (row.region ∈ [Region.mapcodew, .bssw, .ibuf, .obuf] ∧ n ∈ [1, 2, 4] ∧ a.toNat % n = 0)) →
    s.turns = .read a n :: ts →
    ∃ t, step s = .next t ∧ t = { s with turns := ts, rdata := t.rdata, draws := t.draws } ∧
      t.rdata = s.hostValue a.toNat n ∧
      (∀ k, k < n → t.rdata.extractLsb' (8 * k) 8 = s.hostByte (a.toNat + k)) ∧
      (∀ k, n ≤ k → t.rdata.extractLsb' (8 * k) 8 = 0)) ∧
  (∀ (s : State) (a n k : Nat), n ∈ [1, 2, 4, 8] → k < n →
    (s.hostValue a n).extractLsb' (8 * k) 8 = s.hostByte (a + k) ∧
    s.hostValue (a + k) 1 = (s.hostByte (a + k)).zeroExtend 64) ∧
  (∀ (s : State) (a : Addr) (n : Nat) (v : Word) (ts : List Turn), s.params.wellFormed = true →
    s.busy = false → n ∈ [1, 2, 4, 8] → a.toNat % n = 0 → Config.ibufBase ≤ a.toNat →
    a.toNat < Config.ibufBase + s.params.ibufSize → s.turns = .write a n v :: ts →
    ∃ t, step s = .next t ∧
      (∀ k, k < n → t.hostByte (a.toNat + k) = v.extractLsb' (8 * k) 8) ∧
      (∀ b, ¬ (a.toNat ≤ b ∧ b < a.toNat + n) → Mem.get? t.mem b = Mem.get? s.mem b) ∧
      t = { s with turns := ts, mem := t.mem })

/-- 70_reset_and_hazards.md R461: while a command runs a host write to IBUF, ILEN, ARG0 or ARG1 is
the fault HostHazard; writes to IRQEN and STATUS are allowed. -/
def Obligations.WritesToInputsWhileBusyAreHazards : Prop :=
  ∀ (s : State) (a : Addr) (n : Nat) (v : Word) (ts : List Turn), s.params.wellFormed = true →
    s.busy = true →
    (∀ off ∈ [0x28#32, 0x30#32, 0x40#32], s.turns = .write off 8 v :: ts →
      step s = .fault (.hostHazard off)) ∧
    (n ∈ [1, 2, 4, 8] → a.toNat % n = 0 → Config.ibufBase ≤ a.toNat →
      a.toNat < Config.ibufBase + s.params.ibufSize → s.turns = .write a n v :: ts →
      step s = .fault (.hostHazard a)) ∧
    (∀ off ∈ [0x10#32, 0x20#32], s.turns = .write off 8 v :: ts → ∃ t, step s = .next t)

/-- 70_reset_and_hazards.md R462: while a command runs a read of a result register or window, or of
OBUF, finds a draw in every byte (whatever its value, assumption 1), and ID, STATUS, IRQEN, ARG0,
ARG1, ILEN, the capacities and IBUF their defined values. -/
def Obligations.ReadsOfResultsWhileBusyAreDraws : Prop :=
  ∀ (s : State) (a : Nat), s.params.wellFormed = true → s.busy = true →
    ((0x18 ≤ a ∧ a < 0x20) ∨ (0x38 ≤ a ∧ a < 0x40) ∨ (0x48 ≤ a ∧ a < 0x80) ∨
      (Config.ftabBase ≤ a ∧ a < Config.ftabBase + 0x800) ∨
      (Config.mapLenBase ≤ a ∧ a < Config.mapLenBase + 0x800) ∨
      (Config.mapCodeBase ≤ a ∧ a < Config.mapCodeBase + 0x2000) ∨
      (Config.bssBase ≤ a ∧ a < Config.bssBase + s.params.bsCapBits / 8) ∨
      (Config.obufBase ≤ a ∧ a < Config.obufBase + s.params.obufSize) →
      s.hostByte a = Config.freeByte s.draws a) ∧
    (∀ off val, (off, val) ∈
        [(0x00, 0x000001015A465548#64), (0x10, s.statusWord), (0x20, s.irqenWord),
         (0x28, s.arg0), (0x30, s.arg1), (0x40, s.ilen), (0x80, toWord s.params.ibufSize),
         (0x88, toWord s.params.obufSize), (0x90, toWord s.params.bsCapBits)] →
      s.hostValue off 8 = val) ∧
    (∀ k, k < s.params.ibufSize →
      s.hostByte (Config.ibufBase + k) = s.memRead (Config.ibufBase + k))

/-- 20_memory.md R105 to R107, R101, 30_encoding.md R160, R161: what a host read finds in the buffers
and windows while no command runs: IBUF the byte the core reads too; OBUF and BSSW their specified
bytes below OLEN and ceil(BITLEN / 8), draws beyond; the register files entry by entry. -/
def Obligations.WindowsShowTheState : Prop :=
  ∀ s : State, s.params.wellFormed = true → s.busy = false →
    (∀ k, k < s.params.ibufSize →
      s.hostByte (Config.ibufBase + k) = s.memRead (Config.ibufBase + k)) ∧
    (∀ k, k < s.params.obufSize → s.hostByte (Config.obufBase + k) =
      if k < s.olen.toNat then s.memRead (Config.obufBase + k)
      else Config.freeByte s.draws (Config.obufBase + k)) ∧
    (∀ k j, k < s.params.bsCapBits / 8 → j < 8 →
      if 8 * k < s.bits.length then
        (s.hostByte (Config.bssBase + k)).getLsbD (7 - j) = s.bits.getD (8 * k + j) false
      else s.hostByte (Config.bssBase + k) = Config.freeByte s.draws (Config.bssBase + k)) ∧
    (∀ v : Byte, s.hostValue (Config.ftabBase + 8 * v.toNat) 8 = tableGet s.ftab v ∧
      s.hostValue (Config.mapLenBase + 8 * v.toNat) 8 = toWord (codeGet s.map v).length) ∧
    (∀ (v : Byte) (k j : Nat), k < 32 → j < 8 →
      (s.hostByte (Config.mapCodeBase + 32 * v.toNat + k)).getLsbD (7 - j) =
        (codeGet s.map v).getD (8 * k + j) false)

/-- 30_encoding.md R144: the host accesses that encode each action of a host program (sanity); `IF`
and labels make none. That host words have 64 bits and that an address is reduced modulo 2^32 are the
model's choices (assumption 21). -/
def Obligations.HostActionsAreTheirAccesses : Prop :=
  ∀ (vs : HostVars) (e k : HostExpr) (bs : List Byte) (n : Word) (i : Instr) (r : Reg) (g : Region)
      (c : HostCond) (t : String),
    accesses vs (.wr r e) = [.write (BitVec.ofNat 32 (regOffset r)) 8 (evalExpr vs e)] ∧
    accesses vs (.rd r t) = [.read (BitVec.ofNat 32 (regOffset r)) 8] ∧
    accesses vs (.cmd i) = [.write 0x08 8 (encodeWord i)] ∧
    (accesses vs (.wb k (.lit bs))).length = bs.length ∧
    (∀ j, j < bs.length → (accesses vs (.wb k (.lit bs)))[j]? =
      some (.write (BitVec.ofNat 32 (Config.ibufBase + (evalExpr vs k).toNat + j)) 1
        ((bs.getD j 0).zeroExtend 64))) ∧
    accesses vs (.rb g k (.lit n) t) = (List.range n.toNat).map
      (fun j => .read (BitVec.ofNat 32 (regionBase g + (evalExpr vs k).toNat + j)) 1) ∧
    accesses vs (.rq g k t) = [.read (BitVec.ofNat 32 (regionBase g + 8 * (evalExpr vs k).toNat)) 8] ∧
    accesses vs (.ifGoto c t) = [] ∧ accesses vs (.label t) = []

/-! ### Reset -/

/-- 10_state.md R53, 70_reset_and_hazards.md R450: a hardware reset, in any state, a command running
or not, gives every piece of state its reset value; the contents of IBUF, OBUF and the bit store are
unspecified. (The schedule, the value last read and the draw counter are the model's own.) -/
def Obligations.HardwareResetSetsEveryState : Prop :=
  ∀ (s : State) (ts : List Turn), s.turns = .hardReset :: ts →
    ∃ t, step s = .next t ∧ t.params = s.params ∧ t.seq = .idle ∧ t.statusWord = 0 ∧
      t.regValue .id = 0x000001015A465548 ∧ t.errInfo = 0 ∧ t.irqenWord = 0 ∧ t.arg0 = 0 ∧
      t.arg1 = 0 ∧ t.result = 0 ∧ t.ilen = 0 ∧ t.olen = 0 ∧ (∀ v, tableGet t.ftab v = 0) ∧ t.total = 0 ∧
      t.entries = 0 ∧ t.tree = none ∧ t.treeValid = false ∧ t.nodeCount = 0 ∧ (∀ v, codeGet t.map v = []) ∧ t.mapValid = false ∧
      t.maxLen = 0 ∧ t.bits = [] ∧ (∀ a, Mem.get? t.mem a = none) ∧ t.irq = false ∧
      t.turns = ts ∧ t.rdata = s.rdata ∧ t.draws = s.draws

/-- 48_control_and_composite.md R354, 70_reset_and_hazards.md R451: SOFT_RESET completes, in every
state, in the reset values with IBUF's contents kept, DONE = 1, LASTOPC = 0x1F and every other
STATUS field 0; it raises no interrupt. -/
def Obligations.SoftResetCompletes : Prop :=
  ∀ s : State, ∃ t, exec .softReset s = .next t ∧ t.statusWord = 0x1F0002 ∧ t.params = s.params ∧
    t.seq = .idle ∧ t.errInfo = 0 ∧ t.irqenWord = 0 ∧ t.arg0 = 0 ∧ t.arg1 = 0 ∧ t.result = 0 ∧
    t.ilen = 0 ∧ t.olen = 0 ∧ (∀ v, tableGet t.ftab v = 0) ∧ t.total = 0 ∧ t.entries = 0 ∧
    t.tree = none ∧ t.validWord = 0 ∧ t.nodeCount = 0 ∧ (∀ v, codeGet t.map v = []) ∧
    t.maxLen = 0 ∧ t.bits = [] ∧
    (∀ a, Mem.get? t.mem a = if a < Config.obufBase then Mem.get? s.mem a else none) ∧
    t.irq = false ∧ t.turns = s.turns ∧ t.rdata = s.rdata

/-- 70_reset_and_hazards.md R454: after reset BUILD_TREE works on the empty table, and BUILD_MAP,
ENCODE and DECODE fail with SEQUENCE_ERROR, as they do in every state whose TREE or MAP they need is
not valid (60_exceptions.md R404), with the command's opcode in ERRINFO. -/
def Obligations.CommandsNeedTheirInputState : Prop :=
  (∀ p : Params, ∃ t, exec .buildTree (State.resetWith p) = .next t ∧ EndsOk t ∧ t.tree = none ∧
    t.treeValid = true) ∧
  (∀ s : State, s.treeValid = false →
    ∃ t, exec .buildMap s = .next t ∧ EndsWith 5 0x03 t ∧ Cleared [.map] t) ∧
  (∀ s : State, s.mapValid = false →
    ∃ t, exec .encode s = .next t ∧ EndsWith 5 0x07 t ∧ Cleared [.bitseq] t) ∧
  (∀ s : State, s.treeValid = false →
    ∃ t, exec .decode s = .next t ∧ EndsWith 5 0x08 t ∧ Cleared [.obuf] t) ∧
  (∀ p : Params, (State.resetWith p).treeValid = false ∧ (State.resetWith p).mapValid = false)

/-! ### ANALYZE -/

/-- 10_state.md R39, 60_exceptions.md R403, R404: the commands that read input fail with RANGE_ERROR
and ERRINFO = ILEN when ILEN exceeds IBUF_SIZE (ENCODE after its MAP_VALID check). -/
def Obligations.InputLongerThanTheBufferIsARangeError : Prop :=
  ∀ (s : State) (i : Instr), s.params.ibufSize < s.ilen.toNat →
    (i ∈ [Instr.analyze, .deserialize, .compress, .decompress] ∨
      (i = .encode ∧ s.mapValid = true)) →
    ∃ t, exec i s = .next t ∧ EndsWith 6 s.ilen t ∧ Cleared (dest i) t

/-- 41_frequency_analyzer.md R201, R200: ANALYZE completes when ILEN <= IBUF_SIZE. FTAB[v] is the
number of indices i < ILEN with IBUF[i] = v, the counts sum to ILEN, the table has from 0 to 256
entries, 0 only for ILEN = 0, and TREE and MAP are invalidated. -/
def Obligations.AnalyzeCountsTheInput : Prop :=
  ∀ s : State, s.ilen.toNat ≤ s.params.ibufSize →
    ∃ t, exec .analyze s = .next t ∧ EndsOk t ∧ KeepsOutside [.ftab, .tree, .map] s t ∧
      t.ftab.length = 256 ∧
      (∀ v, (tableGet t.ftab v).toNat =
        ((List.range s.ilen.toNat).filter
          (fun k => decide (s.memRead (Config.ibufBase + k) = v))).length) ∧
      tableSum t.ftab = s.ilen.toNat ∧ t.total = s.ilen ∧
      (tableEntries t.ftab).length ≤ 256 ∧ (t.entries = 0 ↔ s.ilen = 0) ∧
      t.tree = none ∧ t.treeValid = false ∧ t.nodeCount = 0 ∧
      t.map = emptyMap ∧ t.mapValid = false ∧ t.maxLen = 0

/-- 41_frequency_analyzer.md R202: any permutation of IBUF[0..ILEN-1] gives the same FTAB. -/
def Obligations.AnalyzeIgnoresTheOrderOfItsInput : Prop :=
  ∀ s s' t t' : State, s.ilen.toNat ≤ s.params.ibufSize → s'.ilen.toNat ≤ s'.params.ibufSize →
    (s.inputBytes s.ilen.toNat).Perm (s'.inputBytes s'.ilen.toNat) →
    exec .analyze s = .next t → exec .analyze s' = .next t' → t.ftab = t'.ftab

/-! ### BUILD_TREE -/

/-- 42_tree_builder.md R220: BUILD_TREE completes in every state, with the tree of FTAB, NODECOUNT 0
for the empty table and 2 ENTRIES - 1 otherwise, and invalidates MAP. -/
def Obligations.BuildTreeCompletes : Prop :=
  ∀ s : State, ∃ t, exec .buildTree s = .next t ∧ EndsOk t ∧ KeepsOutside [.tree, .map] s t ∧
    t.tree = buildTree s.ftab ∧ t.treeValid = true ∧
    t.nodeCount.toNat = 2 * (tableEntries s.ftab).length - 1 ∧
    t.map = emptyMap ∧ t.mapValid = false ∧ t.maxLen = 0

/-- 42_tree_builder.md R221, R222, R223: the tree of a table is absent exactly for the empty table,
and otherwise THE tree the merge rule allows: one leaf per entry, and at each merge the node with the
least key (freq, minsym) first, as left child, and the next least second. -/
def Obligations.TreeIsTheOneTheMergeRuleAllows : Prop :=
  ∀ F : List Word, F.length = 256 →
    (buildTree F = none ↔ ∀ v, tableGet F v = 0) ∧
    (∀ t, buildTree F = some t ↔
      Builds ((allBytes.filter (fun v => decide (tableGet F v ≠ 0))).map
        (fun v => HuffmanNode.leaf v (tableGet F v))) t)

/-- 42_tree_builder.md R224, R226: no frequency sum of a tree wraps and the root's frequency is
TOTAL, for every table whose counts sum to at most 2^64 - 1; a tree of n leaves has 2n - 1 nodes and
depth at most n - 1 <= 255, and the tree of a table has one leaf per entry. -/
def Obligations.TreeSumsAndShape : Prop :=
  ∀ (F : List Word) (t : HuffmanNode), F.length = 256 → buildTree F = some t →
    (tableSum F ≤ 2 ^ 64 - 1 → t.SumsExact ∧ t.freq.toNat = tableSum F) ∧
    t.leaves.length = (tableEntries F).length ∧ t.nodes = 2 * t.leaves.length - 1 ∧
    t.depth ≤ t.leaves.length - 1 ∧ t.leaves.length - 1 ≤ 255 ∧ t.nodes ≤ Config.nodeCap

/-! ### BUILD_MAP -/

/-- 43_encoding_map.md R240, R241, R242: BUILD_MAP completes whenever TREE_VALID = 1, with the map
of TREE: empty for an absent tree, the code "0" for a root that is a leaf, and for an internal root
with distinct byte values the code of each leaf's byte value is its path: following its bits from the
root, 0 to the left child and 1 to the right child, reaches that leaf. -/
def Obligations.BuildMapCompletes : Prop :=
  ∀ s : State, s.treeValid = true →
    ∃ t, exec .buildMap s = .next t ∧ EndsOk t ∧ KeepsOutside [.map] s t ∧
      t.mapValid = true ∧ t.map = buildMap s.tree ∧ t.map.length = 256 ∧
      (s.tree = none → ∀ v, codeGet t.map v = []) ∧
      (∀ v f, s.tree = some (.leaf v f) →
        codeGet t.map v = [false] ∧ (∀ u, u ≠ v → codeGet t.map u = []) ∧ t.maxLen = 1) ∧
      (∀ f l r, s.tree = some (.internal f l r) →
        (HuffmanNode.internal f l r).symbols.Nodup →
        ∀ v c, c ≠ [] →
          (codeGet t.map v = c ↔
            ∃ w, (HuffmanNode.internal f l r).follow c = some (.leaf v w)) ∧
          (codeGet t.map v = c ↔ (v, c) ∈ (HuffmanNode.internal f l r).paths []))

/-- 43_encoding_map.md R244: (a) exactly the byte values with a positive count have a code; (b) for
an internal root no code is a prefix of another; (c) the Kraft sum is 1 (as a sum over 2^255);
(d) MAXLEN is at most max(1, ENTRIES - 1). -/
def Obligations.MapIsACompletePrefixCode : Prop :=
  ∀ (F : List Word) (M : List Code), F.length = 256 → M = buildMap (buildTree F) →
    (∀ v, 0 < (codeGet M v).length ↔ 0 < (tableGet F v).toNat) ∧
    (∀ f l r, buildTree F = some (.internal f l r) →
      PrefixFree M ∧
      ((allBytes.filter (fun v => decide (codeGet M v ≠ []))).map
        (fun v => 2 ^ (255 - (codeGet M v).length))).sum = 2 ^ 255) ∧
    longestCode M ≤ max 1 ((tableEntries F).length - 1)

/-! ### Bit sequence -/

/-- 44_bit_sequence.md R264: BS_CLEAR completes in every state and makes BITSEQ empty. -/
def Obligations.BsClearEmptiesTheSequence : Prop :=
  ∀ s : State, ∃ t, exec .bsClear s = .next t ∧ EndsOk t ∧ KeepsOutside [.bitseq] s t ∧
    t.bits = [] ∧ t.bitLen = 0

/-- 44_bit_sequence.md R265, R263: BS_APPEND appends bits n-1 to 0 of ARG1, n = ARG0, in that order;
n > 64 is a RANGE_ERROR and a sequence over BS_CAP_BITS a CAPACITY_ERROR, checked in that order. -/
def Obligations.BsAppendAppendsThePattern : Prop :=
  ∀ s : State,
    (s.arg0.toNat ≤ 64 → s.bits.length + s.arg0.toNat ≤ s.params.bsCapBits →
      ∃ t, exec .bsAppend s = .next t ∧ EndsOk t ∧ KeepsOutside [.bitseq] s t ∧
        t.bits.length = s.bits.length + s.arg0.toNat ∧
        (∀ i, i < s.bits.length → t.bits.getD i false = s.bits.getD i false) ∧
        (∀ j, j < s.arg0.toNat →
          t.bits.getD (s.bits.length + j) false = s.arg1.getLsbD (s.arg0.toNat - 1 - j))) ∧
    (64 < s.arg0.toNat →
      ∃ t, exec .bsAppend s = .next t ∧ EndsWith 6 s.arg0 t ∧ t.bits = []) ∧
    (s.arg0.toNat ≤ 64 → s.params.bsCapBits < s.bits.length + s.arg0.toNat →
      ∃ t, exec .bsAppend s = .next t ∧
        EndsWith 7 (toWord (s.bits.length + s.arg0.toNat)) t ∧ t.bits = [])

/-- 44_bit_sequence.md R266: BS_BITAT reads the bit with index ARG0 into RESULT, zero-extended, and
an index at or past BITLEN is a RANGE_ERROR that leaves RESULT = 0; BITSEQ does not change. -/
def Obligations.BsBitatReadsTheBit : Prop :=
  ∀ s : State,
    (s.arg0.toNat < s.bits.length →
      ∃ t, exec .bsBitat s = .next t ∧ EndsOk t ∧ KeepsOutside [.result] s t ∧
        t.result = if s.bits.getD s.arg0.toNat false then 1 else 0) ∧
    (s.bits.length ≤ s.arg0.toNat →
      ∃ t, exec .bsBitat s = .next t ∧ EndsWith 6 s.arg0 t ∧ t.result = 0 ∧
        KeepsOutside [.result] s t)

/-- 30_encoding.md R160, 44_bit_sequence.md R260, R261: bit i of BITSEQ is bit (7 - i mod 8) of
storage byte (i div 8); appending a bit writes a whole new byte `b << 7` when i mod 8 = 0, sets its
own bit and no other otherwise, and changes no other byte. -/
def Obligations.BitStorePacking : Prop :=
  (∀ (bits : List Bool) (i : Nat), i < bits.length →
    (storeByte bits (i / 8)).getLsbD (7 - i % 8) = bitAt bits i) ∧
  (∀ (bits : List Bool) (b : Bool),
    storeByte (bits ++ [b]) (bits.length / 8) =
      (if bits.length % 8 = 0 then (if b then 0x80 else 0)
       else storeByte bits (bits.length / 8) |||
        (if b then 1#8 <<< (7 - bits.length % 8) else 0)) ∧
    (∀ k, k ≠ bits.length / 8 → storeByte (bits ++ [b]) k = storeByte bits k))

/-! ### ENCODE and DECODE -/

/-- 45_encoder.md R280: ENCODE completes when MAP_VALID = 1, ILEN <= IBUF_SIZE, every input byte has
a code and the codes fit in BS_CAP_BITS; BITSEQ becomes their concatenation, restarted from empty. -/
def Obligations.EncodeConcatenatesTheCodes : Prop :=
  ∀ s : State, s.mapValid = true → s.ilen.toNat ≤ s.params.ibufSize →
    (∀ b ∈ s.inputBytes s.ilen.toNat, codeGet s.map b ≠ []) →
    (codesOf s.map (s.inputBytes s.ilen.toNat)).length ≤ s.params.bsCapBits →
    ∃ t, exec .encode s = .next t ∧ EndsOk t ∧ KeepsOutside [.bitseq] s t ∧
      t.bits = codesOf s.map (s.inputBytes s.ilen.toNat)

/-- 45_encoder.md R280, 60_exceptions.md R404: the first bad byte in index order ends ENCODE: a byte
without a code with ENCODING_ERROR and its index, a byte whose code does not fit with CAPACITY_ERROR
and the bits the sequence would need; BITLEN is then 0. -/
def Obligations.EncodeReportsTheFirstBadByte : Prop :=
  ∀ (s : State) (good rest : List Byte) (b : Byte), s.mapValid = true →
    s.ilen.toNat ≤ s.params.ibufSize → s.inputBytes s.ilen.toNat = good ++ b :: rest →
    (∀ x ∈ good, codeGet s.map x ≠ []) →
    (codesOf s.map good).length ≤ s.params.bsCapBits →
    (codeGet s.map b = [] →
      ∃ t, exec .encode s = .next t ∧ EndsWith 2 (toWord good.length) t ∧ t.bits = []) ∧
    (codeGet s.map b ≠ [] →
      s.params.bsCapBits < (codesOf s.map good).length + (codeGet s.map b).length →
      ∃ t, exec .encode s = .next t ∧ t.bits = [] ∧
        EndsWith 7 (toWord ((codesOf s.map good).length + (codeGet s.map b).length)) t)

/-- 45_encoder.md R281: when MAP was built from the table of the same input, ENCODING_ERROR cannot
occur and BITLEN is the sum over v of FTAB[v] x MAPLEN[v]. -/
def Obligations.EncodeLengthIsTheWeightedSum : Prop :=
  ∀ s t : State, s.mapValid = true → s.ilen.toNat ≤ s.params.ibufSize →
    s.ftab = countTable (s.inputBytes s.ilen.toNat) → s.map = buildMap (buildTree s.ftab) →
    exec .encode s = .next t →
    t.errCode ≠ 2 ∧
    (t.err = false →
      t.bits.length =
        (allBytes.map (fun v => (tableGet s.ftab v).toNat * (codeGet s.map v).length)).sum)

/-- 46_decoder.md R300 to R303: DECODE completes on the codes of every byte string of TOTAL symbols
over the byte values of the tree, when TREE_VALID = 1 and TOTAL <= OBUF_SIZE, and OBUF is that byte
string. The premise `s.Inv` rules out trees no run builds (10_state.md R51). -/
def Obligations.DecodeEmitsTheSymbols : Prop :=
  ∀ (s : State) (bs : List Byte), s.Inv → s.treeValid = true →
    s.total.toNat ≤ s.params.obufSize → bs.length = s.total.toNat →
    (∀ b ∈ bs, tableGet s.ftab b ≠ 0) → s.bits = codesOf (buildMap s.tree) bs →
    ∃ t, exec .decode s = .next t ∧ EndsOk t ∧ KeepsOutside [.obuf] s t ∧ OutputIs bs t ∧
      t.olen = s.total

/-- 46_decoder.md R302, R303: the singleton and the absent tree. For a Leaf root the first T bits
must be 0: the first bit that is missing or 1 is a DECODING_ERROR, bits beyond T are a FORMAT_ERROR.
For an absent tree any bit is a FORMAT_ERROR. -/
def Obligations.DecodeOfTheDegenerateTrees : Prop :=
  ∀ s : State, s.treeValid = true → s.total.toNat ≤ s.params.obufSize →
    (∀ (v : Byte) (f : Word) (k : Nat) (rest : List Bool), s.tree = some (.leaf v f) →
      s.bits = List.replicate k false ++ rest →
      (k < s.total.toNat → (rest = [] ∨ ∃ rest', rest = true :: rest') →
        ∃ t, exec .decode s = .next t ∧ EndsWith 3 (toWord k) t ∧ t.olen = 0) ∧
      (k = s.total.toNat → rest ≠ [] →
        ∃ t, exec .decode s = .next t ∧ EndsWith 1 s.total t ∧ t.olen = 0) ∧
      (k = s.total.toNat → rest = [] →
        ∃ t, exec .decode s = .next t ∧ EndsOk t ∧ OutputIs (List.replicate k v) t)) ∧
    (s.tree = none → s.bits ≠ [] →
      ∃ t, exec .decode s = .next t ∧ EndsWith 1 0 t ∧ t.olen = 0) ∧
    (s.tree = none → s.bits = [] →
      ∃ t, exec .decode s = .next t ∧ EndsOk t ∧ t.olen = 0)

/-- 46_decoder.md R300, R301, 60_exceptions.md R404: with TREE_VALID = 1 and TOTAL > OBUF_SIZE DECODE
ends with CAPACITY_ERROR and ERRINFO = TOTAL, whatever the tree and the bits. Then the errors of the
walk. After the codes of `bs`, over the leaves of an internal root: too few symbols at the end are a
FORMAT_ERROR at BITLEN, an end inside a code is a DECODING_ERROR at BITLEN, and a whole code more
than TOTAL is a FORMAT_ERROR at the bit that completes it. -/
def Obligations.DecodeWalkErrors : Prop :=
  (∀ s : State, s.treeValid = true → s.params.obufSize < s.total.toNat →
    ∃ t, exec .decode s = .next t ∧ EndsWith 7 s.total t ∧ t.olen = 0 ∧
      KeepsOutside [.obuf] s t) ∧
  ∀ (s : State) (f : Word) (l r : HuffmanNode) (code : Byte → Code) (bs : List Byte),
    s.treeValid = true → s.total.toNat ≤ s.params.obufSize →
    s.tree = some (.internal f l r) →
    (∀ b ∈ bs, (b, code b) ∈ (HuffmanNode.internal f l r).paths []) →
    (bs.length < s.total.toNat → s.bits = bs.flatMap code →
      ∃ t, exec .decode s = .next t ∧ EndsWith 1 (toWord s.bits.length) t ∧ t.olen = 0) ∧
    (∀ (u : Byte) (c d : Code), (u, c ++ d) ∈ (HuffmanNode.internal f l r).paths [] → c ≠ [] →
      d ≠ [] → bs.length ≤ s.total.toNat → s.bits = bs.flatMap code ++ c →
      ∃ t, exec .decode s = .next t ∧ EndsWith 3 (toWord s.bits.length) t ∧ t.olen = 0) ∧
    (∀ (u : Byte) (c : Code) (rest : List Bool),
      (u, c) ∈ (HuffmanNode.internal f l r).paths [] → bs.length = s.total.toNat →
      s.bits = bs.flatMap code ++ c ++ rest →
      ∃ t, exec .decode s = .next t ∧
        EndsWith 1 (toWord ((bs.flatMap code ++ c).length - 1)) t ∧ t.olen = 0)

/-- 46_decoder.md R304: DECODE undoes ENCODE. For every sequence ENCODE produced from IBUF with the
map of the tree of the table of the same bytes, DECODE emits exactly those bytes without error,
provided they fit in OBUF. -/
def Obligations.DecodeUndoesEncode : Prop :=
  ∀ s t : State, s.mapValid = true → s.treeValid = true →
    s.ftab = countTable (s.inputBytes s.ilen.toNat) → s.tree = buildTree s.ftab →
    s.map = buildMap s.tree → s.ilen.toNat ≤ s.params.obufSize →
    exec .encode s = .next t → t.err = false →
    ∃ u, exec .decode t = .next u ∧ EndsOk u ∧ OutputIs (s.inputBytes s.ilen.toNat) u

/-! ### The archive codec -/

/-- 30_encoding.md R153, R154: the bytes of a varint: m = max(1, ceil(bitlen / 7)) of them, byte i
holding bits 7i to 7i + 6 and, but for the last, the continuation flag; and the reader accepts
exactly these: it reads a number n and stops at a cursor c' exactly when the bytes it read are the
varint of n. -/
def Obligations.VarintWriterAndReader : Prop :=
  (∀ v : Word,
    (varint v).length = max 1 ((Nat.size v.toNat + 6) / 7) ∧
    (∀ i, i < (varint v).length →
      (varint v).getD i 0 =
        BitVec.ofNat 8 ((v.toNat >>> (7 * i)) % 128 +
          if i < (varint v).length - 1 then 128 else 0))) ∧
  (∀ (c c' : Cursor) (n : Nat), readVarint c = .ok (n, c') ↔
    n < 2 ^ 64 ∧ c.rest = varint (toWord n) ++ c'.rest ∧
      c'.pos = c.pos + (varint (toWord n)).length)

/-- 30_encoding.md R150, R155 to R158, 47_archive_codec.md R320, R321: the bytes of the archive (magic,
version, the number of entries, the entries in ascending byte value, the number of bits, the payload
with bit i at bit 7 - (i mod 8) of byte i div 8 and padding 0), its size, at least the 7 bytes of the
empty one, and that SERIALIZE completes when it fits in OBUF, with OBUF the archive; otherwise
CAPACITY_ERROR with that size. -/
def Obligations.SerializeWritesTheArchive : Prop :=
  ∀ s : State,
    (∀ E : List Byte,
      E = ((List.range 256).map (BitVec.ofNat 8)).filter
        (fun v => decide (tableGet s.ftab v ≠ 0)) →
      ∃ payload : List Byte,
        serializeBytes s.ftab s.bits =
          [0x48, 0x55, 0x46, 0x5A, 0x01] ++ varint (toWord E.length) ++
            E.flatMap (fun v => v :: varint (tableGet s.ftab v)) ++
            varint (toWord s.bits.length) ++ payload ∧
        payload.length = (s.bits.length + 7) / 8 ∧
        ∀ i, i < 8 * payload.length →
          (payload.getD (i / 8) 0).getLsbD (7 - i % 8) = s.bits.getD i false) ∧
    (serializeBytes s.ftab s.bits).length =
      4 + 1 + (varint (toWord (tableEntries s.ftab).length)).length +
        ((tableEntries s.ftab).map (fun e => 1 + (varint e.2).length)).sum +
        (varint (toWord s.bits.length)).length + (s.bits.length + 7) / 8 ∧
    7 ≤ (serializeBytes s.ftab s.bits).length ∧ (serializeBytes emptyTable []).length = 7 ∧
    ((serializeBytes s.ftab s.bits).length ≤ s.params.obufSize →
      ∃ t, exec .serialize s = .next t ∧ EndsOk t ∧ KeepsOutside [.obuf] s t ∧
        OutputIs (serializeBytes s.ftab s.bits) t) ∧
    (s.params.obufSize < (serializeBytes s.ftab s.bits).length →
      ∃ t, exec .serialize s = .next t ∧ t.olen = 0 ∧
        EndsWith 7 (toWord (serializeBytes s.ftab s.bits).length) t)

/-- 47_archive_codec.md R324: the round trip of the codec. For every table and bit string within the
limits deserialize of serialize gives them back, and every archive the reader accepts is serialize of
the pair it returns. -/
def Obligations.CodecRoundTrip : Prop :=
  ∀ (cap : Nat) (F : List Word) (bits : List Bool), cap ≤ 2 ^ 31 →
    (F.length = 256 → tableSum F ≤ 2 ^ 64 - 1 → bits.length ≤ cap →
      deserializeBytes cap (serializeBytes F bits) = .ok (F, bits)) ∧
    (∀ bs, deserializeBytes cap bs = .ok (F, bits) →
      bs = serializeBytes F bits ∧ F.length = 256 ∧ tableSum F ≤ 2 ^ 64 - 1 ∧ bits.length ≤ cap)

/-- 47_archive_codec.md R322: DESERIALIZE completes on every archive of a table and a bit string
within the limits that IBUF holds: FTAB and BITSEQ become that pair, and TREE and MAP are
invalidated. -/
def Obligations.DeserializeReadsTheArchive : Prop :=
  ∀ (s : State) (F : List Word) (bits : List Bool), s.params.wellFormed = true →
    s.ilen.toNat ≤ s.params.ibufSize → F.length = 256 → tableSum F ≤ 2 ^ 64 - 1 →
    bits.length ≤ s.params.bsCapBits → s.inputBytes s.ilen.toNat = serializeBytes F bits →
    ∃ t, exec .deserialize s = .next t ∧ EndsOk t ∧
      KeepsOutside [.ftab, .tree, .map, .bitseq] s t ∧ t.ftab = F ∧ t.bits = bits ∧
      t.tree = none ∧ t.treeValid = false ∧ t.map = emptyMap ∧ t.mapValid = false

/-- 47_archive_codec.md R323, R322, 60_exceptions.md R403: the errors of DESERIALIZE. The first fault
of the input as an archive (`ArchiveFault`, Safety.lean: one constructor per `raise` of R323) is the
error DESERIALIZE ends with, with its ERRCODE and ERRINFO, and everything DESERIALIZE writes is
cleared; and an input without a fault is the archive of a table and bits within the limits. -/
def Obligations.DeserializeReportsTheFirstFault : Prop :=
  ∀ s : State, s.ilen.toNat ≤ s.params.ibufSize →
    (∀ code info, ArchiveFault s.params.bsCapBits (s.inputBytes s.ilen.toNat) code info →
      ∃ t, exec .deserialize s = .next t ∧ EndsWith code (toWord info) t ∧
        Cleared [.ftab, .tree, .map, .bitseq] t ∧
        KeepsOutside [.ftab, .tree, .map, .bitseq] s t) ∧
    ((∃ F bits, F.length = 256 ∧ tableSum F ≤ 2 ^ 64 - 1 ∧ bits.length ≤ s.params.bsCapBits ∧
        s.inputBytes s.ilen.toNat = serializeBytes F bits) ∨
      ∃ code info, ArchiveFault s.params.bsCapBits (s.inputBytes s.ilen.toNat) code info)

/-! ### NOP, COMPRESS, DECOMPRESS -/

/-- 48_control_and_composite.md R351: NOP does nothing but complete. -/
def Obligations.NopOnlyCompletes : Prop :=
  ∀ s : State, ∃ t, exec .nop s = .next t ∧
    t = { s with
          seq := .idle, done := true, err := false, errCode := 0, errInfo := 0, draws := t.draws }

/-- 48_control_and_composite.md R352: COMPRESS completes when ILEN <= IBUF_SIZE, the codes of the
input fit in BS_CAP_BITS and the archive fits in OBUF; FTAB, TREE, MAP and BITSEQ hold the
intermediate results and OBUF the archive. Its only errors are RANGE_ERROR and CAPACITY_ERROR: with
ERRINFO = ILEN; with the bits the sequence would need at the first byte whose code does not fit; and
with the size of an archive that does not fit. An error clears all it writes. -/
def Obligations.CompressCompletes : Prop :=
  (∀ s : State, s.params.ibufSize < s.ilen.toNat →
    ∃ t, exec .compress s = .next t ∧ EndsWith 6 s.ilen t ∧
      Cleared [.ftab, .tree, .map, .bitseq, .obuf] t) ∧
  (∀ (s : State) (good rest : List Byte) (b : Byte) (M : List Code),
    s.ilen.toNat ≤ s.params.ibufSize → s.inputBytes s.ilen.toNat = good ++ b :: rest →
    M = buildMap (buildTree (countTable (good ++ b :: rest))) →
    (codesOf M good).length ≤ s.params.bsCapBits →
    s.params.bsCapBits < (codesOf M good).length + (codeGet M b).length →
    ∃ t, exec .compress s = .next t ∧
      EndsWith 7 (toWord ((codesOf M good).length + (codeGet M b).length)) t ∧
      Cleared [.ftab, .tree, .map, .bitseq, .obuf] t) ∧
  (∀ (s : State) (bs : List Byte) (F : List Word) (bits : List Bool),
    s.ilen.toNat ≤ s.params.ibufSize → bs = s.inputBytes s.ilen.toNat → F = countTable bs →
    bits = codesOf (buildMap (buildTree F)) bs → bits.length ≤ s.params.bsCapBits →
    s.params.obufSize < (serializeBytes F bits).length →
    ∃ t, exec .compress s = .next t ∧ EndsWith 7 (toWord (serializeBytes F bits).length) t ∧
      Cleared [.ftab, .tree, .map, .bitseq, .obuf] t) ∧
  (∀ s t : State, exec .compress s = .next t → t.err = true →
    (t.errCode = 6 ∧ s.params.ibufSize < s.ilen.toNat) ∨
      (t.errCode = 7 ∧ s.ilen.toNat ≤ s.params.ibufSize)) ∧
  ∀ (s : State) (bs : List Byte) (F : List Word) (M : List Code) (bits : List Bool),
    s.ilen.toNat ≤ s.params.ibufSize → bs = s.inputBytes s.ilen.toNat → F = countTable bs →
    M = buildMap (buildTree F) → bits = codesOf M bs → bits.length ≤ s.params.bsCapBits →
    (serializeBytes F bits).length ≤ s.params.obufSize →
    ∃ t, exec .compress s = .next t ∧ EndsOk t ∧
      KeepsOutside [.ftab, .tree, .map, .bitseq, .obuf] s t ∧ t.ftab = F ∧
      t.tree = buildTree F ∧ t.treeValid = true ∧ t.map = M ∧ t.mapValid = true ∧
      t.bits = bits ∧ OutputIs (serializeBytes F bits) t

/-- 48_control_and_composite.md R353: DECOMPRESS completes on the archive of a table and the codes
of a byte string with that table, when the bytes fit in OBUF: OBUF is the byte string, TREE is
current and no map is built. In every state it is DESERIALIZE, BUILD_TREE and DECODE run in order: an
error of DESERIALIZE, or else of DECODE, ends it with that error and ERRINFO and clears all it
writes, and otherwise it ends as they do. SEQUENCE_ERROR cannot occur. -/
def Obligations.DecompressCompletes : Prop :=
  (∀ (s t : State) (code : BitVec 4) (info : Word),
    exec .deserialize s = .next t → EndsWith code info t →
    ∃ y, exec .decompress s = .next y ∧ EndsWith code info y ∧
      Cleared [.ftab, .tree, .map, .bitseq, .obuf] y) ∧
  (∀ s t u x : State, exec .deserialize s = .next t → EndsOk t → exec .buildTree t = .next u →
    exec .decode u = .next x →
    (∀ code info, EndsWith code info x →
      ∃ y, exec .decompress s = .next y ∧ EndsWith code info y ∧
        Cleared [.ftab, .tree, .map, .bitseq, .obuf] y) ∧
    (EndsOk x → ∃ y, exec .decompress s = .next y ∧ y = { x with draws := y.draws })) ∧
  (∀ s t : State, exec .decompress s = .next t → t.err = true → t.errCode ∈ [1#4, 3#4, 6#4, 7#4]) ∧
  ∀ (s : State) (bs : List Byte) (F : List Word), s.params.wellFormed = true →
    s.ilen.toNat ≤ s.params.ibufSize → F = countTable bs → bs.length ≤ s.params.obufSize →
    (codesOf (buildMap (buildTree F)) bs).length ≤ s.params.bsCapBits →
    s.inputBytes s.ilen.toNat = serializeBytes F (codesOf (buildMap (buildTree F)) bs) →
    ∃ t, exec .decompress s = .next t ∧ EndsOk t ∧
      KeepsOutside [.ftab, .tree, .map, .bitseq, .obuf] s t ∧ OutputIs bs t ∧
      t.ftab = F ∧ t.tree = buildTree F ∧ t.treeValid = true ∧ t.map = emptyMap ∧
      t.mapValid = false

/-- 48_control_and_composite.md R364: THE ROUND TRIP. For every input in IBUF: COMPRESS ends without
error or with CAPACITY_ERROR; and when it ends without error, in any state `u` whose input is the
archive COMPRESS left in OBUF (the host's COPYBACK), with room for the output, DECOMPRESS ends
without error and OBUF is the original input. n >= 1 copies of one byte value give n payload bits. -/
def Obligations.DecompressUndoesCompress : Prop :=
  ∀ s t : State, s.params.wellFormed = true → s.ilen.toNat ≤ s.params.ibufSize →
    exec .compress s = .next t →
    (t.err = false ∨ t.errCode = 7) ∧
    (t.err = false → ∀ u : State, u.params = s.params →
      u.ilen = t.olen → t.olen.toNat ≤ u.params.ibufSize → s.ilen.toNat ≤ u.params.obufSize →
      (∀ k, k < t.olen.toNat → Mem.get? u.mem (Config.ibufBase + k) =
        Mem.get? t.mem (Config.obufBase + k)) →
      ∃ x, exec .decompress u = .next x ∧ EndsOk x ∧ x.olen = s.ilen ∧
        OutputIs (s.inputBytes s.ilen.toNat) x) ∧
    (t.err = false → ∀ v : Byte, 1 ≤ s.ilen.toNat →
      s.inputBytes s.ilen.toNat = List.replicate s.ilen.toNat v → t.bits.length = s.ilen.toNat)
end

