-- ==== Sys2Proof/Laws/State.lean ====
section
/-! SUPPORT. One lemma per field per named update of the state, each true by rfl, so that no later
proof unfolds a record update; and the update lemmas of the registers computed from fields. -/

namespace Sys2Proof.Machine

variable (s : State)

/-! ### State.invalidateMap -/

@[simp] theorem invalidateMap_params : s.invalidateMap.params = s.params := rfl
@[simp] theorem invalidateMap_seq : s.invalidateMap.seq = s.seq := rfl
@[simp] theorem invalidateMap_done : s.invalidateMap.done = s.done := rfl
@[simp] theorem invalidateMap_err : s.invalidateMap.err = s.err := rfl
@[simp] theorem invalidateMap_ovr : s.invalidateMap.ovr = s.ovr := rfl
@[simp] theorem invalidateMap_errCode : s.invalidateMap.errCode = s.errCode := rfl
@[simp] theorem invalidateMap_lastOpc : s.invalidateMap.lastOpc = s.lastOpc := rfl
@[simp] theorem invalidateMap_errInfo : s.invalidateMap.errInfo = s.errInfo := rfl
@[simp] theorem invalidateMap_doneIe : s.invalidateMap.doneIe = s.doneIe := rfl
@[simp] theorem invalidateMap_errIe : s.invalidateMap.errIe = s.errIe := rfl
@[simp] theorem invalidateMap_arg0 : s.invalidateMap.arg0 = s.arg0 := rfl
@[simp] theorem invalidateMap_arg1 : s.invalidateMap.arg1 = s.arg1 := rfl
@[simp] theorem invalidateMap_result : s.invalidateMap.result = s.result := rfl
@[simp] theorem invalidateMap_ilen : s.invalidateMap.ilen = s.ilen := rfl
@[simp] theorem invalidateMap_olen : s.invalidateMap.olen = s.olen := rfl
@[simp] theorem invalidateMap_ftab : s.invalidateMap.ftab = s.ftab := rfl
@[simp] theorem invalidateMap_treeValid : s.invalidateMap.treeValid = s.treeValid := rfl
@[simp] theorem invalidateMap_tree : s.invalidateMap.tree = s.tree := rfl
@[simp] theorem invalidateMap_mapValid : s.invalidateMap.mapValid = false := rfl
@[simp] theorem invalidateMap_map : s.invalidateMap.map = emptyMap := rfl
@[simp] theorem invalidateMap_bits : s.invalidateMap.bits = s.bits := rfl
@[simp] theorem invalidateMap_mem : s.invalidateMap.mem = s.mem := rfl
@[simp] theorem invalidateMap_turns : s.invalidateMap.turns = s.turns := rfl
@[simp] theorem invalidateMap_rdata : s.invalidateMap.rdata = s.rdata := rfl
@[simp] theorem invalidateMap_draws : s.invalidateMap.draws = s.draws := rfl

/-! ### State.invalidateTree -/

@[simp] theorem invalidateTree_params : s.invalidateTree.params = s.params := rfl
@[simp] theorem invalidateTree_seq : s.invalidateTree.seq = s.seq := rfl
@[simp] theorem invalidateTree_done : s.invalidateTree.done = s.done := rfl
@[simp] theorem invalidateTree_err : s.invalidateTree.err = s.err := rfl
@[simp] theorem invalidateTree_ovr : s.invalidateTree.ovr = s.ovr := rfl
@[simp] theorem invalidateTree_errCode : s.invalidateTree.errCode = s.errCode := rfl
@[simp] theorem invalidateTree_lastOpc : s.invalidateTree.lastOpc = s.lastOpc := rfl
@[simp] theorem invalidateTree_errInfo : s.invalidateTree.errInfo = s.errInfo := rfl
@[simp] theorem invalidateTree_doneIe : s.invalidateTree.doneIe = s.doneIe := rfl
@[simp] theorem invalidateTree_errIe : s.invalidateTree.errIe = s.errIe := rfl
@[simp] theorem invalidateTree_arg0 : s.invalidateTree.arg0 = s.arg0 := rfl
@[simp] theorem invalidateTree_arg1 : s.invalidateTree.arg1 = s.arg1 := rfl
@[simp] theorem invalidateTree_result : s.invalidateTree.result = s.result := rfl
@[simp] theorem invalidateTree_ilen : s.invalidateTree.ilen = s.ilen := rfl
@[simp] theorem invalidateTree_olen : s.invalidateTree.olen = s.olen := rfl
@[simp] theorem invalidateTree_ftab : s.invalidateTree.ftab = s.ftab := rfl
@[simp] theorem invalidateTree_treeValid : s.invalidateTree.treeValid = false := rfl
@[simp] theorem invalidateTree_tree : s.invalidateTree.tree = none := rfl
@[simp] theorem invalidateTree_mapValid : s.invalidateTree.mapValid = false := rfl
@[simp] theorem invalidateTree_map : s.invalidateTree.map = emptyMap := rfl
@[simp] theorem invalidateTree_bits : s.invalidateTree.bits = s.bits := rfl
@[simp] theorem invalidateTree_mem : s.invalidateTree.mem = s.mem := rfl
@[simp] theorem invalidateTree_turns : s.invalidateTree.turns = s.turns := rfl
@[simp] theorem invalidateTree_rdata : s.invalidateTree.rdata = s.rdata := rfl
@[simp] theorem invalidateTree_draws : s.invalidateTree.draws = s.draws := rfl

/-! ### State.writeTable -/

@[simp] theorem writeTable_params (F : List Word) : (s.writeTable F).params = s.params := rfl
@[simp] theorem writeTable_seq (F : List Word) : (s.writeTable F).seq = s.seq := rfl
@[simp] theorem writeTable_done (F : List Word) : (s.writeTable F).done = s.done := rfl
@[simp] theorem writeTable_err (F : List Word) : (s.writeTable F).err = s.err := rfl
@[simp] theorem writeTable_ovr (F : List Word) : (s.writeTable F).ovr = s.ovr := rfl
@[simp] theorem writeTable_errCode (F : List Word) : (s.writeTable F).errCode = s.errCode := rfl
@[simp] theorem writeTable_lastOpc (F : List Word) : (s.writeTable F).lastOpc = s.lastOpc := rfl
@[simp] theorem writeTable_errInfo (F : List Word) : (s.writeTable F).errInfo = s.errInfo := rfl
@[simp] theorem writeTable_doneIe (F : List Word) : (s.writeTable F).doneIe = s.doneIe := rfl
@[simp] theorem writeTable_errIe (F : List Word) : (s.writeTable F).errIe = s.errIe := rfl
@[simp] theorem writeTable_arg0 (F : List Word) : (s.writeTable F).arg0 = s.arg0 := rfl
@[simp] theorem writeTable_arg1 (F : List Word) : (s.writeTable F).arg1 = s.arg1 := rfl
@[simp] theorem writeTable_result (F : List Word) : (s.writeTable F).result = s.result := rfl
@[simp] theorem writeTable_ilen (F : List Word) : (s.writeTable F).ilen = s.ilen := rfl
@[simp] theorem writeTable_olen (F : List Word) : (s.writeTable F).olen = s.olen := rfl
@[simp] theorem writeTable_ftab (F : List Word) : (s.writeTable F).ftab = F := rfl
@[simp] theorem writeTable_treeValid (F : List Word) : (s.writeTable F).treeValid = false := rfl
@[simp] theorem writeTable_tree (F : List Word) : (s.writeTable F).tree = none := rfl
@[simp] theorem writeTable_mapValid (F : List Word) : (s.writeTable F).mapValid = false := rfl
@[simp] theorem writeTable_map (F : List Word) : (s.writeTable F).map = emptyMap := rfl
@[simp] theorem writeTable_bits (F : List Word) : (s.writeTable F).bits = s.bits := rfl
@[simp] theorem writeTable_mem (F : List Word) : (s.writeTable F).mem = s.mem := rfl
@[simp] theorem writeTable_turns (F : List Word) : (s.writeTable F).turns = s.turns := rfl
@[simp] theorem writeTable_rdata (F : List Word) : (s.writeTable F).rdata = s.rdata := rfl
@[simp] theorem writeTable_draws (F : List Word) : (s.writeTable F).draws = s.draws := rfl

/-! ### State.writeTree -/

@[simp] theorem writeTree_params (t : Option HuffmanNode) : (s.writeTree t).params = s.params := rfl
@[simp] theorem writeTree_seq (t : Option HuffmanNode) : (s.writeTree t).seq = s.seq := rfl
@[simp] theorem writeTree_done (t : Option HuffmanNode) : (s.writeTree t).done = s.done := rfl
@[simp] theorem writeTree_err (t : Option HuffmanNode) : (s.writeTree t).err = s.err := rfl
@[simp] theorem writeTree_ovr (t : Option HuffmanNode) : (s.writeTree t).ovr = s.ovr := rfl
@[simp] theorem writeTree_errCode (t : Option HuffmanNode) : (s.writeTree t).errCode = s.errCode := rfl
@[simp] theorem writeTree_lastOpc (t : Option HuffmanNode) : (s.writeTree t).lastOpc = s.lastOpc := rfl
@[simp] theorem writeTree_errInfo (t : Option HuffmanNode) : (s.writeTree t).errInfo = s.errInfo := rfl
@[simp] theorem writeTree_doneIe (t : Option HuffmanNode) : (s.writeTree t).doneIe = s.doneIe := rfl
@[simp] theorem writeTree_errIe (t : Option HuffmanNode) : (s.writeTree t).errIe = s.errIe := rfl
@[simp] theorem writeTree_arg0 (t : Option HuffmanNode) : (s.writeTree t).arg0 = s.arg0 := rfl
@[simp] theorem writeTree_arg1 (t : Option HuffmanNode) : (s.writeTree t).arg1 = s.arg1 := rfl
@[simp] theorem writeTree_result (t : Option HuffmanNode) : (s.writeTree t).result = s.result := rfl
@[simp] theorem writeTree_ilen (t : Option HuffmanNode) : (s.writeTree t).ilen = s.ilen := rfl
@[simp] theorem writeTree_olen (t : Option HuffmanNode) : (s.writeTree t).olen = s.olen := rfl
@[simp] theorem writeTree_ftab (t : Option HuffmanNode) : (s.writeTree t).ftab = s.ftab := rfl
@[simp] theorem writeTree_treeValid (t : Option HuffmanNode) : (s.writeTree t).treeValid = true := rfl
@[simp] theorem writeTree_tree (t : Option HuffmanNode) : (s.writeTree t).tree = t := rfl
@[simp] theorem writeTree_mapValid (t : Option HuffmanNode) : (s.writeTree t).mapValid = false := rfl
@[simp] theorem writeTree_map (t : Option HuffmanNode) : (s.writeTree t).map = emptyMap := rfl
@[simp] theorem writeTree_bits (t : Option HuffmanNode) : (s.writeTree t).bits = s.bits := rfl
@[simp] theorem writeTree_mem (t : Option HuffmanNode) : (s.writeTree t).mem = s.mem := rfl
@[simp] theorem writeTree_turns (t : Option HuffmanNode) : (s.writeTree t).turns = s.turns := rfl
@[simp] theorem writeTree_rdata (t : Option HuffmanNode) : (s.writeTree t).rdata = s.rdata := rfl
@[simp] theorem writeTree_draws (t : Option HuffmanNode) : (s.writeTree t).draws = s.draws := rfl

/-! ### State.writeMap -/

@[simp] theorem writeMap_params (M : List Code) : (s.writeMap M).params = s.params := rfl
@[simp] theorem writeMap_seq (M : List Code) : (s.writeMap M).seq = s.seq := rfl
@[simp] theorem writeMap_done (M : List Code) : (s.writeMap M).done = s.done := rfl
@[simp] theorem writeMap_err (M : List Code) : (s.writeMap M).err = s.err := rfl
@[simp] theorem writeMap_ovr (M : List Code) : (s.writeMap M).ovr = s.ovr := rfl
@[simp] theorem writeMap_errCode (M : List Code) : (s.writeMap M).errCode = s.errCode := rfl
@[simp] theorem writeMap_lastOpc (M : List Code) : (s.writeMap M).lastOpc = s.lastOpc := rfl
@[simp] theorem writeMap_errInfo (M : List Code) : (s.writeMap M).errInfo = s.errInfo := rfl
@[simp] theorem writeMap_doneIe (M : List Code) : (s.writeMap M).doneIe = s.doneIe := rfl
@[simp] theorem writeMap_errIe (M : List Code) : (s.writeMap M).errIe = s.errIe := rfl
@[simp] theorem writeMap_arg0 (M : List Code) : (s.writeMap M).arg0 = s.arg0 := rfl
@[simp] theorem writeMap_arg1 (M : List Code) : (s.writeMap M).arg1 = s.arg1 := rfl
@[simp] theorem writeMap_result (M : List Code) : (s.writeMap M).result = s.result := rfl
@[simp] theorem writeMap_ilen (M : List Code) : (s.writeMap M).ilen = s.ilen := rfl
@[simp] theorem writeMap_olen (M : List Code) : (s.writeMap M).olen = s.olen := rfl
@[simp] theorem writeMap_ftab (M : List Code) : (s.writeMap M).ftab = s.ftab := rfl
@[simp] theorem writeMap_treeValid (M : List Code) : (s.writeMap M).treeValid = s.treeValid := rfl
@[simp] theorem writeMap_tree (M : List Code) : (s.writeMap M).tree = s.tree := rfl
@[simp] theorem writeMap_mapValid (M : List Code) : (s.writeMap M).mapValid = true := rfl
@[simp] theorem writeMap_map (M : List Code) : (s.writeMap M).map = M := rfl
@[simp] theorem writeMap_bits (M : List Code) : (s.writeMap M).bits = s.bits := rfl
@[simp] theorem writeMap_mem (M : List Code) : (s.writeMap M).mem = s.mem := rfl
@[simp] theorem writeMap_turns (M : List Code) : (s.writeMap M).turns = s.turns := rfl
@[simp] theorem writeMap_rdata (M : List Code) : (s.writeMap M).rdata = s.rdata := rfl
@[simp] theorem writeMap_draws (M : List Code) : (s.writeMap M).draws = s.draws := rfl

/-! ### State.writeBits -/

@[simp] theorem writeBits_params (b : List Bool) : (s.writeBits b).params = s.params := rfl
@[simp] theorem writeBits_seq (b : List Bool) : (s.writeBits b).seq = s.seq := rfl
@[simp] theorem writeBits_done (b : List Bool) : (s.writeBits b).done = s.done := rfl
@[simp] theorem writeBits_err (b : List Bool) : (s.writeBits b).err = s.err := rfl
@[simp] theorem writeBits_ovr (b : List Bool) : (s.writeBits b).ovr = s.ovr := rfl
@[simp] theorem writeBits_errCode (b : List Bool) : (s.writeBits b).errCode = s.errCode := rfl
@[simp] theorem writeBits_lastOpc (b : List Bool) : (s.writeBits b).lastOpc = s.lastOpc := rfl
@[simp] theorem writeBits_errInfo (b : List Bool) : (s.writeBits b).errInfo = s.errInfo := rfl
@[simp] theorem writeBits_doneIe (b : List Bool) : (s.writeBits b).doneIe = s.doneIe := rfl
@[simp] theorem writeBits_errIe (b : List Bool) : (s.writeBits b).errIe = s.errIe := rfl
@[simp] theorem writeBits_arg0 (b : List Bool) : (s.writeBits b).arg0 = s.arg0 := rfl
@[simp] theorem writeBits_arg1 (b : List Bool) : (s.writeBits b).arg1 = s.arg1 := rfl
@[simp] theorem writeBits_result (b : List Bool) : (s.writeBits b).result = s.result := rfl
@[simp] theorem writeBits_ilen (b : List Bool) : (s.writeBits b).ilen = s.ilen := rfl
@[simp] theorem writeBits_olen (b : List Bool) : (s.writeBits b).olen = s.olen := rfl
@[simp] theorem writeBits_ftab (b : List Bool) : (s.writeBits b).ftab = s.ftab := rfl
@[simp] theorem writeBits_treeValid (b : List Bool) : (s.writeBits b).treeValid = s.treeValid := rfl
@[simp] theorem writeBits_tree (b : List Bool) : (s.writeBits b).tree = s.tree := rfl
@[simp] theorem writeBits_mapValid (b : List Bool) : (s.writeBits b).mapValid = s.mapValid := rfl
@[simp] theorem writeBits_map (b : List Bool) : (s.writeBits b).map = s.map := rfl
@[simp] theorem writeBits_bits (b : List Bool) : (s.writeBits b).bits = b := rfl
@[simp] theorem writeBits_mem (b : List Bool) : (s.writeBits b).mem = s.mem := rfl
@[simp] theorem writeBits_turns (b : List Bool) : (s.writeBits b).turns = s.turns := rfl
@[simp] theorem writeBits_rdata (b : List Bool) : (s.writeBits b).rdata = s.rdata := rfl
@[simp] theorem writeBits_draws (b : List Bool) : (s.writeBits b).draws = s.draws := rfl

/-! ### State.writeOutput -/

@[simp] theorem writeOutput_params (bs : List Byte) : (s.writeOutput bs).params = s.params := rfl
@[simp] theorem writeOutput_seq (bs : List Byte) : (s.writeOutput bs).seq = s.seq := rfl
@[simp] theorem writeOutput_done (bs : List Byte) : (s.writeOutput bs).done = s.done := rfl
@[simp] theorem writeOutput_err (bs : List Byte) : (s.writeOutput bs).err = s.err := rfl
@[simp] theorem writeOutput_ovr (bs : List Byte) : (s.writeOutput bs).ovr = s.ovr := rfl
@[simp] theorem writeOutput_errCode (bs : List Byte) : (s.writeOutput bs).errCode = s.errCode := rfl
@[simp] theorem writeOutput_lastOpc (bs : List Byte) : (s.writeOutput bs).lastOpc = s.lastOpc := rfl
@[simp] theorem writeOutput_errInfo (bs : List Byte) : (s.writeOutput bs).errInfo = s.errInfo := rfl
@[simp] theorem writeOutput_doneIe (bs : List Byte) : (s.writeOutput bs).doneIe = s.doneIe := rfl
@[simp] theorem writeOutput_errIe (bs : List Byte) : (s.writeOutput bs).errIe = s.errIe := rfl
@[simp] theorem writeOutput_arg0 (bs : List Byte) : (s.writeOutput bs).arg0 = s.arg0 := rfl
@[simp] theorem writeOutput_arg1 (bs : List Byte) : (s.writeOutput bs).arg1 = s.arg1 := rfl
@[simp] theorem writeOutput_result (bs : List Byte) : (s.writeOutput bs).result = s.result := rfl
@[simp] theorem writeOutput_ilen (bs : List Byte) : (s.writeOutput bs).ilen = s.ilen := rfl
@[simp] theorem writeOutput_olen (bs : List Byte) : (s.writeOutput bs).olen = toWord bs.length := rfl
@[simp] theorem writeOutput_ftab (bs : List Byte) : (s.writeOutput bs).ftab = s.ftab := rfl
@[simp] theorem writeOutput_treeValid (bs : List Byte) : (s.writeOutput bs).treeValid = s.treeValid := rfl
@[simp] theorem writeOutput_tree (bs : List Byte) : (s.writeOutput bs).tree = s.tree := rfl
@[simp] theorem writeOutput_mapValid (bs : List Byte) : (s.writeOutput bs).mapValid = s.mapValid := rfl
@[simp] theorem writeOutput_map (bs : List Byte) : (s.writeOutput bs).map = s.map := rfl
@[simp] theorem writeOutput_bits (bs : List Byte) : (s.writeOutput bs).bits = s.bits := rfl
@[simp] theorem writeOutput_mem (bs : List Byte) : (s.writeOutput bs).mem = Mem.setObuf s.mem bs := rfl
@[simp] theorem writeOutput_turns (bs : List Byte) : (s.writeOutput bs).turns = s.turns := rfl
@[simp] theorem writeOutput_rdata (bs : List Byte) : (s.writeOutput bs).rdata = s.rdata := rfl
@[simp] theorem writeOutput_draws (bs : List Byte) : (s.writeOutput bs).draws = s.draws := rfl

/-! ### State.advanceDraws -/

@[simp] theorem advanceDraws_params : s.advanceDraws.params = s.params := rfl
@[simp] theorem advanceDraws_seq : s.advanceDraws.seq = s.seq := rfl
@[simp] theorem advanceDraws_done : s.advanceDraws.done = s.done := rfl
@[simp] theorem advanceDraws_err : s.advanceDraws.err = s.err := rfl
@[simp] theorem advanceDraws_ovr : s.advanceDraws.ovr = s.ovr := rfl
@[simp] theorem advanceDraws_errCode : s.advanceDraws.errCode = s.errCode := rfl
@[simp] theorem advanceDraws_lastOpc : s.advanceDraws.lastOpc = s.lastOpc := rfl
@[simp] theorem advanceDraws_errInfo : s.advanceDraws.errInfo = s.errInfo := rfl
@[simp] theorem advanceDraws_doneIe : s.advanceDraws.doneIe = s.doneIe := rfl
@[simp] theorem advanceDraws_errIe : s.advanceDraws.errIe = s.errIe := rfl
@[simp] theorem advanceDraws_arg0 : s.advanceDraws.arg0 = s.arg0 := rfl
@[simp] theorem advanceDraws_arg1 : s.advanceDraws.arg1 = s.arg1 := rfl
@[simp] theorem advanceDraws_result : s.advanceDraws.result = s.result := rfl
@[simp] theorem advanceDraws_ilen : s.advanceDraws.ilen = s.ilen := rfl
@[simp] theorem advanceDraws_olen : s.advanceDraws.olen = s.olen := rfl
@[simp] theorem advanceDraws_ftab : s.advanceDraws.ftab = s.ftab := rfl
@[simp] theorem advanceDraws_treeValid : s.advanceDraws.treeValid = s.treeValid := rfl
@[simp] theorem advanceDraws_tree : s.advanceDraws.tree = s.tree := rfl
@[simp] theorem advanceDraws_mapValid : s.advanceDraws.mapValid = s.mapValid := rfl
@[simp] theorem advanceDraws_map : s.advanceDraws.map = s.map := rfl
@[simp] theorem advanceDraws_bits : s.advanceDraws.bits = s.bits := rfl
@[simp] theorem advanceDraws_mem : s.advanceDraws.mem = s.mem := rfl
@[simp] theorem advanceDraws_turns : s.advanceDraws.turns = s.turns := rfl
@[simp] theorem advanceDraws_rdata : s.advanceDraws.rdata = s.rdata := rfl
@[simp] theorem advanceDraws_draws : s.advanceDraws.draws = s.draws + 1 := rfl

/-! ### completeOk -/

@[simp] theorem completeOk_params : (completeOk s).params = s.params := rfl
@[simp] theorem completeOk_seq : (completeOk s).seq = .idle := rfl
@[simp] theorem completeOk_done : (completeOk s).done = true := rfl
@[simp] theorem completeOk_err : (completeOk s).err = false := rfl
@[simp] theorem completeOk_ovr : (completeOk s).ovr = s.ovr := rfl
@[simp] theorem completeOk_errCode : (completeOk s).errCode = 0 := rfl
@[simp] theorem completeOk_lastOpc : (completeOk s).lastOpc = s.lastOpc := rfl
@[simp] theorem completeOk_errInfo : (completeOk s).errInfo = 0 := rfl
@[simp] theorem completeOk_doneIe : (completeOk s).doneIe = s.doneIe := rfl
@[simp] theorem completeOk_errIe : (completeOk s).errIe = s.errIe := rfl
@[simp] theorem completeOk_arg0 : (completeOk s).arg0 = s.arg0 := rfl
@[simp] theorem completeOk_arg1 : (completeOk s).arg1 = s.arg1 := rfl
@[simp] theorem completeOk_result : (completeOk s).result = s.result := rfl
@[simp] theorem completeOk_ilen : (completeOk s).ilen = s.ilen := rfl
@[simp] theorem completeOk_olen : (completeOk s).olen = s.olen := rfl
@[simp] theorem completeOk_ftab : (completeOk s).ftab = s.ftab := rfl
@[simp] theorem completeOk_treeValid : (completeOk s).treeValid = s.treeValid := rfl
@[simp] theorem completeOk_tree : (completeOk s).tree = s.tree := rfl
@[simp] theorem completeOk_mapValid : (completeOk s).mapValid = s.mapValid := rfl
@[simp] theorem completeOk_map : (completeOk s).map = s.map := rfl
@[simp] theorem completeOk_bits : (completeOk s).bits = s.bits := rfl
@[simp] theorem completeOk_mem : (completeOk s).mem = s.mem := rfl
@[simp] theorem completeOk_turns : (completeOk s).turns = s.turns := rfl
@[simp] theorem completeOk_rdata : (completeOk s).rdata = s.rdata := rfl
@[simp] theorem completeOk_draws : (completeOk s).draws = s.draws := rfl

/-! ### acknowledgeError -/

@[simp] theorem acknowledgeError_params : (acknowledgeError s).params = s.params := rfl
@[simp] theorem acknowledgeError_seq : (acknowledgeError s).seq = s.seq := rfl
@[simp] theorem acknowledgeError_done : (acknowledgeError s).done = s.done := rfl
@[simp] theorem acknowledgeError_err : (acknowledgeError s).err = false := rfl
@[simp] theorem acknowledgeError_ovr : (acknowledgeError s).ovr = s.ovr := rfl
@[simp] theorem acknowledgeError_errCode : (acknowledgeError s).errCode = 0 := rfl
@[simp] theorem acknowledgeError_lastOpc : (acknowledgeError s).lastOpc = s.lastOpc := rfl
@[simp] theorem acknowledgeError_errInfo : (acknowledgeError s).errInfo = 0 := rfl
@[simp] theorem acknowledgeError_doneIe : (acknowledgeError s).doneIe = s.doneIe := rfl
@[simp] theorem acknowledgeError_errIe : (acknowledgeError s).errIe = s.errIe := rfl
@[simp] theorem acknowledgeError_arg0 : (acknowledgeError s).arg0 = s.arg0 := rfl
@[simp] theorem acknowledgeError_arg1 : (acknowledgeError s).arg1 = s.arg1 := rfl
@[simp] theorem acknowledgeError_result : (acknowledgeError s).result = s.result := rfl
@[simp] theorem acknowledgeError_ilen : (acknowledgeError s).ilen = s.ilen := rfl
@[simp] theorem acknowledgeError_olen : (acknowledgeError s).olen = s.olen := rfl
@[simp] theorem acknowledgeError_ftab : (acknowledgeError s).ftab = s.ftab := rfl
@[simp] theorem acknowledgeError_treeValid : (acknowledgeError s).treeValid = s.treeValid := rfl
@[simp] theorem acknowledgeError_tree : (acknowledgeError s).tree = s.tree := rfl
@[simp] theorem acknowledgeError_mapValid : (acknowledgeError s).mapValid = s.mapValid := rfl
@[simp] theorem acknowledgeError_map : (acknowledgeError s).map = s.map := rfl
@[simp] theorem acknowledgeError_bits : (acknowledgeError s).bits = s.bits := rfl
@[simp] theorem acknowledgeError_mem : (acknowledgeError s).mem = s.mem := rfl
@[simp] theorem acknowledgeError_turns : (acknowledgeError s).turns = s.turns := rfl
@[simp] theorem acknowledgeError_rdata : (acknowledgeError s).rdata = s.rdata := rfl
@[simp] theorem acknowledgeError_draws : (acknowledgeError s).draws = s.draws := rfl

/-! ### State.issue -/

@[simp] theorem issue_params (w : Word) : (s.issue w).params = s.params := rfl
@[simp] theorem issue_seq (w : Word) : (s.issue w).seq = .running w := rfl
@[simp] theorem issue_done (w : Word) : (s.issue w).done = false := rfl
@[simp] theorem issue_err (w : Word) : (s.issue w).err = false := rfl
@[simp] theorem issue_ovr (w : Word) : (s.issue w).ovr = false := rfl
@[simp] theorem issue_errCode (w : Word) : (s.issue w).errCode = 0 := rfl
@[simp] theorem issue_lastOpc (w : Word) : (s.issue w).lastOpc = opcField w := rfl
@[simp] theorem issue_errInfo (w : Word) : (s.issue w).errInfo = 0 := rfl
@[simp] theorem issue_doneIe (w : Word) : (s.issue w).doneIe = s.doneIe := rfl
@[simp] theorem issue_errIe (w : Word) : (s.issue w).errIe = s.errIe := rfl
@[simp] theorem issue_arg0 (w : Word) : (s.issue w).arg0 = s.arg0 := rfl
@[simp] theorem issue_arg1 (w : Word) : (s.issue w).arg1 = s.arg1 := rfl
@[simp] theorem issue_result (w : Word) : (s.issue w).result = s.result := rfl
@[simp] theorem issue_ilen (w : Word) : (s.issue w).ilen = s.ilen := rfl
@[simp] theorem issue_olen (w : Word) : (s.issue w).olen = s.olen := rfl
@[simp] theorem issue_ftab (w : Word) : (s.issue w).ftab = s.ftab := rfl
@[simp] theorem issue_treeValid (w : Word) : (s.issue w).treeValid = s.treeValid := rfl
@[simp] theorem issue_tree (w : Word) : (s.issue w).tree = s.tree := rfl
@[simp] theorem issue_mapValid (w : Word) : (s.issue w).mapValid = s.mapValid := rfl
@[simp] theorem issue_map (w : Word) : (s.issue w).map = s.map := rfl
@[simp] theorem issue_bits (w : Word) : (s.issue w).bits = s.bits := rfl
@[simp] theorem issue_mem (w : Word) : (s.issue w).mem = s.mem := rfl
@[simp] theorem issue_turns (w : Word) : (s.issue w).turns = s.turns := rfl
@[simp] theorem issue_rdata (w : Word) : (s.issue w).rdata = s.rdata := rfl
@[simp] theorem issue_draws (w : Word) : (s.issue w).draws = s.draws := rfl

/-! ### State.writeIrqen -/

@[simp] theorem writeIrqen_params (v : Word) : (s.writeIrqen v).params = s.params := rfl
@[simp] theorem writeIrqen_seq (v : Word) : (s.writeIrqen v).seq = s.seq := rfl
@[simp] theorem writeIrqen_done (v : Word) : (s.writeIrqen v).done = s.done := rfl
@[simp] theorem writeIrqen_err (v : Word) : (s.writeIrqen v).err = s.err := rfl
@[simp] theorem writeIrqen_ovr (v : Word) : (s.writeIrqen v).ovr = s.ovr := rfl
@[simp] theorem writeIrqen_errCode (v : Word) : (s.writeIrqen v).errCode = s.errCode := rfl
@[simp] theorem writeIrqen_lastOpc (v : Word) : (s.writeIrqen v).lastOpc = s.lastOpc := rfl
@[simp] theorem writeIrqen_errInfo (v : Word) : (s.writeIrqen v).errInfo = s.errInfo := rfl
@[simp] theorem writeIrqen_doneIe (v : Word) : (s.writeIrqen v).doneIe = v.getLsbD 0 := rfl
@[simp] theorem writeIrqen_errIe (v : Word) : (s.writeIrqen v).errIe = v.getLsbD 1 := rfl
@[simp] theorem writeIrqen_arg0 (v : Word) : (s.writeIrqen v).arg0 = s.arg0 := rfl
@[simp] theorem writeIrqen_arg1 (v : Word) : (s.writeIrqen v).arg1 = s.arg1 := rfl
@[simp] theorem writeIrqen_result (v : Word) : (s.writeIrqen v).result = s.result := rfl
@[simp] theorem writeIrqen_ilen (v : Word) : (s.writeIrqen v).ilen = s.ilen := rfl
@[simp] theorem writeIrqen_olen (v : Word) : (s.writeIrqen v).olen = s.olen := rfl
@[simp] theorem writeIrqen_ftab (v : Word) : (s.writeIrqen v).ftab = s.ftab := rfl
@[simp] theorem writeIrqen_treeValid (v : Word) : (s.writeIrqen v).treeValid = s.treeValid := rfl
@[simp] theorem writeIrqen_tree (v : Word) : (s.writeIrqen v).tree = s.tree := rfl
@[simp] theorem writeIrqen_mapValid (v : Word) : (s.writeIrqen v).mapValid = s.mapValid := rfl
@[simp] theorem writeIrqen_map (v : Word) : (s.writeIrqen v).map = s.map := rfl
@[simp] theorem writeIrqen_bits (v : Word) : (s.writeIrqen v).bits = s.bits := rfl
@[simp] theorem writeIrqen_mem (v : Word) : (s.writeIrqen v).mem = s.mem := rfl
@[simp] theorem writeIrqen_turns (v : Word) : (s.writeIrqen v).turns = s.turns := rfl
@[simp] theorem writeIrqen_rdata (v : Word) : (s.writeIrqen v).rdata = s.rdata := rfl
@[simp] theorem writeIrqen_draws (v : Word) : (s.writeIrqen v).draws = s.draws := rfl

/-! ### State.hardwareReset -/

@[simp] theorem hardwareReset_params : s.hardwareReset.params = s.params := rfl
@[simp] theorem hardwareReset_seq : s.hardwareReset.seq = .idle := rfl
@[simp] theorem hardwareReset_done : s.hardwareReset.done = false := rfl
@[simp] theorem hardwareReset_err : s.hardwareReset.err = false := rfl
@[simp] theorem hardwareReset_ovr : s.hardwareReset.ovr = false := rfl
@[simp] theorem hardwareReset_errCode : s.hardwareReset.errCode = 0 := rfl
@[simp] theorem hardwareReset_lastOpc : s.hardwareReset.lastOpc = 0 := rfl
@[simp] theorem hardwareReset_errInfo : s.hardwareReset.errInfo = 0 := rfl
@[simp] theorem hardwareReset_doneIe : s.hardwareReset.doneIe = false := rfl
@[simp] theorem hardwareReset_errIe : s.hardwareReset.errIe = false := rfl
@[simp] theorem hardwareReset_arg0 : s.hardwareReset.arg0 = 0 := rfl
@[simp] theorem hardwareReset_arg1 : s.hardwareReset.arg1 = 0 := rfl
@[simp] theorem hardwareReset_result : s.hardwareReset.result = 0 := rfl
@[simp] theorem hardwareReset_ilen : s.hardwareReset.ilen = 0 := rfl
@[simp] theorem hardwareReset_olen : s.hardwareReset.olen = 0 := rfl
@[simp] theorem hardwareReset_ftab : s.hardwareReset.ftab = emptyTable := rfl
@[simp] theorem hardwareReset_treeValid : s.hardwareReset.treeValid = false := rfl
@[simp] theorem hardwareReset_tree : s.hardwareReset.tree = none := rfl
@[simp] theorem hardwareReset_mapValid : s.hardwareReset.mapValid = false := rfl
@[simp] theorem hardwareReset_map : s.hardwareReset.map = emptyMap := rfl
@[simp] theorem hardwareReset_bits : s.hardwareReset.bits = [] := rfl
@[simp] theorem hardwareReset_mem : s.hardwareReset.mem = [] := rfl
@[simp] theorem hardwareReset_turns : s.hardwareReset.turns = s.turns := rfl
@[simp] theorem hardwareReset_rdata : s.hardwareReset.rdata = s.rdata := rfl
@[simp] theorem hardwareReset_draws : s.hardwareReset.draws = s.draws := rfl

end Sys2Proof.Machine
end

