-- ==== Sys2Proof/Laws/Bits.lean ====
section
/-! SUPPORT. Packing bits into bytes and back (30_encoding.md R156, R160). -/

namespace Sys2Proof.Machine

@[simp] theorem byteBits_length (b : Byte) : (byteBits b).length = 8 := by simp [byteBits]

theorem byteOfBits_byteBits : ∀ b : Byte, byteOfBits (byteBits b) = b := by decide +kernel

theorem byteBits_getD (b : Byte) (j : Nat) (h : j < 8) :
    (byteBits b).getD j false = b.getLsbD (7 - j) := by
  simp [byteBits, List.getD, h]

/-- A byte of bits, padded with 0, is the bits followed by zeros. -/
theorem byteBits_byteOfBits (bs : List Bool) (h : bs.length ≤ 8) :
    byteBits (byteOfBits bs) = bs ++ List.replicate (8 - bs.length) false := by
  rcases bs with _ | ⟨a, _ | ⟨b, _ | ⟨c, _ | ⟨d, _ | ⟨e, _ | ⟨f, _ | ⟨g, _ | ⟨i, _ | ⟨j, l⟩⟩⟩⟩⟩⟩⟩⟩⟩
  · decide +kernel
  · revert a; decide +kernel
  · revert a b; decide +kernel
  · revert a b c; decide +kernel
  · revert a b c d; decide +kernel
  · revert a b c d e; decide +kernel
  · revert a b c d e f; decide +kernel
  · revert a b c d e f g; decide +kernel
  · revert a b c d e f g i; decide +kernel
  · simp at h; omega

@[simp] theorem packBytes_length (n : Nat) : ∀ bits, (packBytes n bits).length = n := by
  induction n with
  | zero => intro bits; rfl
  | succ n ih => intro bits; simp [packBytes, ih]

@[simp] theorem packBits_length (bits : List Bool) :
    (packBits bits).length = ceilDiv8 bits.length := packBytes_length _ _

/-- Byte `k` of the packing is storage byte `k` (30_encoding.md R160). -/
theorem packBytes_getElem? (n : Nat) : ∀ (bits : List Bool) (k : Nat),
    (packBytes n bits)[k]? = if k < n then some (storeByte bits k) else none := by
  induction n with
  | zero => intro bits k; simp [packBytes]
  | succ n ih =>
    intro bits k
    cases k with
    | zero => simp [packBytes, storeByte]
    | succ k =>
      simp only [packBytes, List.getElem?_cons_succ, ih, storeByte, List.drop_drop]
      simp [Nat.mul_add, Nat.add_comm]

theorem packBits_getElem? (bits : List Bool) (k : Nat) :
    (packBits bits)[k]? =
      if k < ceilDiv8 bits.length then some (storeByte bits k) else none :=
  packBytes_getElem? _ _ _

/-- Unpacking a packing gives the bits back, followed by zero padding. -/
theorem unpack_packBytes (n : Nat) : ∀ bits : List Bool, bits.length ≤ 8 * n →
    unpackBits (packBytes n bits) = bits ++ List.replicate (8 * n - bits.length) false := by
  induction n with
  | zero => intro bits h; simp at h; simp [packBytes, unpackBits, h]
  | succ n ih =>
    intro bits h
    have h1 : (bits.drop 8).length ≤ 8 * n := by simp; omega
    have h2 := ih (bits.drop 8) h1
    rw [packBytes, unpackBits, List.flatMap_cons, byteBits_byteOfBits _ (by simp)]
    rw [unpackBits] at h2
    rw [h2]
    by_cases hl : 8 ≤ bits.length
    · have : (bits.take 8).length = 8 := by simp [hl]
      simp only [this, Nat.sub_self, List.replicate_zero, List.append_nil]
      rw [← List.append_assoc, List.take_append_drop]
      congr 2; simp; omega
    · have e1 : bits.drop 8 = [] := List.drop_eq_nil_of_le (by omega)
      have e2 : bits.take 8 = bits := List.take_of_length_le (by omega)
      rw [e1, e2]
      simp only [List.nil_append, List.append_assoc, List.length_nil, Nat.sub_zero]
      rw [List.replicate_append_replicate]
      congr 2; omega

theorem le_ceilDiv8 (n : Nat) : n ≤ 8 * ceilDiv8 n := by unfold ceilDiv8; omega

theorem unpack_packBits (bits : List Bool) :
    unpackBits (packBits bits) =
      bits ++ List.replicate (8 * ceilDiv8 bits.length - bits.length) false :=
  unpack_packBytes _ _ (le_ceilDiv8 _)

@[simp] theorem unpackBits_length (bs : List Byte) : (unpackBits bs).length = 8 * bs.length := by
  induction bs with
  | nil => rfl
  | cons b bs ih => simp only [unpackBits, List.flatMap_cons] at ih ⊢; simp [ih]; omega

/-- Bit `j` of a byte string, most significant first per byte (30_encoding.md R156). -/
theorem unpackBits_getElem? : ∀ (bs : List Byte) (j : Nat),
    (unpackBits bs)[j]? = bs[j / 8]?.map (fun b => b.getLsbD (7 - j % 8)) := by
  intro bs
  induction bs with
  | nil => intro j; rfl
  | cons b bs ih =>
    intro j
    simp only [unpackBits, List.flatMap_cons] at ih ⊢
    by_cases h : j < 8
    · rw [List.getElem?_append_left (by simpa [byteBits] using h)]
      have e : j / 8 = 0 := by omega
      simp [byteBits, h, e, Nat.mod_eq_of_lt h]
    · rw [List.getElem?_append_right (by simp [byteBits]; omega)]
      have e : j / 8 = (j - 8) / 8 + 1 := by omega
      have e2 : (j - 8) % 8 = j % 8 := by omega
      simp only [byteBits, List.length_map, List.length_range, ih, e, e2, List.getElem?_cons_succ]

/-- Packing the bits of a byte string gives the byte string back. -/
theorem pack_unpackBits (bs : List Byte) : packBytes bs.length (unpackBits bs) = bs := by
  induction bs with
  | nil => rfl
  | cons b bs ih =>
    have h1 : (unpackBits (b :: bs)).take 8 = byteBits b := by
      simp [unpackBits]
    have h2 : (unpackBits (b :: bs)).drop 8 = unpackBits bs := by
      simp [unpackBits]
    rw [List.length_cons, packBytes, h1, h2, byteOfBits_byteBits, ih]

/-- Zero bits past the end do not change a packing. -/
theorem byteOfBits_append_zeros (bs : List Bool) (n : Nat) (h : bs.length + n ≤ 8) :
    byteOfBits (bs ++ List.replicate n false) = byteOfBits bs := by
  have h1 := byteBits_byteOfBits bs (by omega)
  have h2 := byteBits_byteOfBits (bs ++ List.replicate n false) (by simp; omega)
  rw [← byteOfBits_byteBits (byteOfBits (bs ++ List.replicate n false)),
    ← byteOfBits_byteBits (byteOfBits bs), h1, h2]
  congr 1
  simp only [List.length_append, List.length_replicate, List.append_assoc,
    List.replicate_append_replicate]
  congr 2; omega

/-- Bit `j` of storage byte `k`, most significant first (30_encoding.md R160, 44_bit_sequence.md
R260); bits past the end are 0. -/
theorem storeByte_getLsbD (bits : List Bool) (k j : Nat) (h : j < 8) :
    (storeByte bits k).getLsbD (7 - j) = bits.getD (8 * k + j) false := by
  rw [← byteBits_getD _ _ h, storeByte, byteBits_byteOfBits _ (by simp)]
  by_cases h2 : 8 * k + j < bits.length
  · rw [List.getD_append _ _ _ _ (by simp; omega)]
    simp [List.getD, h]
  · rw [List.getD_append_right _ _ _ _ (by simp; omega), List.getD_eq_default bits _ (by omega)]
    simp only [List.getD, List.getElem?_replicate]
    split <;> rfl


/-- Bytes are equal when their bits, most significant first, are. -/
theorem byte_ext {a b : Byte} (h : ∀ j, j < 8 → a.getLsbD (7 - j) = b.getLsbD (7 - j)) : a = b := by
  apply BitVec.eq_of_getLsbD_eq
  intro i hi
  have := h (7 - i) (by omega)
  rwa [show 7 - (7 - i) = i by omega] at this

end Sys2Proof.Machine
end

