-- ==== Sys2Proof/Laws/Table.lean ====
section
/-! SUPPORT. The register files of 256 entries: reading a tabulated file, the entries and the sum of
a table. -/

namespace Sys2Proof.Machine

@[simp] theorem toWord_toNat (w : Word) : toWord w.toNat = w := by simp [toWord]

theorem toNat_toWord {n : Nat} (h : n < 2 ^ 64) : (toWord n).toNat = n := by
  simp [toWord]; omega

@[simp] theorem allBytes_length : allBytes.length = 256 := by simp [allBytes]

theorem allBytes_getElem? (k : Nat) (h : k < 256) : allBytes[k]? = some (BitVec.ofNat 8 k) := by
  simp [allBytes, h]

theorem byte_ofNat_toNat (v : Byte) : BitVec.ofNat 8 v.toNat = v := by simp

theorem mem_allBytes (v : Byte) : v ∈ allBytes := by
  have h := allBytes_getElem? v.toNat v.isLt
  rw [byte_ofNat_toNat] at h
  exact List.mem_of_getElem? h

theorem allBytes_ascending : allBytes.Pairwise (fun u v => u.toNat < v.toNat) := by
  decide +kernel

theorem allBytes_nodup : allBytes.Nodup :=
  allBytes_ascending.imp (fun h e => by subst e; omega)

@[simp] theorem tabulate_length {α : Type} (f : Byte → α) : (tabulate f).length = 256 := by
  simp [tabulate]

theorem tabulate_getD {α : Type} (f : Byte → α) (v : Byte) (d : α) :
    (tabulate f).getD v.toNat d = f v := by
  simp [tabulate, List.getD, allBytes_getElem? v.toNat v.isLt]

@[simp] theorem tableGet_tabulate (f : Byte → Word) (v : Byte) : tableGet (tabulate f) v = f v :=
  tabulate_getD f v 0

@[simp] theorem codeGet_tabulate (f : Byte → Code) (v : Byte) : codeGet (tabulate f) v = f v :=
  tabulate_getD f v []

theorem tabulate_of_length {α : Type} (L : List α) (d : α) (h : L.length = 256) :
    tabulate (fun v => L.getD v.toNat d) = L := by
  apply List.ext_getElem?
  intro k
  by_cases hk : k < 256
  · rw [tabulate, List.getElem?_map, allBytes_getElem? k hk]
    have h1 : (BitVec.ofNat 8 k).toNat = k := by simp; omega
    simp [h1, List.getD, List.getElem?_eq_getElem (by omega : k < L.length)]
  · rw [List.getElem?_eq_none (by simp; omega), List.getElem?_eq_none (by omega)]

theorem table_eq_tabulate {F : List Word} (h : F.length = 256) : tabulate (tableGet F) = F :=
  tabulate_of_length F 0 h

theorem map_eq_tabulate {M : List Code} (h : M.length = 256) : tabulate (codeGet M) = M :=
  tabulate_of_length M [] h

theorem table_ext {F G : List Word} (hF : F.length = 256) (hG : G.length = 256)
    (h : ∀ v, tableGet F v = tableGet G v) : F = G := by
  rw [← table_eq_tabulate hF, ← table_eq_tabulate hG]
  exact congrArg tabulate (funext h)

@[simp] theorem emptyTable_length : emptyTable.length = 256 := List.length_replicate

@[simp] theorem emptyMap_length : emptyMap.length = 256 := List.length_replicate

theorem emptyTable_eq : emptyTable = tabulate (fun _ => 0) := by decide +kernel

theorem emptyMap_eq : emptyMap = tabulate (fun _ => []) := by decide +kernel

@[simp] theorem tableGet_emptyTable (v : Byte) : tableGet emptyTable v = 0 := by
  rw [emptyTable_eq, tableGet_tabulate]

@[simp] theorem longestCode_emptyMap : longestCode emptyMap = 0 := by decide +kernel

@[simp] theorem codeGet_emptyMap (v : Byte) : codeGet emptyMap v = [] := by
  rw [emptyMap_eq, codeGet_tabulate]

/-! ### Entries -/

theorem zip_allBytes (f : Byte → Word) :
    allBytes.zip (tabulate f) = allBytes.map (fun v => (v, f v)) := by
  rw [tabulate]
  induction allBytes with
  | nil => rfl
  | cons a l ih => simp [ih]

/-- What a table holds past its entry 255, or lacks before it, is no entry. -/
theorem tableEntries_tabulate (F : List Word) : tableEntries (tabulate (tableGet F)) = tableEntries F := by
  have h : ∀ (n k : Nat), k + n = 256 → ((List.range' k n).map (BitVec.ofNat 8)).zip (F.drop k) =
      (((List.range' k n).map (BitVec.ofNat 8)).map (fun v => (v, tableGet F v))).take
        (F.length - k) := by
    intro n
    induction n with
    | zero => intro k _; simp
    | succ n ih =>
      intro k hk
      by_cases hl : k < F.length
      · rw [List.drop_eq_getElem_cons hl, List.range'_succ, List.map_cons, List.zip_cons_cons,
          ih (k + 1) (by omega), List.map_cons, show F.length - k = F.length - (k + 1) + 1 by omega,
          List.take_succ_cons]
        congr 2
        have hb : (BitVec.ofNat 8 k).toNat = k := by simp; omega
        rw [tableGet, hb, List.getD_eq_getElem?_getD, List.getElem?_eq_getElem hl]
        rfl
      · rw [List.drop_eq_nil_of_le (by omega), show F.length - k = 0 by omega]
        simp
  have h0 := h 256 0 rfl
  rw [List.drop_zero, Nat.sub_zero, ← List.range_eq_range'] at h0
  have hz : allBytes.zip F = (allBytes.map (fun v => (v, tableGet F v))).take F.length := h0
  rw [tableEntries, tableEntries, zip_allBytes, hz]
  conv => lhs; rw [← List.take_append_drop F.length (allBytes.map _)]
  rw [List.filter_append, List.append_right_eq_self, List.filter_eq_nil_iff]
  intro e he
  obtain ⟨i, hi⟩ := List.mem_iff_getElem?.1 he
  rw [List.getElem?_drop, List.getElem?_map] at hi
  by_cases h256 : F.length + i < 256
  · rw [allBytes_getElem? _ h256] at hi
    cases hi
    have hb : (BitVec.ofNat 8 (F.length + i)).toNat = F.length + i := by simp; omega
    simp only [tableGet, hb, List.getD_eq_getElem?_getD]
    simp
  · rw [List.getElem?_eq_none (by simp; omega)] at hi
    cases hi

/-- The entries of a table are its byte values with a positive count, each with that count. -/
theorem tableEntries_eq (F : List Word) :
    tableEntries F =
      (allBytes.filter (fun v => decide (tableGet F v ≠ 0))).map (fun v => (v, tableGet F v)) := by
  rw [← tableEntries_tabulate F, tableEntries, zip_allBytes, List.filter_map]
  rfl

theorem mem_tableEntries {F : List Word} (v : Byte) (c : Word) :
    (v, c) ∈ tableEntries F ↔ c ≠ 0 ∧ tableGet F v = c := by
  rw [tableEntries_eq, List.mem_map]
  constructor
  · rintro ⟨u, hu, e⟩
    have h1 := (List.mem_filter.1 hu).2
    have e1 : u = v := congrArg Prod.fst e
    have e2 : tableGet F u = c := congrArg Prod.snd e
    subst e1 e2
    exact ⟨by simpa using h1, rfl⟩
  · rintro ⟨hc, rfl⟩
    exact ⟨v, List.mem_filter.2 ⟨mem_allBytes v, by simpa using hc⟩, rfl⟩

theorem zip_keys_sublist {α : Type} : ∀ (l : List Byte) (F : List α),
    ((l.zip F).map Prod.fst).Sublist l := by
  intro l
  induction l with
  | nil => intro F; simp
  | cons a l ih =>
    intro F
    cases F with
    | nil => simp
    | cons x F => simpa using ih F

theorem tableEntries_keys_sublist (F : List Word) :
    ((tableEntries F).map Prod.fst).Sublist allBytes :=
  (List.filter_sublist.map Prod.fst).trans (zip_keys_sublist _ _)

/-- Byte values of the entries rise strictly (30_encoding.md R155). -/
theorem tableEntries_ascending (F : List Word) :
    (tableEntries F).Pairwise (fun d e => d.1.toNat < e.1.toNat) := by
  have h := allBytes_ascending.sublist (tableEntries_keys_sublist F)
  exact (List.pairwise_map (f := Prod.fst) (R := fun u v : Byte => u.toNat < v.toNat)).1 h

theorem tableEntries_length_le (F : List Word) : (tableEntries F).length ≤ 256 := by
  have h := (tableEntries_keys_sublist F).length_le
  simpa using h

theorem tableEntries_positive {F : List Word} {e : Byte × Word} (h : e ∈ tableEntries F) :
    e.2 ≠ 0 := by
  simpa using (List.mem_filter.1 h).2

@[simp] theorem tableEntries_emptyTable : tableEntries emptyTable = [] := by decide +kernel

/-! ### Sums -/

theorem tableSum_eq {F : List Word} (h : F.length = 256) :
    tableSum F = (allBytes.map (fun v => (tableGet F v).toNat)).sum := by
  conv => lhs; rw [← table_eq_tabulate h]
  simp [tableSum, tabulate, Function.comp_def]

/-- The counts of the entries sum to the table's sum. -/
theorem entries_sum {F : List Word} (h : F.length = 256) :
    ((tableEntries F).map (fun e => e.2.toNat)).sum = tableSum F := by
  rw [tableSum_eq h, tableEntries_eq]
  induction allBytes with
  | nil => rfl
  | cons a l ih =>
    rw [List.filter_cons]
    by_cases ha : tableGet F a = 0
    · rw [if_neg (by simpa using ha)]
      simpa [ha] using ih
    · rw [if_pos (by simpa using ha), List.map_cons, List.map_cons, List.sum_cons, ih]
      simp

@[simp] theorem tableSum_emptyTable : tableSum emptyTable = 0 := by decide +kernel

theorem le_sum_of_mem' {l : List Nat} {n : Nat} (h : n ∈ l) : n ≤ l.sum := by
  induction l with
  | nil => cases h
  | cons a l ih =>
    rcases List.mem_cons.1 h with rfl | h
    · simp
    · have := ih h; simp; omega

theorem tableGet_le_sum {F : List Word} (h : F.length = 256) (v : Byte) :
    (tableGet F v).toNat ≤ tableSum F := by
  rw [tableSum_eq h]
  exact le_sum_of_mem' (List.mem_map.2 ⟨v, mem_allBytes v, rfl⟩)

theorem sum_indicator (b : Byte) : (allBytes.map (fun v => if b = v then 1 else 0)).sum = 1 := by
  revert b
  decide +kernel

/-- The counts of the byte values of a byte string sum to its length (41_frequency_analyzer.md
R201). -/
theorem sum_count (bs : List Byte) : (allBytes.map (fun v => bs.count v)).sum = bs.length := by
  induction bs with
  | nil => decide +kernel
  | cons b bs ih =>
    have h : ∀ l : List Byte, (l.map (fun v => (b :: bs).count v)).sum =
        (l.map (fun v => bs.count v)).sum + (l.map (fun v => if b = v then 1 else 0)).sum := by
      intro l
      induction l with
      | nil => rfl
      | cons a l ih' =>
        simp only [List.map_cons, List.sum_cons, List.count_cons]
        by_cases hab : b = a <;> simp [hab] <;> omega
    rw [h, ih, sum_indicator, List.length_cons]

theorem tableSum_counts {bs : List Byte} (h : bs.length < 2 ^ 64) :
    tableSum (tabulate (fun v => toWord (bs.count v))) = bs.length := by
  rw [tableSum_eq (tabulate_length _), ← sum_count bs]
  congr 1
  apply List.map_congr_left
  intro v _
  rw [tableGet_tabulate, toNat_toWord (Nat.lt_of_le_of_lt List.count_le_length h)]

end Sys2Proof.Machine
end

