-- ==== Sys2Proof/Laws/Codec.lean ====
section
/-! SUPPORT. The archive codec: each reader undoes its writer, and accepts nothing else
(30_encoding.md R150 to R159, 47_archive_codec.md R321 to R324). -/

namespace Sys2Proof.Machine

theorem raise_ne_ok {α : Type} {k : ErrKind} {n : Nat} {x : α} :
    (raise k n : Except CmdError α) ≠ .ok x := by simp [raise]

theorem byte_toNat_ofNat {n : Nat} (h : n < 256) : (BitVec.ofNat 8 n).toNat = n := by
  simp; omega

/-! ### Reading one byte -/

@[simp] theorem readByte_cons (p : Nat) (b : Byte) (bs : List Byte) :
    readByte ⟨p, b :: bs⟩ = .ok (b, ⟨p + 1, bs⟩) := rfl

theorem readByte_inv {c c' : Cursor} {b : Byte} (h : readByte c = .ok (b, c')) :
    c.rest = b :: c'.rest ∧ c'.pos = c.pos + 1 := by
  obtain ⟨p, bs⟩ := c
  cases bs with
  | nil => exact absurd h raise_ne_ok
  | cons x bs => cases h; simp

/-! ### Varints -/

/-- Reading a written varint gives its value. `k` bytes may follow the next one. -/
theorem readVarintFrom_bytes (s0 : Nat) (rest : List Byte) : ∀ (k v acc p : Nat), k ≤ 9 →
    (k = 9 ∨ v ≠ 0) → v * 2 ^ (7 * (9 - k)) < 2 ^ 64 →
    readVarintFrom s0 k acc ⟨p, varintBytes k v ++ rest⟩ =
      .ok (acc + v * 2 ^ (7 * (9 - k)), ⟨p + (varintBytes k v).length, rest⟩) := by
  intro k
  induction k with
  | zero =>
    intro v acc p _ hv hlt
    have hv2 : v = 1 := by
      have : v < 2 := by
        by_contra h
        have h2 : 2 * 2 ^ 63 ≤ v * 2 ^ (7 * (9 - 0)) := Nat.mul_le_mul (by omega) (by simp)
        omega
      omega
    subst hv2
    simp [varintBytes, readVarintFrom]
  | succ k ih =>
    intro v acc p hk hv hlt
    rw [varintBytes]
    by_cases h : v < 128
    · rw [if_pos h]
      have hb : (BitVec.ofNat 8 v).toNat = v := byte_toNat_ofNat (by omega)
      simp only [List.singleton_append, readVarintFrom, readByte_cons, hb, if_pos h]
      rw [if_neg, Nat.mod_eq_of_lt h]
      · rfl
      · rintro ⟨h9, h0⟩
        have : v = 0 := by rw [← hb, h0]; rfl
        omega
    · rw [if_neg h]
      have hb : (BitVec.ofNat 8 (v % 128 + 128)).toNat = v % 128 + 128 :=
        byte_toNat_ofNat (by omega)
      simp only [List.cons_append, readVarintFrom, readByte_cons, hb,
        if_neg (show ¬ (v % 128 + 128 < 128) by omega)]
      have e1 : 7 * (9 - k) = 7 * (9 - (k + 1)) + 7 := by omega
      have hdiv : 128 * (v / 128) + v % 128 = v := Nat.div_add_mod v 128
      have e2 : v / 128 * 2 ^ (7 * (9 - k)) = 128 * (v / 128) * 2 ^ (7 * (9 - (k + 1))) := by
        rw [e1, pow_add]; ring
      have hle : v / 128 * 2 ^ (7 * (9 - k)) ≤ v * 2 ^ (7 * (9 - (k + 1))) := by
        rw [e2]
        exact Nat.mul_le_mul (by omega) (Nat.le_refl _)
      rw [ih (v / 128) _ _ (by omega) (.inr (by omega)) (by omega), e2]
      have e3 : (v % 128 + 128) % 128 = v % 128 := by omega
      rw [e3]
      have e4 : acc + v % 128 * 2 ^ (7 * (9 - (k + 1))) +
          128 * (v / 128) * 2 ^ (7 * (9 - (k + 1))) = acc + v * 2 ^ (7 * (9 - (k + 1))) := by
        conv => rhs; rw [← hdiv]
        ring
      rw [e4, List.length_cons]
      congr 3
      omega

/-- Whatever the varint reader accepts is a written varint. -/
theorem readVarintFrom_inv (s0 : Nat) : ∀ (k acc : Nat) (c c' : Cursor) (n : Nat), k ≤ 9 →
    readVarintFrom s0 k acc c = .ok (n, c') →
    ∃ v, n = acc + v * 2 ^ (7 * (9 - k)) ∧ v * 2 ^ (7 * (9 - k)) < 2 ^ 64 ∧ (k = 9 ∨ v ≠ 0) ∧
      c.rest = varintBytes k v ++ c'.rest ∧ c'.pos = c.pos + (varintBytes k v).length := by
  intro k
  induction k with
  | zero =>
    intro acc c c' n _ h
    rw [readVarintFrom] at h
    split at h
    · cases h
    next b c1 hb =>
      split at h
      · exact absurd h raise_ne_ok
      next h1 =>
        split at h
        · exact absurd h raise_ne_ok
        next h2 =>
          cases h
          obtain ⟨hr, hp⟩ := readByte_inv hb
          have hb0 : b.toNat ≠ 0 := fun e => h2 (BitVec.eq_of_toNat_eq e)
          have hb1 : b.toNat = 1 := by omega
          have hbv : b = 1 := BitVec.eq_of_toNat_eq hb1
          subst hbv
          exact ⟨1, by rw [hb1], by norm_num, by simp, by simp [varintBytes, hr],
            by simpa [varintBytes] using hp⟩
  | succ k ih =>
    intro acc c c' n hk h
    rw [readVarintFrom] at h
    split at h
    · cases h
    next b c1 hb =>
      obtain ⟨hr, hp⟩ := readByte_inv hb
      split at h
      next hlt =>
        split at h
        · exact absurd h raise_ne_ok
        next h0 =>
          cases h
          refine ⟨b.toNat, ?_, ?_, ?_, ?_, ?_⟩
          · rw [Nat.mod_eq_of_lt hlt]
          · have h1 : (2 : Nat) ^ (7 * (9 - (k + 1))) ≤ 2 ^ 56 :=
              Nat.pow_le_pow_right (by omega) (by omega)
            have h2 : b.toNat * 2 ^ (7 * (9 - (k + 1))) ≤ 127 * 2 ^ 56 :=
              Nat.mul_le_mul (by omega) h1
            omega
          · by_cases h9 : k + 1 = 9
            · exact .inl h9
            · right
              intro e
              exact h0 ⟨by omega, BitVec.eq_of_toNat_eq e⟩
          · simp [varintBytes, hlt, hr]
          · simp [varintBytes, hlt, hp]
      next hge =>
        obtain ⟨v, hn, hlt, hv, hrest, hpos⟩ := ih _ _ _ _ (by omega) h
        have hv0 : v ≠ 0 := by
          rcases hv with h9 | h
          · omega
          · exact h
        have hb256 : b.toNat < 256 := b.isLt
        have e1 : 7 * (9 - k) = 7 * (9 - (k + 1)) + 7 := by omega
        have e2 : v * 2 ^ (7 * (9 - k)) = 128 * v * 2 ^ (7 * (9 - (k + 1))) := by
          rw [e1, pow_add]; ring
        have hval : (b.toNat % 128 + 128 * v) % 128 = b.toNat % 128 := by omega
        have hdiv : (b.toNat % 128 + 128 * v) / 128 = v := by omega
        have hbyte : BitVec.ofNat 8 (b.toNat % 128 + 128) = b := by
          apply BitVec.eq_of_toNat_eq
          rw [byte_toNat_ofNat (by omega)]
          omega
        have hbytes : varintBytes (k + 1) (b.toNat % 128 + 128 * v) = b :: varintBytes k v := by
          rw [varintBytes, if_neg (by omega), hval, hdiv, hbyte]
        refine ⟨b.toNat % 128 + 128 * v, ?_, ?_, .inr (by omega), ?_, ?_⟩
        · rw [hn, e2]; ring
        · -- the sum of the groups stays below 2^64, since v's share is a multiple of 2^(7 (9 - k))
          have hm : v * 2 ^ (7 * (9 - k)) + 2 ^ (7 * (9 - k)) ≤ 2 ^ 64 := by
            have hd : (2 : Nat) ^ 64 = 2 ^ (64 - 7 * (9 - k)) * 2 ^ (7 * (9 - k)) := by
              rw [← pow_add]
              congr 1
              omega
            rw [hd] at hlt ⊢
            have : v < 2 ^ (64 - 7 * (9 - k)) := Nat.lt_of_mul_lt_mul_right hlt
            calc v * 2 ^ (7 * (9 - k)) + 2 ^ (7 * (9 - k)) = (v + 1) * 2 ^ (7 * (9 - k)) := by ring
              _ ≤ _ := Nat.mul_le_mul (by omega) (Nat.le_refl _)
          have hs : b.toNat % 128 * 2 ^ (7 * (9 - (k + 1))) < 2 ^ (7 * (9 - k)) := by
            rw [e1, pow_add, Nat.mul_comm (2 ^ _)]
            exact Nat.mul_lt_mul_of_pos_right (by omega) (by positivity)
          rw [Nat.add_mul, ← e2]
          omega
        · rw [hbytes, hr, hrest, List.cons_append]
        · rw [hbytes, hpos, hp, List.length_cons]
          omega

theorem varint_length_pos (v : Word) : 0 < (varint v).length := by
  rw [varint, varintBytes]
  split <;> simp

/-- `readVarint` of a written varint (30_encoding.md R153, R154). -/
theorem readVarint_varint (v : Word) (p : Nat) (rest : List Byte) :
    readVarint ⟨p, varint v ++ rest⟩ = .ok (v.toNat, ⟨p + (varint v).length, rest⟩) := by
  have := readVarintFrom_bytes p rest 9 v.toNat 0 p (by omega) (.inl rfl)
    (by have := v.isLt; simpa using this)
  simpa [readVarint, varint] using this

/-- Whatever `readVarint` accepts is a written varint of a 64-bit value. -/
theorem readVarint_inv {c c' : Cursor} {n : Nat} (h : readVarint c = .ok (n, c')) :
    n < 2 ^ 64 ∧ c.rest = varint (toWord n) ++ c'.rest ∧
      c'.pos = c.pos + (varint (toWord n)).length := by
  obtain ⟨v, hn, hlt, _, hrest, hpos⟩ := readVarintFrom_inv _ 9 0 c c' n (by omega) h
  simp at hn hlt
  subst hn
  have : (toWord n).toNat = n := toNat_toWord (by omega)
  refine ⟨by omega, ?_, ?_⟩
  · rw [varint, this]; exact hrest
  · rw [varint, this]; exact hpos

/-! ### The header -/

theorem readHeader_ok (ms : List Byte) : ∀ (k p : Nat) (rest : List Byte),
    readHeader k ms ⟨p, ms ++ rest⟩ = .ok ⟨p + ms.length, rest⟩ := by
  induction ms with
  | nil => intro k p rest; rfl
  | cons m ms ih =>
    intro k p rest
    simp only [List.cons_append, readHeader, readByte_cons, ne_eq, not_true, if_false, ih,
      List.length_cons]
    congr 2
    omega

theorem readHeader_inv (ms : List Byte) : ∀ (k : Nat) (c c' : Cursor),
    readHeader k ms c = .ok c' → c.rest = ms ++ c'.rest ∧ c'.pos = c.pos + ms.length := by
  induction ms with
  | nil => intro k c c' h; cases h; simp
  | cons m ms ih =>
    intro k c c' h
    rw [readHeader] at h
    split at h
    · cases h
    next b c1 hb =>
      split at h
      · exact absurd h raise_ne_ok
      next hbm =>
        obtain ⟨hr, hp⟩ := readByte_inv hb
        obtain ⟨h1, h2⟩ := ih _ _ _ h
        have hbm' : b = m := by simpa using hbm
        refine ⟨by simp [h1, hr, hbm'], ?_⟩
        rw [h2, hp, List.length_cons]
        omega

/-! ### Entries -/

/-- The bytes of a list of entries (47_archive_codec.md R321). -/
def entryBytes (es : List (Byte × Word)) : List Byte := es.flatMap (fun e => e.1 :: varint e.2)

theorem entryBytes_cons (e : Byte × Word) (es : List (Byte × Word)) :
    entryBytes (e :: es) = e.1 :: (varint e.2 ++ entryBytes es) := by simp [entryBytes]

/-- Entries read as byte value and exact count. -/
def entryNats (es : List (Byte × Word)) : List (Byte × Nat) := es.map (fun e => (e.1, e.2.toNat))

theorem readEntries_ok : ∀ (es : List (Byte × Word)) (least sum p : Nat) (rest : List Byte),
    es.Pairwise (fun d e => d.1.toNat < e.1.toNat) → (∀ e ∈ es, least ≤ e.1.toNat) →
    (∀ e ∈ es, e.2 ≠ 0) → sum + (es.map (fun e => e.2.toNat)).sum < 2 ^ 64 →
    readEntries es.length least sum ⟨p, entryBytes es ++ rest⟩ =
      .ok (entryNats es, ⟨p + (entryBytes es).length, rest⟩) := by
  intro es
  induction es with
  | nil => intro least sum p rest _ _ _ _; rfl
  | cons e es ih =>
    intro least sum p rest hasc hleast hpos hsum
    obtain ⟨v, c⟩ := e
    rw [List.map_cons, List.sum_cons] at hsum
    have hc : c.toNat ≠ 0 := fun e => hpos (v, c) List.mem_cons_self (BitVec.eq_of_toNat_eq e)
    have hv : least ≤ v.toNat := hleast (v, c) List.mem_cons_self
    have hasc' := List.pairwise_cons.1 hasc
    simp only [List.length_cons, readEntries, entryBytes_cons, List.cons_append, readByte_cons,
      if_neg (show ¬ (v.toNat < least) by omega), List.append_assoc, readVarint_varint, if_neg hc,
      if_neg (show ¬ (2 ^ 64 - 1 < sum + c.toNat) by simp only at hsum; omega)]
    rw [ih (v.toNat + 1) (sum + c.toNat) _ rest hasc'.2 (fun x hx => hasc'.1 x hx)
      (fun x hx => hpos x (List.mem_cons_of_mem _ hx)) (by simp only at hsum; omega)]
    simp only [entryNats, List.map_cons, List.length_append]
    congr 3
    omega

theorem readEntries_inv : ∀ (m least sum : Nat) (c c' : Cursor) (es : List (Byte × Nat)),
    readEntries m least sum c = .ok (es, c') →
    ∃ ws : List (Byte × Word), es = entryNats ws ∧ ws.length = m ∧
      ws.Pairwise (fun d e => d.1.toNat < e.1.toNat) ∧ (∀ e ∈ ws, least ≤ e.1.toNat) ∧
      (∀ e ∈ ws, e.2 ≠ 0) ∧ (ws = [] ∨ sum + (ws.map (fun e => e.2.toNat)).sum < 2 ^ 64) ∧
      c.rest = entryBytes ws ++ c'.rest ∧ c'.pos = c.pos + (entryBytes ws).length := by
  intro m
  induction m with
  | zero => intro least sum c c' es h; cases h; exact ⟨[], rfl, rfl, by simp, by simp, by simp, by simp, rfl, rfl⟩
  | succ m ih =>
    intro least sum c c' es h
    rw [readEntries] at h
    split at h
    · cases h
    next v c1 hb =>
      split at h
      · exact absurd h raise_ne_ok
      next hle =>
        split at h
        · cases h
        next n c2 hvar =>
          split at h
          · exact absurd h raise_ne_ok
          next hn0 =>
            split at h
            · exact absurd h raise_ne_ok
            next hsum =>
              split at h
              · cases h
              next es' c3 hes =>
                cases h
                obtain ⟨ws, rfl, hlen, hasc, hleast, hpos, hs, hrest, hp⟩ := ih _ _ _ _ _ hes
                obtain ⟨hc, hcp⟩ := readByte_inv hb
                obtain ⟨hn, hr2, hp2⟩ := readVarint_inv hvar
                have hnw : (toWord n).toNat = n := toNat_toWord hn
                refine ⟨(v, toWord n) :: ws, by simp [entryNats, hnw], by simp [hlen], ?_, ?_, ?_,
                  .inr ?_, ?_, ?_⟩
                · exact List.pairwise_cons.2 ⟨fun x hx => hleast x hx, hasc⟩
                · intro e he
                  rcases List.mem_cons.1 he with rfl | he
                  · simp only; omega
                  · have := hleast e he; omega
                · intro e he
                  rcases List.mem_cons.1 he with rfl | he
                  · intro e0
                    have e0' : toWord n = 0 := e0
                    rw [e0'] at hnw
                    exact hn0 hnw.symm
                  · exact hpos e he
                · rw [List.map_cons, List.sum_cons]
                  simp only [hnw]
                  rcases hs with rfl | hs
                  · simp; omega
                  · omega
                · rw [hc, entryBytes_cons]
                  simp only [hr2, hrest, List.cons_append, List.append_assoc]
                · rw [entryBytes_cons, hp, hp2, hcp]
                  simp only [List.length_cons, List.length_append]
                  omega

/-! ### The table of the entries -/

theorem tableOf_foldl_absent {v : Byte} : ∀ (es : List (Byte × Nat)) (n : Nat),
    v ∉ es.map Prod.fst → es.foldl (fun n e => if e.1 = v then e.2 else n) n = n := by
  intro es
  induction es with
  | nil => intro n _; rfl
  | cons e es ih =>
    intro n h
    simp only [List.map_cons, List.mem_cons, not_or] at h
    rw [List.foldl_cons, if_neg (Ne.symm h.1)]
    exact ih n h.2

theorem tableOf_foldl_mem {v : Byte} {c : Nat} : ∀ (es : List (Byte × Nat)) (n : Nat),
    (es.map Prod.fst).Nodup → (v, c) ∈ es →
    es.foldl (fun n e => if e.1 = v then e.2 else n) n = c := by
  intro es
  induction es with
  | nil => intro n _ h; cases h
  | cons e es ih =>
    intro n hnd hm
    rw [List.map_cons, List.nodup_cons] at hnd
    rw [List.foldl_cons]
    rcases List.mem_cons.1 hm with rfl | hm
    · rw [if_pos rfl]
      exact tableOf_foldl_absent es c hnd.1
    · exact ih _ hnd.2 hm

@[simp] theorem tableOf_length (es : List (Byte × Nat)) : (tableOf es).length = 256 :=
  tabulate_length _

theorem entryNats_keys (ws : List (Byte × Word)) :
    (entryNats ws).map Prod.fst = ws.map Prod.fst := by simp [entryNats, Function.comp_def]

theorem keys_nodup {ws : List (Byte × Word)}
    (h : ws.Pairwise (fun d e => d.1.toNat < e.1.toNat)) : (ws.map Prod.fst).Nodup :=
  List.pairwise_map.2 (h.imp (fun {a b} hlt e => by rw [e] at hlt; exact absurd hlt (Nat.lt_irrefl _)))

theorem tableGet_tableOf_mem {ws : List (Byte × Word)}
    (h : ws.Pairwise (fun d e => d.1.toNat < e.1.toNat)) {v : Byte} {c : Word} (hm : (v, c) ∈ ws) :
    tableGet (tableOf (entryNats ws)) v = c := by
  rw [tableOf, tableGet_tabulate, tableOf_foldl_mem (c := c.toNat)]
  · simp
  · rw [entryNats_keys]; exact keys_nodup h
  · exact List.mem_map.2 ⟨(v, c), hm, rfl⟩

theorem tableGet_tableOf_absent {ws : List (Byte × Word)} {v : Byte}
    (hm : v ∉ ws.map Prod.fst) : tableGet (tableOf (entryNats ws)) v = 0 := by
  rw [tableOf, tableGet_tabulate, tableOf_foldl_absent]
  · rfl
  · rwa [entryNats_keys]

/-- Two lists of entries with rising byte values and the same members are equal. -/
theorem entries_ext {ws ws' : List (Byte × Word)}
    (h : ws.Pairwise (fun d e => d.1.toNat < e.1.toNat))
    (h' : ws'.Pairwise (fun d e => d.1.toNat < e.1.toNat)) (hm : ∀ e, e ∈ ws ↔ e ∈ ws') :
    ws = ws' := by
  have nd : ∀ l : List (Byte × Word), l.Pairwise (fun d e => d.1.toNat < e.1.toNat) → l.Nodup :=
    fun l hl => hl.imp (fun {a b} hlt e => by rw [e] at hlt; exact absurd hlt (Nat.lt_irrefl _))
  have hp : ws.Perm ws' := (List.perm_ext_iff_of_nodup (nd ws h) (nd ws' h')).2 hm
  exact hp.eq_of_pairwise (fun a b _ _ h1 h2 => absurd h1 (Nat.lt_asymm h2)) h h'

/-- The table of rising positive entries has exactly those entries. -/
theorem tableEntries_tableOf {ws : List (Byte × Word)}
    (h : ws.Pairwise (fun d e => d.1.toNat < e.1.toNat)) (hpos : ∀ e ∈ ws, e.2 ≠ 0) :
    tableEntries (tableOf (entryNats ws)) = ws := by
  apply entries_ext (tableEntries_ascending _) h
  rintro ⟨v, c⟩
  rw [mem_tableEntries]
  constructor
  · rintro ⟨hc, he⟩
    by_cases hv : v ∈ ws.map Prod.fst
    · obtain ⟨⟨u, d⟩, hd, rfl⟩ := List.mem_map.1 hv
      rw [tableGet_tableOf_mem h hd] at he
      rwa [← he]
    · rw [tableGet_tableOf_absent hv] at he
      exact absurd he.symm hc
  · intro hm
    exact ⟨hpos _ hm, tableGet_tableOf_mem h hm⟩

/-- A table is the table of its entries. -/
theorem tableOf_tableEntries {F : List Word} (hl : F.length = 256) :
    tableOf (entryNats (tableEntries F)) = F := by
  apply table_ext (tableOf_length _) hl
  intro v
  by_cases hv : tableGet F v = 0
  · rw [hv]
    apply tableGet_tableOf_absent
    intro hm
    obtain ⟨⟨u, c⟩, hc, rfl⟩ := List.mem_map.1 hm
    have := (mem_tableEntries u c).1 hc
    exact this.1 (this.2.symm.trans hv)
  · exact tableGet_tableOf_mem (tableEntries_ascending F)
      ((mem_tableEntries v _).2 ⟨hv, rfl⟩)

/-! ### The payload -/

theorem readPayload_ok (bits : List Bool) (p : Nat) :
    readPayload bits.length ⟨p, packBits bits⟩ = .ok bits := by
  have hlen := packBits_length bits
  have htake : (packBits bits).take (ceilDiv8 bits.length) = packBits bits :=
    List.take_of_length_le (by omega)
  rw [readPayload]
  simp only [hlen, htake, Nat.lt_irrefl, if_false, ne_eq, not_true]
  rw [if_neg, unpack_packBits, List.take_left]
  rw [unpack_packBits, List.drop_left]
  simp

theorem readPayload_inv {B : Nat} {c : Cursor} {bits : List Bool}
    (h : readPayload B c = .ok bits) : bits.length = B ∧ c.rest = packBits bits := by
  rw [readPayload] at h
  split at h
  · exact absurd h raise_ne_ok
  next h1 =>
    split at h
    · exact absurd h raise_ne_ok
    next h2 =>
      split at h
      · exact absurd h raise_ne_ok
      next h3 =>
        have h3' : c.rest.length = ceilDiv8 B := by simpa using h3
        have htake : c.rest.take (ceilDiv8 B) = c.rest := List.take_of_length_le (by omega)
        rw [htake] at h h2
        cases h
        have hB := le_ceilDiv8 B
        have hlen : ((unpackBits c.rest).take B).length = B := by
          rw [List.length_take, unpackBits_length, h3']
          omega
        refine ⟨hlen, ?_⟩
        have hz : (unpackBits c.rest).drop B =
            List.replicate (8 * ceilDiv8 B - B) false := by
          rw [List.eq_replicate_iff]
          refine ⟨by rw [List.length_drop, unpackBits_length, h3'], fun b hb => ?_⟩
          by_contra hne
          exact h2 (List.any_eq_true.2 ⟨b, hb, by simpa using hne⟩)
        have hall : unpackBits c.rest = (unpackBits c.rest).take B ++
            List.replicate (8 * ceilDiv8 B - B) false := by
          rw [← hz, List.take_append_drop]
        have e : unpackBits (packBits ((unpackBits c.rest).take B)) = unpackBits c.rest := by
          rw [unpack_packBits, hlen, ← hall]
        have h5 := pack_unpackBits c.rest
        have h6 := pack_unpackBits (packBits ((unpackBits c.rest).take B))
        rw [packBits_length, hlen, e] at h6
        rw [h3'] at h5
        exact h5.symm.trans h6

/-! ### The codec -/

theorem serializeBytes_eq (F : List Word) (bits : List Bool) :
    serializeBytes F bits =
      (Config.archiveMagic ++ [Config.archiveVersion]) ++
        (varint (toWord (tableEntries F).length) ++
          (entryBytes (tableEntries F) ++ (varint (toWord bits.length) ++ packBits bits))) := by
  simp [serializeBytes, entryBytes]

/-- DESERIALIZE's reader undoes SERIALIZE's writer (47_archive_codec.md R324). -/
theorem deserialize_serialize {cap : Nat} {F : List Word} {bits : List Bool} (hl : F.length = 256)
    (hs : tableSum F < 2 ^ 64) (hb : bits.length ≤ cap) (hb64 : bits.length < 2 ^ 64) :
    deserializeBytes cap (serializeBytes F bits) = .ok (F, bits) := by
  have hm : (toWord (tableEntries F).length).toNat = (tableEntries F).length :=
    toNat_toWord (by have := tableEntries_length_le F; omega)
  have hB : (toWord bits.length).toNat = bits.length := toNat_toWord hb64
  have hent := fun p rest => readEntries_ok (tableEntries F) 0 0 p rest (tableEntries_ascending F)
    (fun _ _ => Nat.zero_le _) (fun e he => tableEntries_positive he)
    (by rw [entries_sum hl]; omega)
  rw [serializeBytes_eq, deserializeBytes, readHeader_ok]
  simp only [readVarint_varint, hm]
  rw [if_neg (by have := tableEntries_length_le F; omega)]
  simp only [hent, readVarint_varint, hB]
  rw [if_neg (by omega)]
  simp only [readPayload_ok, tableOf_tableEntries hl]

/-- Every archive the reader accepts is the writer's output for the pair it returns
(47_archive_codec.md R324), within the capacities. -/
theorem deserialize_inv {cap : Nat} {bs : List Byte} {F : List Word} {bits : List Bool}
    (h : deserializeBytes cap bs = .ok (F, bits)) :
    F.length = 256 ∧ tableSum F < 2 ^ 64 ∧ bits.length ≤ cap ∧ bs = serializeBytes F bits := by
  rw [deserializeBytes] at h
  split at h
  · cases h
  next c hhead =>
    split at h
    · cases h
    next m c1 hm =>
      split at h
      · exact absurd h raise_ne_ok
      next hm256 =>
        split at h
        · cases h
        next es c2 hes =>
          split at h
          · cases h
          next B c3 hB =>
            split at h
            · exact absurd h raise_ne_ok
            next hcap =>
              split at h
              · cases h
              next bits' hpay =>
                cases h
                obtain ⟨hr0, _⟩ := readHeader_inv _ _ _ _ hhead
                obtain ⟨_, hr1, _⟩ := readVarint_inv hm
                obtain ⟨ws, rfl, hlen, hasc, _, hpos, hsum, hr2, _⟩ := readEntries_inv _ _ _ _ _ _ hes
                obtain ⟨_, hr3, _⟩ := readVarint_inv hB
                obtain ⟨hbl, hr4⟩ := readPayload_inv hpay
                have hte := tableEntries_tableOf hasc hpos
                refine ⟨tableOf_length _, ?_, by omega, ?_⟩
                · rw [← entries_sum (tableOf_length _), hte]
                  rcases hsum with rfl | hsum
                  · simp
                  · omega
                · rw [serializeBytes_eq, hte, hlen, hbl]
                  simp only at hr0
                  rw [hr0, hr1, hr2, hr3, hr4]


/-- The bytes of a varint (30_encoding.md R153). -/
theorem varintBytes_formula : ∀ (k v : Nat), v < 2 ^ (7 * (k + 1)) →
    (varintBytes k v).length = max 1 ((Nat.size v + 6) / 7) ∧
    ∀ i, i < (varintBytes k v).length → (varintBytes k v).getD i 0 =
        BitVec.ofNat 8 ((v >>> (7 * i)) % 128 + if i < (varintBytes k v).length - 1 then 128 else 0) := by
  intro k
  induction k with
  | zero =>
    intro v h
    have hs := Nat.size_le.2 h
    refine ⟨?_, ?_⟩
    · simp [varintBytes]; omega
    · intro i hi; simp [varintBytes] at hi; subst hi; simp [varintBytes]
  | succ k ih =>
    intro v h
    rw [varintBytes]
    split
    · rename_i hv
      have hs : Nat.size v ≤ 7 := Nat.size_le.2 hv
      refine ⟨?_, ?_⟩
      · simp; omega
      · intro i hi; simp at hi; subst hi; simp [Nat.mod_eq_of_lt hv]
    · rename_i hv
      have hd : v / 128 < 2 ^ (7 * (k + 1)) := by
        rw [show 7 * (k + 1 + 1) = 7 * (k + 1) + 7 by ring, Nat.pow_add] at h
        exact Nat.div_lt_of_lt_mul (by omega)
      obtain ⟨h1, h2⟩ := ih _ hd
      have hs : Nat.size v = Nat.size (v / 128) + 7 := by
        have a1 : Nat.size v ≤ Nat.size (v / 128) + 7 := by
          apply Nat.size_le.2
          have := Nat.lt_size_self (v / 128)
          rw [Nat.pow_add]; omega
        have a2 : ∀ n, Nat.size (v / 128) ≤ n ∨ n < Nat.size (v/128) := fun n => by omega
        have a3 : Nat.size (v / 128) + 7 ≤ Nat.size v := by
          have hpos : 0 < Nat.size (v / 128) := Nat.size_pos.2 (by omega)
          have := (Nat.lt_size (m := Nat.size (v/128) - 1) (n := v / 128)).1 (by omega)
          have hh : Nat.size (v/128) - 1 + 7 < Nat.size v := by
            apply Nat.lt_size.2
            rw [Nat.pow_add]; omega
          omega
        omega
      have hpos : 0 < Nat.size (v / 128) := Nat.size_pos.2 (by omega)
      refine ⟨?_, ?_⟩
      · rw [List.length_cons, h1, hs]; omega
      · intro i hi
        cases i with
        | zero =>
          have : 0 < (varintBytes k (v/128)).length := by rw [h1]; omega
          simp [this]
        | succ i =>
          rw [List.getD_cons_succ, h2 i (by simpa using hi)]
          congr 2
          · rw [Nat.shiftRight_eq_div_pow, Nat.shiftRight_eq_div_pow, Nat.div_div_eq_div_mul]
            congr 2
            rw [show 7 * (i + 1) = 7 + 7 * i by ring, Nat.pow_add]
          · rw [List.length_cons]
            congr 1
            apply propext
            have : i < (varintBytes k (v/128)).length := by simpa using hi
            omega

/-- The first header byte that is wrong or missing is reported. -/
theorem readHeader_bad : ∀ (ms : List Byte) (j k p : Nat) (bs : List Byte), k < ms.length →
    k ≤ bs.length → p = j → (∀ i, i < k → bs[i]? = ms[i]?) → (k = bs.length ∨ bs[k]? ≠ ms[k]?) →
    readHeader j ms ⟨p, bs⟩ = raise .formatError (j + k) := by
  intro ms
  induction ms with
  | nil => intro j k p bs h; simp at h
  | cons m ms ih =>
    intro j k p bs h1 h2 hp h3 h4
    subst hp
    cases bs with
    | nil =>
      simp at h2; subst h2; rfl
    | cons b bs =>
      rw [readHeader, readByte_cons]
      simp only
      cases k with
      | zero =>
        have : b ≠ m := by
          rcases h4 with h | h
          · simp at h
          · simpa using h
        rw [if_pos this]; rfl
      | succ k =>
        have : b = m := by simpa using h3 0 (by omega)
        rw [if_neg (by simp [this]), ih (p + 1) k (p + 1) bs (by simpa using h1) (by simpa using h2) rfl]
        · rw [show p + 1 + k = p + (k + 1) by omega]
        · intro i hi; simpa using h3 (i + 1) (by omega)
        · rcases h4 with h | h
          · left; simpa using h
          · right; simpa using h

end Sys2Proof.Machine
end

