-- ==== Sys2Proof/Laws/Archive.lean ====
section
/-! SUPPORT. What the archive reader does with a byte string that is no archive: it raises exactly the
error of the first fault (47_archive_codec.md R323), and every byte string is an archive or has a
fault. -/

namespace Sys2Proof.Machine

/-! ### Varints -/

/-- The varint reader goes past bytes that carry the continuation flag. -/
theorem readVarintFrom_flagged (s0 : Nat) (rest : List Byte) : ∀ (fl : List Byte) (k acc p : Nat),
    fl.length ≤ k → (∀ b ∈ fl, 0x80 ≤ b.toNat) →
    ∃ acc', readVarintFrom s0 k acc ⟨p, fl ++ rest⟩ =
      readVarintFrom s0 (k - fl.length) acc' ⟨p + fl.length, rest⟩ := by
  intro fl
  induction fl with
  | nil => intro k acc p _ _; exact ⟨acc, rfl⟩
  | cons b fl ih =>
    intro k acc p hk hfl
    rw [List.length_cons] at hk
    obtain ⟨j, rfl⟩ : ∃ j, k = j + 1 := ⟨k - 1, by omega⟩
    have hb : ¬ b.toNat < 128 := by have := hfl b List.mem_cons_self; omega
    obtain ⟨acc', h⟩ := ih j (acc + b.toNat % 128 * 2 ^ (7 * (9 - (j + 1)))) (p + 1) (by omega)
      (fun c hc => hfl c (List.mem_cons_of_mem _ hc))
    refine ⟨acc', ?_⟩
    rw [List.cons_append, readVarintFrom, readByte_cons]
    simp only [if_neg hb]
    rw [h, List.length_cons, show j + 1 - (fl.length + 1) = j - fl.length by omega,
      show p + 1 + fl.length = p + (fl.length + 1) by omega]

theorem readVarintFrom_nil (s0 k acc p : Nat) :
    readVarintFrom s0 k acc ⟨p, []⟩ = raise .formatError p := by cases k <;> rfl

/-- A faulty varint is a FORMAT_ERROR at the offset of its fault. -/
theorem readVarint_fault {p : Nat} {tail : List Byte} {info : Nat}
    (h : VarintFault p (p + tail.length) tail info) :
    readVarint ⟨p, tail⟩ = raise .formatError info := by
  cases h with
  | cutShort hl hf =>
    obtain ⟨acc, h⟩ := readVarintFrom_flagged p [] tail 9 0 p hl hf
    rw [List.append_nil] at h
    rw [readVarint, h, readVarintFrom_nil]
  | notMinimal fl rest he h1 h9 hf =>
    subst he
    obtain ⟨acc, h⟩ := readVarintFrom_flagged p (0x00 :: rest) fl 9 0 p h9 hf
    rw [readVarint, h]
    cases hk : 9 - fl.length with
    | zero => simp [readVarintFrom]
    | succ k =>
      have : k + 1 < 9 := by omega
      simp [readVarintFrom, this]
  | tooLarge fl rest b he hl hf hb =>
    subst he
    obtain ⟨acc, h⟩ := readVarintFrom_flagged p (b :: rest) fl 9 0 p (by omega) hf
    rw [readVarint, h, hl]
    simp only [Nat.sub_self, readVarintFrom, readByte_cons, if_pos hb]

/-- What is no varint has a fault. -/
theorem readVarintFrom_total (s0 n : Nat) : ∀ (k acc q : Nat) (fl tail : List Byte), k ≤ 9 →
    fl.length = 9 - k → (∀ b ∈ fl, 0x80 ≤ b.toNat) →
    (∃ r, readVarintFrom s0 k acc ⟨q, tail⟩ = .ok r) ∨
      ∃ info, VarintFault s0 n (fl ++ tail) info := by
  intro k
  induction k with
  | zero =>
    intro acc q fl tail _ hl hf
    cases tail with
    | nil => exact .inr ⟨n, .cutShort (by rw [List.append_nil]; omega) (by simpa using hf)⟩
    | cons b rest =>
      by_cases h1 : 0x01 < b.toNat
      · exact .inr ⟨s0, .tooLarge fl rest b rfl hl hf h1⟩
      · by_cases h0 : b = 0x00
        · subst h0
          exact .inr ⟨s0, .notMinimal fl rest rfl (by omega) (by omega) hf⟩
        · left
          simp only [readVarintFrom, readByte_cons, if_neg h1, if_neg h0]
          exact ⟨_, rfl⟩
  | succ k ih =>
    intro acc q fl tail hk hl hf
    cases tail with
    | nil => exact .inr ⟨n, .cutShort (by rw [List.append_nil]; omega) (by simpa using hf)⟩
    | cons b rest =>
      by_cases h : b.toNat < 128
      · by_cases h0 : k + 1 < 9 ∧ b = 0x00
        · obtain ⟨h9, rfl⟩ := h0
          exact .inr ⟨s0, .notMinimal fl rest rfl (by omega) (by omega) hf⟩
        · left
          simp only [readVarintFrom, readByte_cons, if_pos h, if_neg h0]
          exact ⟨_, rfl⟩
      · simp only [readVarintFrom, readByte_cons, if_neg h]
        have hf' : ∀ c ∈ fl ++ [b], 0x80 ≤ c.toNat := by
          intro c hc
          rcases List.mem_append.1 hc with hc | hc
          · exact hf c hc
          · rw [List.mem_singleton.1 hc]; omega
        have := ih (acc + b.toNat % 128 * 2 ^ (7 * (9 - (k + 1)))) (q + 1) (fl ++ [b]) rest
          (by omega) (by simp [hl]; omega) hf'
        rwa [List.append_assoc, List.singleton_append] at this

theorem readVarint_total (p n : Nat) (tail : List Byte) :
    (∃ m c, readVarint ⟨p, tail⟩ = .ok (m, c)) ∨ ∃ info, VarintFault p n tail info := by
  rcases readVarintFrom_total p n 9 0 p [] tail (by omega) rfl (by simp) with ⟨⟨m, c⟩, h⟩ | h
  · exact .inl ⟨m, c, h⟩
  · exact .inr h

/-! ### Entries -/

/-- The entry reader goes past good entries; the byte values it takes next are those above every one
it has read. -/
theorem readEntries_append (k : Nat) (rest : List Byte) : ∀ (es : List (Byte × Word))
    (least sum p : Nat), es.Pairwise (fun d e => d.1.toNat < e.1.toNat) →
    (∀ e ∈ es, least ≤ e.1.toNat) → (∀ e ∈ es, e.2 ≠ 0) →
    sum + (es.map (fun e => e.2.toNat)).sum < 2 ^ 64 →
    ∃ least', (∀ x, least' ≤ x ↔ least ≤ x ∧ ∀ e ∈ es, e.1.toNat < x) ∧
      readEntries (es.length + k) least sum ⟨p, entryBytes es ++ rest⟩ =
        match readEntries k least' (sum + (es.map (fun e => e.2.toNat)).sum)
          ⟨p + (entryBytes es).length, rest⟩ with
        | .error e => .error e
        | .ok (es', c) => .ok (entryNats es ++ es', c) := by
  intro es
  induction es with
  | nil =>
    intro least sum p _ _ _ _
    refine ⟨least, by simp, ?_⟩
    simp only [List.length_nil, Nat.zero_add, entryBytes, List.flatMap_nil, List.nil_append,
      List.map_nil, List.sum_nil, Nat.add_zero, entryNats]
    split
    next e h => rw [h]
    next es' c h => rw [h]
  | cons e es ih =>
    intro least sum p hasc hleast hpos hsum
    obtain ⟨v, c⟩ := e
    rw [List.map_cons, List.sum_cons] at hsum
    have hc : c.toNat ≠ 0 := fun e => hpos (v, c) List.mem_cons_self (BitVec.eq_of_toNat_eq e)
    have hv : least ≤ v.toNat := hleast (v, c) List.mem_cons_self
    have hasc' := List.pairwise_cons.1 hasc
    obtain ⟨least', hl, h⟩ := ih (v.toNat + 1) (sum + c.toNat) (p + 1 + (varint c).length) hasc'.2
      (fun x hx => hasc'.1 x hx) (fun x hx => hpos x (List.mem_cons_of_mem _ hx))
      (by simp only at hsum; omega)
    refine ⟨least', ?_, ?_⟩
    · intro x
      rw [hl x, List.forall_mem_cons]
      constructor
      · rintro ⟨h1, h2⟩
        exact ⟨by omega, by simp only; omega, h2⟩
      · rintro ⟨_, h1, h2⟩
        exact ⟨by simp only at h1; omega, h2⟩
    · rw [List.length_cons, show es.length + 1 + k = es.length + k + 1 by omega, readEntries,
        entryBytes_cons]
      simp only [List.cons_append, readByte_cons, if_neg (show ¬ (v.toNat < least) by omega),
        List.append_assoc, readVarint_varint, if_neg hc,
        if_neg (show ¬ (2 ^ 64 - 1 < sum + c.toNat) by simp only at hsum; omega)]
      have e1 : p + 1 + (varint c).length + (entryBytes es).length =
          p + (v :: (varint c ++ entryBytes es)).length := by
        simp only [List.length_cons, List.length_append]; omega
      rw [e1, Nat.add_assoc sum] at h
      rw [h, List.map_cons, List.sum_cons]
      cases readEntries k least' _ _ with
      | error e => rfl
      | ok r => simp only [entryNats, List.map_cons, List.cons_append]

/-! ### The whole archive -/

theorem archiveUpTo_eq (m : Word) (es : List (Byte × Word)) :
    archiveUpTo m es = (Config.archiveMagic ++ [Config.archiveVersion]) ++
      (varint m ++ entryBytes es) := by
  simp [archiveUpTo, archiveHeader, entryBytes, Config.archiveMagic, Config.archiveVersion]

/-- The reader after the entries: totalBits and the payload (47_archive_codec.md R323). -/
def readBits (cap : Nat) (es : List (Byte × Nat)) (c : Cursor) :
    Except CmdError (List Word × List Bool) :=
  match readVarint c with
  | .error e => .error e
  | .ok (B, c3) =>
    if cap < B then raise .capacityError B
    else
      match readPayload B c3 with
      | .error e => .error e
      | .ok bits => .ok (tableOf es, bits)

/-- Past the header and a number of entries in order. -/
theorem deserialize_upTo {cap : Nat} {m : Word} {es : List (Byte × Word)} (tail : List Byte)
    (hg : GoodEntries es) (hle : es.length ≤ m.toNat) (hm : m.toNat ≤ 256) :
    ∃ least, (∀ x, least ≤ x ↔ ∀ e ∈ es, e.1.toNat < x) ∧
      deserializeBytes cap (archiveUpTo m es ++ tail) =
        match readEntries (m.toNat - es.length) least (es.map (fun e => e.2.toNat)).sum
          ⟨(archiveUpTo m es).length, tail⟩ with
        | .error e => .error e
        | .ok (es', c) => readBits cap (entryNats es ++ es') c := by
  have hfit := hg.fits
  obtain ⟨least, hl, h⟩ := readEntries_append (m.toNat - es.length) tail es 0 0
    (0 + (Config.archiveMagic ++ [Config.archiveVersion]).length + (varint m).length) hg.rising
    (fun _ _ => Nat.zero_le _) hg.positive (by omega)
  rw [Nat.add_sub_cancel' hle] at h
  refine ⟨least, fun x => by rw [hl x]; simp, ?_⟩
  have e0 : archiveUpTo m es ++ tail = (Config.archiveMagic ++ [Config.archiveVersion]) ++
      (varint m ++ (entryBytes es ++ tail)) := by
    rw [archiveUpTo_eq]; simp only [List.append_assoc]
  rw [e0, deserializeBytes, readHeader_ok, archiveUpTo_eq]
  simp only [readVarint_varint]
  rw [if_neg (by omega), h]
  have e : 0 + (Config.archiveMagic ++ [Config.archiveVersion]).length + (varint m).length +
      (entryBytes es).length =
      ((Config.archiveMagic ++ [Config.archiveVersion]) ++ (varint m ++ entryBytes es)).length := by
    simp only [List.length_append]; omega
  rw [e, Nat.zero_add]
  cases readEntries _ least _ _ with
  | error e => rfl
  | ok r => rfl

theorem goodEntries_length {es : List (Byte × Word)} (h : GoodEntries es) : es.length ≤ 256 := by
  have := tableEntries_length_le (tableOf (entryNats es))
  rwa [tableEntries_tableOf h.rising h.positive] at this

/-- Past all entries in order. -/
theorem deserialize_entries {cap : Nat} {es : List (Byte × Word)} (tail : List Byte)
    (hg : GoodEntries es) :
    deserializeBytes cap (archiveUpTo (toWord es.length) es ++ tail) =
      readBits cap (entryNats es) ⟨(archiveUpTo (toWord es.length) es).length, tail⟩ := by
  have hl := goodEntries_length hg
  have hm : (toWord es.length).toNat = es.length := toNat_toWord (by omega)
  obtain ⟨least, _, h⟩ := deserialize_upTo (cap := cap) tail hg (Nat.le_of_eq hm.symm) (by omega)
  rw [h, hm, Nat.sub_self]
  simp [readEntries]

/-- Past totalBits. -/
theorem deserialize_bits {cap : Nat} {es : List (Byte × Word)} {B : Word} (tail : List Byte)
    (hg : GoodEntries es) :
    deserializeBytes cap (archiveUpToBits es B ++ tail) =
      if cap < B.toNat then raise .capacityError B.toNat
      else
        match readPayload B.toNat ⟨(archiveUpToBits es B).length, tail⟩ with
        | .error e => .error e
        | .ok bits => .ok (tableOf (entryNats es), bits) := by
  rw [archiveUpToBits, List.append_assoc, deserialize_entries _ hg, readBits]
  simp only [readVarint_varint, List.length_append]

/-- A padding bit of the last payload byte is found where 30_encoding.md R156 puts it. -/
theorem padding_any (bs : List Byte) (B n : Nat) (hn : n ≤ bs.length) :
    ((unpackBits (bs.take n)).drop B).any id = true ↔
      ∃ j, B ≤ j ∧ j < 8 * n ∧ (bs.getD (j / 8) 0).getLsbD (7 - j % 8) = true := by
  have hlen : (unpackBits (bs.take n)).length = 8 * n := by
    rw [unpackBits_length, List.length_take]; omega
  have hget : ∀ j, j < 8 * n →
      (unpackBits (bs.take n))[j]? = some ((bs.getD (j / 8) 0).getLsbD (7 - j % 8)) := by
    intro j hj
    rw [unpackBits_getElem?]
    have : j / 8 < n := by omega
    simp [this, List.getD_eq_getElem?_getD,
      List.getElem?_eq_getElem (show j / 8 < bs.length by omega)]
  rw [List.any_eq_true]
  constructor
  · rintro ⟨b, hb, hb1⟩
    obtain ⟨i, hi⟩ := List.mem_iff_getElem?.1 hb
    rw [List.getElem?_drop] at hi
    have hlt : B + i < 8 * n := by
      rw [← hlen]; exact (List.getElem?_eq_some_iff.1 hi).1
    rw [hget _ hlt] at hi
    refine ⟨B + i, by omega, hlt, ?_⟩
    cases hi
    exact hb1
  · rintro ⟨j, h1, h2, h3⟩
    refine ⟨true, List.mem_iff_getElem?.2 ⟨j - B, ?_⟩, rfl⟩
    rw [List.getElem?_drop, show B + (j - B) = j by omega, hget _ h2, h3]

/-- A fault of a byte string as an archive is the error the reader raises. -/
theorem deserialize_fault {cap : Nat} {A : List Byte} {code : BitVec 4} {info : Nat}
    (h : ArchiveFault cap A code info) :
    ∃ k, errCodeOf k = code ∧ deserializeBytes cap A = raise k info := by
  cases h with
  | header _ hk heq hne =>
    refine ⟨.formatError, rfl, ?_⟩
    have hle : info ≤ A.length := by
      by_contra hc
      have := heq A.length (by omega)
      rw [List.getElem?_eq_none (Nat.le_refl _)] at this
      exact absurd (List.getElem?_eq_none_iff.1 this.symm) (by simp [archiveHeader]; omega)
    have := readHeader_bad archiveHeader 0 info 0 A hk hle rfl heq (.inr hne)
    rw [Nat.zero_add] at this
    rw [deserializeBytes, show Config.archiveMagic ++ [Config.archiveVersion] = archiveHeader from rfl,
      this]
    rfl
  | entryCountVarint tail _ hA hv =>
    refine ⟨.formatError, rfl, ?_⟩
    subst hA
    rw [List.length_append] at hv
    rw [deserializeBytes, show Config.archiveMagic ++ [Config.archiveVersion] = archiveHeader from rfl,
      readHeader_ok]
    have := readVarint_fault hv
    simp only [Nat.zero_add, show archiveHeader.length = 5 from rfl, this]
    rfl
  | entryCountTooLarge m rest hA hm =>
    refine ⟨.formatError, rfl, ?_⟩
    subst hA
    rw [archiveUpTo, List.flatMap_nil, List.append_nil, List.append_assoc, deserializeBytes,
      show Config.archiveMagic ++ [Config.archiveVersion] = archiveHeader from rfl, readHeader_ok]
    simp only [readVarint_varint, if_pos hm]
    rfl
  | entryMissing m es hA hg hlt hm =>
    refine ⟨.formatError, rfl, ?_⟩
    obtain ⟨least, _, h⟩ := deserialize_upTo (cap := cap) [] hg (Nat.le_of_lt hlt) hm
    obtain ⟨j, hj⟩ : ∃ j, m.toNat - es.length = j + 1 := ⟨m.toNat - es.length - 1, by omega⟩
    rw [List.append_nil, ← hA, hj] at h
    rw [h]
    rfl
  | entryOutOfOrder m es v rest hA hg hlt hm hv =>
    refine ⟨.formatError, rfl, ?_⟩
    obtain ⟨least, hl, h⟩ := deserialize_upTo (cap := cap) (v :: rest) hg (Nat.le_of_lt hlt) hm
    obtain ⟨j, hj⟩ : ∃ j, m.toNat - es.length = j + 1 := ⟨m.toNat - es.length - 1, by omega⟩
    have hlow : v.toNat < least := by
      by_contra hc
      obtain ⟨e, he, hle⟩ := hv
      have := (hl v.toNat).1 (by omega) e he
      omega
    rw [hA, h, hj]
    simp only [readEntries, readByte_cons, if_pos hlow]
    rfl
  | countVarint m es v tail _ hA hg hlt hm hv hvar =>
    refine ⟨.formatError, rfl, ?_⟩
    obtain ⟨least, hl, h⟩ := deserialize_upTo (cap := cap) (v :: tail) hg (Nat.le_of_lt hlt) hm
    obtain ⟨j, hj⟩ : ∃ j, m.toNat - es.length = j + 1 := ⟨m.toNat - es.length - 1, by omega⟩
    have hok : ¬ v.toNat < least := Nat.not_lt.2 ((hl v.toNat).2 hv)
    have hn : A.length = (archiveUpTo m es).length + 1 + tail.length := by
      rw [hA, List.length_append, List.length_cons]; omega
    rw [hn] at hvar
    rw [hA, h, hj]
    simp only [readEntries, readByte_cons, if_neg hok, readVarint_fault hvar]
    rfl
  | countZero m es v rest hA hg hlt hm hv =>
    refine ⟨.formatError, rfl, ?_⟩
    obtain ⟨least, hl, h⟩ := deserialize_upTo (cap := cap) (v :: 0x00 :: rest) hg
      (Nat.le_of_lt hlt) hm
    obtain ⟨j, hj⟩ : ∃ j, m.toNat - es.length = j + 1 := ⟨m.toNat - es.length - 1, by omega⟩
    have hok : ¬ v.toNat < least := Nat.not_lt.2 ((hl v.toNat).2 hv)
    have hz : ∀ p, readVarint ⟨p, 0x00 :: rest⟩ = .ok (0, ⟨p + 1, rest⟩) := fun p =>
      readVarint_varint 0 p rest
    rw [hA, h, hj]
    simp only [readEntries, readByte_cons, if_neg hok, hz, if_true]
    rfl
  | countSumTooLarge m es v c rest hA hg hlt hm hv hsum =>
    refine ⟨.formatError, rfl, ?_⟩
    obtain ⟨least, hl, h⟩ := deserialize_upTo (cap := cap) (v :: (varint c ++ rest)) hg
      (Nat.le_of_lt hlt) hm
    obtain ⟨j, hj⟩ : ∃ j, m.toNat - es.length = j + 1 := ⟨m.toNat - es.length - 1, by omega⟩
    have hok : ¬ v.toNat < least := Nat.not_lt.2 ((hl v.toNat).2 hv)
    have hc : c.toNat ≠ 0 := by have := hg.fits; omega
    rw [hA, h, hj]
    simp only [readEntries, readByte_cons, if_neg hok, readVarint_varint, if_neg hc, if_pos hsum]
    rfl
  | totalBitsVarint es tail _ hA hg hvar =>
    refine ⟨.formatError, rfl, ?_⟩
    rw [hA, List.length_append] at hvar
    rw [hA, deserialize_entries _ hg, readBits, readVarint_fault hvar]
    rfl
  | overCapacity es B rest hA hg hB =>
    exact ⟨.capacityError, rfl, by rw [hA, deserialize_bits _ hg, if_pos hB]⟩
  | payloadShort es B payload hA hg hB hlen =>
    refine ⟨.formatError, rfl, ?_⟩
    rw [hA, deserialize_bits _ hg, if_neg (by omega), readPayload, if_pos (by simpa [ceilDiv8] using hlen),
      List.length_append]
    rfl
  | paddingNotZero es B rest j hA hg hB hlen hj1 hj2 hbit =>
    refine ⟨.formatError, rfl, ?_⟩
    rw [hA, deserialize_bits _ hg, if_neg (by omega), readPayload,
      if_neg (by simp only [ceilDiv8]; omega),
      if_pos ((padding_any rest B.toNat (ceilDiv8 B.toNat) hlen).2 ⟨j, hj1, hj2, hbit⟩)]
    rfl
  | trailingBytes es B rest hA hg hB hlen hpad =>
    refine ⟨.formatError, rfl, ?_⟩
    rw [hA, deserialize_bits _ hg, if_neg (by omega), readPayload,
      if_neg (by simp only [ceilDiv8]; omega), if_neg, if_pos (by simp only [ceilDiv8]; omega)]
    · rfl
    · intro hc
      obtain ⟨j, h1, h2, h3⟩ := (padding_any rest _ _ (by simp only [ceilDiv8]; omega)).1 hc
      rw [hpad j h1 h2] at h3
      cases h3

/-! ### Every byte string is an archive or has a fault -/

theorem goodEntries_nil : GoodEntries [] := ⟨.nil, by simp, by simp⟩

theorem goodEntries_snoc {es : List (Byte × Word)} {v : Byte} {c : Word} (hg : GoodEntries es)
    (hv : ∀ e ∈ es, e.1.toNat < v.toNat) (hc : c ≠ 0)
    (hsum : (es.map (fun e => e.2.toNat)).sum + c.toNat ≤ 2 ^ 64 - 1) :
    GoodEntries (es ++ [(v, c)]) where
  rising := List.pairwise_append.2 ⟨hg.rising, List.pairwise_singleton _ _, by
    intro d hd e he
    rw [List.mem_singleton.1 he]
    exact hv d hd⟩
  positive := by
    intro e he
    rcases List.mem_append.1 he with he | he
    · exact hg.positive e he
    · rw [List.mem_singleton.1 he]; exact hc
  fits := by simpa using hsum

theorem archiveUpTo_snoc (m : Word) (es : List (Byte × Word)) (v : Byte) (c : Word) :
    archiveUpTo m (es ++ [(v, c)]) = archiveUpTo m es ++ v :: varint c := by
  simp [archiveUpTo]

/-- `k` entries more: they are in order, or the first fault is one of them. -/
theorem entries_total (cap : Nat) (A : List Byte) (m : Word) (hm : m.toNat ≤ 256) :
    ∀ (k : Nat) (es : List (Byte × Word)) (tail : List Byte), A = archiveUpTo m es ++ tail →
    GoodEntries es → es.length + k = m.toNat →
    (∃ es' rest, A = archiveUpTo m es' ++ rest ∧ GoodEntries es' ∧ es'.length = m.toNat) ∨
      ∃ code info, ArchiveFault cap A code info := by
  intro k
  induction k with
  | zero => intro es tail hA hg hl; exact .inl ⟨es, tail, hA, hg, hl⟩
  | succ k ih =>
    intro es tail hA hg hl
    cases tail with
    | nil =>
      exact .inr ⟨_, _, .entryMissing m es (by rwa [List.append_nil] at hA) hg (by omega) hm⟩
    | cons v tail =>
      by_cases hv : ∀ e ∈ es, e.1.toNat < v.toNat
      · rcases readVarint_total ((archiveUpTo m es).length + 1) A.length tail with
          ⟨n, c, hn⟩ | ⟨info, hf⟩
        · obtain ⟨hn64, htail, _⟩ := readVarint_inv hn
          have hnw : (toWord n).toNat = n := toNat_toWord hn64
          simp only at htail
          subst htail
          by_cases h0 : n = 0
          · subst h0
            exact .inr ⟨_, _, .countZero m es v c.rest hA hg (by omega) hm hv⟩
          · by_cases hs : 2 ^ 64 - 1 < (es.map (fun e => e.2.toNat)).sum + (toWord n).toNat
            · exact .inr ⟨_, _, .countSumTooLarge m es v _ c.rest hA hg (by omega) hm hv hs⟩
            · refine ih (es ++ [(v, toWord n)]) c.rest ?_ (goodEntries_snoc hg hv ?_ (by omega)) ?_
              · rw [archiveUpTo_snoc, hA]; simp
              · intro e; rw [e] at hnw; exact h0 hnw.symm
              · simp; omega
        · exact .inr ⟨_, _, .countVarint m es v tail info hA hg (by omega) hm hv hf⟩
      · refine .inr ⟨_, _, .entryOutOfOrder m es v tail hA hg (by omega) hm ?_⟩
        simpa using hv

/-- Every byte string is the archive of a table and bits within the limits, or has a fault
(47_archive_codec.md R323, R324). -/
theorem archive_total (cap : Nat) (A : List Byte) :
    (∃ F bits, deserializeBytes cap A = .ok (F, bits)) ∨
      ∃ code info, ArchiveFault cap A code info := by
  by_cases hH : ∃ tail, A = archiveHeader ++ tail
  · obtain ⟨tail, hA⟩ := hH
    rcases readVarint_total 5 A.length tail with ⟨m, c, hm⟩ | ⟨info, hf⟩
    · obtain ⟨hm64, htail, _⟩ := readVarint_inv hm
      have hmw : (toWord m).toNat = m := toNat_toWord hm64
      simp only at htail
      have hA0 : A = archiveUpTo (toWord m) [] ++ c.rest := by
        rw [hA, htail]; simp [archiveUpTo]
      by_cases h256 : 256 < (toWord m).toNat
      · exact .inr ⟨_, _, .entryCountTooLarge _ _ hA0 h256⟩
      · rcases entries_total cap A (toWord m) (by omega) m [] c.rest hA0 goodEntries_nil
          (by simp [hmw]) with ⟨es, rest, hA1, hg, hl⟩ | h
        · have hme : toWord m = toWord es.length := by rw [hl, toWord_toNat]
          rw [hme] at hA1
          rcases readVarint_total (archiveUpTo (toWord es.length) es).length A.length rest with
            ⟨B, c', hB⟩ | ⟨info, hf⟩
          · obtain ⟨hB64, hrest, _⟩ := readVarint_inv hB
            have hBw : (toWord B).toNat = B := toNat_toWord hB64
            simp only at hrest
            have hA2 : A = archiveUpToBits es (toWord B) ++ c'.rest := by
              rw [hA1, hrest, archiveUpToBits, List.append_assoc]
            by_cases hcap : cap < (toWord B).toNat
            · exact .inr ⟨_, _, .overCapacity es _ _ hA2 hg hcap⟩
            · by_cases hshort : c'.rest.length < ((toWord B).toNat + 7) / 8
              · exact .inr ⟨_, _, .payloadShort es _ _ hA2 hg (by omega) hshort⟩
              · by_cases hpad : ∃ j, (toWord B).toNat ≤ j ∧ j < 8 * (((toWord B).toNat + 7) / 8) ∧
                    (c'.rest.getD (j / 8) 0).getLsbD (7 - j % 8) = true
                · obtain ⟨j, h1, h2, h3⟩ := hpad
                  exact .inr ⟨_, _, .paddingNotZero es _ _ j hA2 hg (by omega) (by omega) h1 h2 h3⟩
                · by_cases htr : ((toWord B).toNat + 7) / 8 < c'.rest.length
                  · refine .inr ⟨_, _, .trailingBytes es _ _ hA2 hg (by omega) htr ?_⟩
                    intro j h1 h2
                    by_contra hc
                    exact hpad ⟨j, h1, h2, by simpa using hc⟩
                  · left
                    have hp := padding_any c'.rest (toWord B).toNat (ceilDiv8 (toWord B).toNat)
                      (by simp only [ceilDiv8]; omega)
                    rw [hA2, deserialize_bits _ hg, if_neg hcap, readPayload,
                      if_neg (by simp only [ceilDiv8]; omega), if_neg (fun h => hpad (hp.1 h)),
                      if_neg (by simp only [ceilDiv8]; omega)]
                    exact ⟨_, _, rfl⟩
          · exact .inr ⟨_, _, .totalBitsVarint es rest info hA1 hg hf⟩
        · exact .inr h
    · exact .inr ⟨_, _, .entryCountVarint tail info hA hf⟩
  · right
    have hk : ∃ k, k < 5 ∧ A[k]? ≠ archiveHeader[k]? := by
      by_contra hc
      simp only [not_exists, not_and, not_not] at hc
      apply hH
      refine ⟨A.drop 5, ?_⟩
      apply List.ext_getElem?
      intro i
      by_cases hi : i < 5
      · rw [List.getElem?_append_left (by simpa [archiveHeader] using hi), hc i hi]
      · rw [List.getElem?_append_right (by simp [archiveHeader]; omega), List.getElem?_drop]
        simp only [show archiveHeader.length = 5 from rfl, Nat.add_sub_cancel' (Nat.le_of_not_lt hi)]
    have hs := Nat.find_spec hk
    refine ⟨1, Nat.find hk, .header _ hs.1 ?_ hs.2⟩
    intro j hj
    by_contra hne
    exact Nat.find_min hk hj ⟨by omega, hne⟩

end Sys2Proof.Machine
end

