-- ==== Sys2Proof/Laws/Memory.lean ====
section
/-! SUPPORT. What the memory operations do: reading after a write, and that every one of them keeps
the canonical form. -/

namespace Sys2Proof.Machine

theorem mem_put_subset {m : List Host.Cell} {a : Nat} {v : Byte} {c : Host.Cell}
    (h : c ∈ Mem.put m a v) : c = (a, v) ∨ c ∈ m := by
  induction m with
  | nil => simpa [Mem.put] using h
  | cons d m ih =>
    obtain ⟨b, x⟩ := d
    simp only [Mem.put] at h
    split at h
    · simpa using h
    · split at h
      · rcases List.mem_cons.1 h with h | h
        · exact .inl h
        · exact .inr (List.mem_cons_of_mem _ h)
      · rcases List.mem_cons.1 h with h | h
        · exact .inr (h ▸ List.mem_cons_self)
        · rcases ih h with h | h
          · exact .inl h
          · exact .inr (List.mem_cons_of_mem _ h)

theorem mem_put_wf {m : List Host.Cell} (a : Nat) (v : Byte) (h : Mem.wf m) :
    Mem.wf (Mem.put m a v) := by
  induction m with
  | nil => simp [Mem.put, Mem.wf]
  | cons d m ih =>
    obtain ⟨b, x⟩ := d
    have h' := List.pairwise_cons.1 h
    simp only [Mem.put]
    split
    next hab =>
      refine List.pairwise_cons.2 ⟨?_, h⟩
      intro c hc
      rcases List.mem_cons.1 hc with rfl | hc
      · exact hab
      · exact Nat.lt_trans hab (h'.1 c hc)
    next hab =>
      split
      next hEq => subst hEq; exact List.pairwise_cons.2 ⟨h'.1, h'.2⟩
      next hne =>
        refine List.pairwise_cons.2 ⟨?_, ih h'.2⟩
        intro c hc
        rcases mem_put_subset hc with rfl | hc
        · show b < a
          omega
        · exact h'.1 c hc

theorem mem_get?_put_same (m : List Host.Cell) (a : Nat) (v : Byte) :
    Mem.get? (Mem.put m a v) a = some v := by
  induction m with
  | nil => simp [Mem.put, Mem.get?]
  | cons d m ih =>
    obtain ⟨b, x⟩ := d
    simp only [Mem.put]
    split
    · simp [Mem.get?]
    · split
      · simp [Mem.get?]
      · rw [Mem.get?, if_neg (by omega)]
        exact ih

theorem mem_get?_put_other {a b : Nat} (h : b ≠ a) (m : List Host.Cell) (v : Byte) :
    Mem.get? (Mem.put m a v) b = Mem.get? m b := by
  induction m with
  | nil => simp [Mem.put, Mem.get?, Ne.symm h]
  | cons d m ih =>
    obtain ⟨c, x⟩ := d
    simp only [Mem.put]
    split
    · simp [Mem.get?, Ne.symm h]
    · split
      next hEq => subst hEq; simp [Mem.get?, Ne.symm h]
      · simp only [Mem.get?, ih]

/-- Writing several bytes is read back byte by byte, and leaves every other address alone. -/
theorem mem_get?_putBytes (bs : List Byte) : ∀ (m : List Host.Cell) (a b : Nat),
    Mem.get? (Mem.putBytes m a bs) b =
      if a ≤ b ∧ b < a + bs.length then bs[b - a]? else Mem.get? m b := by
  induction bs with
  | nil => intro m a b; simp [Mem.putBytes]
  | cons x bs ih =>
    intro m a b
    rw [Mem.putBytes, ih]
    by_cases h : b = a
    · subst h
      rw [if_neg (by omega), if_pos (by simp), mem_get?_put_same]
      simp
    · rw [mem_get?_put_other h]
      by_cases h2 : a + 1 ≤ b ∧ b < a + 1 + bs.length
      · rw [if_pos h2, if_pos (by simp; omega)]
        obtain ⟨k, hk⟩ : ∃ k, b - a = k + 1 := ⟨b - a - 1, by omega⟩
        rw [hk, List.getElem?_cons_succ]
        congr 1; omega
      · rw [if_neg h2, if_neg (by simp; omega)]

theorem mem_putBytes_wf (bs : List Byte) : ∀ {m : List Host.Cell} (a : Nat), Mem.wf m →
    Mem.wf (Mem.putBytes m a bs) := by
  induction bs with
  | nil => exact fun _ h => h
  | cons x bs ih => exact fun a h => ih (a + 1) (mem_put_wf a x h)

theorem mem_putBytes_subset (bs : List Byte) : ∀ {m : List Host.Cell} {a : Nat} {c : Host.Cell},
    c ∈ Mem.putBytes m a bs → c ∈ m ∨ (a ≤ c.1 ∧ c.1 < a + bs.length) := by
  induction bs with
  | nil => exact fun h => .inl h
  | cons x bs ih =>
    intro m a c h
    rcases ih h with h | h
    · rcases mem_put_subset h with rfl | h
      · right; simp
      · exact .inl h
    · right; simp; omega

/-! ### OBUF as a whole -/

theorem mem_cells_bounds (bs : List Byte) : ∀ {a : Nat} {c : Host.Cell}, c ∈ Mem.cells a bs →
    a ≤ c.1 ∧ c.1 < a + bs.length := by
  induction bs with
  | nil => intro a c h; simp [Mem.cells] at h
  | cons x bs ih =>
    intro a c h
    rcases List.mem_cons.1 h with rfl | h
    · simp
    · have := ih h; simp; omega

theorem mem_cells_wf (bs : List Byte) : ∀ a : Nat, Mem.wf (Mem.cells a bs) := by
  induction bs with
  | nil => intro a; simp [Mem.cells, Mem.wf]
  | cons x bs ih =>
    intro a
    refine List.pairwise_cons.2 ⟨fun c hc => ?_, ih (a + 1)⟩
    have := mem_cells_bounds bs hc
    show a < c.1
    omega

theorem mem_get?_cells (bs : List Byte) : ∀ a b : Nat,
    Mem.get? (Mem.cells a bs) b = if a ≤ b then bs[b - a]? else none := by
  induction bs with
  | nil => intro a b; simp [Mem.cells, Mem.get?]
  | cons x bs ih =>
    intro a b
    rw [Mem.cells, Mem.get?, ih]
    by_cases h : a = b
    · subst h; simp
    · rw [if_neg h]
      by_cases h2 : a ≤ b
      · obtain ⟨k, hk⟩ : ∃ k, b - a = k + 1 := ⟨b - a - 1, by omega⟩
        rw [if_pos (by omega), if_pos h2, hk, List.getElem?_cons_succ]
        congr 1; omega
      · rw [if_neg (by omega), if_neg h2]

theorem mem_get?_append (m m' : List Host.Cell) (a : Nat) :
    Mem.get? (m ++ m') a = (Mem.get? m a).or (Mem.get? m' a) := by
  induction m with
  | nil => simp [Mem.get?]
  | cons c m ih => simp only [List.cons_append, Mem.get?]; split <;> simp [ih]

theorem mem_get?_dropObuf (m : List Host.Cell) (a : Nat) :
    Mem.get? (Mem.dropObuf m) a = if a < Config.obufBase then Mem.get? m a else none := by
  induction m with
  | nil => simp [Mem.dropObuf, Mem.get?]
  | cons c m ih =>
    unfold Mem.dropObuf at ih ⊢
    rw [List.filter_cons]
    by_cases hc : c.1 < Config.obufBase
    · rw [if_pos (by simpa using hc)]
      simp only [Mem.get?, ih]
      by_cases h : c.1 = a
      · simp [h, h ▸ hc]
      · simp [h]
    · rw [if_neg (by simpa using hc), ih]
      by_cases h : a < Config.obufBase
      · have : c.1 ≠ a := by omega
        simp [Mem.get?, h, this]
      · simp [h]

theorem mem_dropObuf_wf {m : List Host.Cell} (h : Mem.wf m) : Mem.wf (Mem.dropObuf m) :=
  List.Pairwise.filter _ h

theorem mem_dropObuf_subset {m : List Host.Cell} {c : Host.Cell} (h : c ∈ Mem.dropObuf m) :
    c ∈ m ∧ c.1 < Config.obufBase := by
  simpa [Mem.dropObuf] using h

theorem mem_get?_setObuf (m : List Host.Cell) (bs : List Byte) (a : Nat) :
    Mem.get? (Mem.setObuf m bs) a =
      if a < Config.obufBase then Mem.get? m a else bs[a - Config.obufBase]? := by
  rw [Mem.setObuf, mem_get?_append, mem_get?_dropObuf, mem_get?_cells]
  by_cases h : a < Config.obufBase
  · have h' : ¬ Config.obufBase ≤ a := by omega
    simp [h, h']
  · have h' : Config.obufBase ≤ a := by omega
    simp [h, h']

theorem mem_setObuf_wf {m : List Host.Cell} (bs : List Byte) (h : Mem.wf m) :
    Mem.wf (Mem.setObuf m bs) := by
  refine List.pairwise_append.2 ⟨mem_dropObuf_wf h, mem_cells_wf bs _, ?_⟩
  intro c hc d hd
  have h1 := (mem_dropObuf_subset hc).2
  have h2 := (mem_cells_bounds bs hd).1
  omega

theorem mem_setObuf_subset {m : List Host.Cell} {bs : List Byte} {c : Host.Cell}
    (h : c ∈ Mem.setObuf m bs) :
    (c ∈ m ∧ c.1 < Config.obufBase) ∨
      (Config.obufBase ≤ c.1 ∧ c.1 < Config.obufBase + bs.length) := by
  rcases List.mem_append.1 h with h | h
  · exact .inl (mem_dropObuf_subset h)
  · exact .inr (mem_cells_bounds bs h)

end Sys2Proof.Machine
end

