-- ==== Sys2Proof/Laws/Bus.lean ====
section
/-! SUPPORT. What the host interface does, said once: the region of an access, each register access,
each kind of memory access, and little-endian order (20_memory.md, 10_state.md R31). -/

namespace Sys2Proof.Machine

/-! ### The address map -/

theorem params_bounds {p : Params} (h : p.wellFormed = true) :
    8 ≤ p.ibufSize ∧ p.ibufSize ≤ 2 ^ 28 ∧ 8 ≤ p.obufSize ∧ p.obufSize ≤ 2 ^ 28 ∧
      64 ≤ p.bsCapBits ∧ p.bsCapBits ≤ 2 ^ 31 ∧ p.ibufSize % 8 = 0 ∧ p.obufSize % 8 = 0 ∧
      p.bsCapBits % 64 = 0 := by
  simp [Params.wellFormed, bufferSizeOk, bitCapacityOk] at h
  omega

/-- The rows of the map rise and do not overlap. -/
theorem memoryMap_rises {p : Params} (h : p.wellFormed = true) :
    (memoryMap p).Pairwise (fun r r' => r.base + r.size ≤ r'.base) := by
  have hb := params_bounds h
  simp [memoryMap, Config.regBase, Config.ftabBase, Config.mapLenBase, Config.mapCodeBase,
    Config.bssBase, Config.ibufBase, Config.obufBase]
  omega

theorem find_row {a n : Nat} {row : RegionRow} (h1 : row.base ≤ a) (h2 : a < row.base + row.size) :
    ∀ l : List RegionRow, l.Pairwise (fun r r' => r.base + r.size ≤ r'.base) → row ∈ l →
    l.find? (fun r => decide (a < r.base + r.size) && decide (r.base < a + max n 1)) = some row := by
  intro l
  induction l with
  | nil => intro _ h; simp at h
  | cons r l ih =>
    intro hp hm
    rw [List.pairwise_cons] at hp
    rw [List.find?_cons]
    rcases List.mem_cons.1 hm with rfl | hm
    · have : (decide (a < row.base + row.size) && decide (row.base < a + max n 1)) = true := by
        simp; omega
      rw [this]
    · have := hp.1 _ hm
      have : (decide (a < r.base + r.size) && decide (r.base < a + max n 1)) = false := by
        simp; omega
      rw [this]
      exact ih hp.2 hm

/-- A row of the map is the region of every access that starts in it. -/
theorem touchedRegion_of_mem {p : Params} (h : p.wellFormed = true) {row : RegionRow}
    (hr : row ∈ memoryMap p) {a : Nat} (n : Nat) (h1 : row.base ≤ a)
    (h2 : a < row.base + row.size) : touchedRegion p a n = some row :=
  find_row h1 h2 _ (memoryMap_rises h) hr

theorem touchedRegion_eq_none {p : Params} {a n : Nat} :
    touchedRegion p a n = none ↔
      ∀ row ∈ memoryMap p, ¬ (a < row.base + row.size ∧ row.base < a + max n 1) := by
  simp [touchedRegion, List.find?_eq_none]

theorem touchedRegion_mem {p : Params} {a n : Nat} {row : RegionRow}
    (h : touchedRegion p a n = some row) :
    row ∈ memoryMap p ∧ a < row.base + row.size ∧ row.base < a + max n 1 := by
  refine ⟨List.mem_of_find?_eq_some h, ?_⟩
  simpa using List.find?_some h

/-- The register window needs no bound on the parameters. -/
theorem touchedRegion_reg (p : Params) {a : Nat} (n : Nat) (h : a < 0x100) :
    touchedRegion p a n = some ⟨.reg, Config.regBase, 0x100⟩ := by
  have h1 : (decide (a < Config.regBase + 256) && decide (Config.regBase < a + max n 1)) = true := by
    simp [Config.regBase]; omega
  rw [touchedRegion, memoryMap, List.find?_cons, h1]

/-- A width a region admits is 1, 2, 4 or 8, and the address is a multiple of it. -/
theorem regionAdmits_width {r : Region} {a n : Nat} (h : regionAdmits r a n = true) :
    n ∈ [1, 2, 4, 8] ∧ a % n = 0 := by
  cases r <;> simp [regionAdmits] at h <;> simp [h]

/-- An access that a region admits and that starts below its end lies inside it. -/
theorem admitted_inside {p : Params} (h : p.wellFormed = true) {row : RegionRow}
    (hr : row ∈ memoryMap p) {a n : Nat} (hn : n ∈ [1, 2, 4, 8]) (ha : a % n = 0)
    (h2 : a < row.base + row.size) : a + n ≤ row.base + row.size := by
  have hb := params_bounds h
  simp only [memoryMap, List.mem_cons, List.not_mem_nil, or_false] at hr hn
  rcases hr with rfl | rfl | rfl | rfl | rfl | rfl | rfl <;>
    simp only [Config.regBase, Config.ftabBase, Config.mapLenBase, Config.mapCodeBase,
      Config.bssBase, Config.ibufBase, Config.obufBase] at h2 ⊢ <;>
    rcases hn with rfl | rfl | rfl | rfl <;> omega

/-! ### Little-endian values -/

theorem leNat_lt (bs : List Byte) : leNat bs < 256 ^ bs.length := by
  induction bs with
  | nil => simp [leNat]
  | cons b bs ih =>
    have := b.isLt
    simp only [leNat, List.length_cons, Nat.pow_succ]
    omega

/-- Byte `k` of the little-endian value of at most eight bytes is byte `k` of them. -/
theorem extract_leNat (bs : List Byte) : bs.length ≤ 8 → ∀ k,
    (toWord (leNat bs)).extractLsb' (8 * k) 8 = bs.getD k 0 := by
  intro h k
  apply BitVec.eq_of_toNat_eq
  have hlt : leNat bs < 2 ^ 64 := by
    have h1 := leNat_lt bs
    have h2 : 256 ^ bs.length ≤ 256 ^ 8 := Nat.pow_le_pow_right (by omega) h
    have h3 : (256 : Nat) ^ 8 = 2 ^ 64 := by decide
    omega
  rw [BitVec.extractLsb'_toNat, toNat_toWord hlt]
  clear h hlt
  induction bs generalizing k with
  | nil => simp [leNat]
  | cons b bs ih =>
    have hb := b.isLt
    cases k with
    | zero => simp [leNat]; omega
    | succ k =>
      rw [List.getD_cons_succ, ← ih k, Nat.mul_succ, Nat.add_comm (8 * k), Nat.shiftRight_add]
      congr 1
      congr 1
      simp [leNat, Nat.shiftRight_eq_div_pow]
      omega

theorem wordBytes_length (w : Word) : (wordBytes w).length = 8 := by simp [wordBytes]

theorem wordBytes_getElem? (w : Word) (k : Nat) :
    (wordBytes w)[k]? = if k < 8 then some (w.extractLsb' (8 * k) 8) else none := by
  by_cases h : k < 8 <;> simp [wordBytes, wordByte, h]

/-- A word is the little-endian value of its bytes. -/
theorem leNat_wordBytes (w : Word) : toWord (leNat (wordBytes w)) = w := by
  apply BitVec.eq_of_getLsbD_eq
  intro i hi
  have h := extract_leNat (wordBytes w) (by simp [wordBytes]) (i / 8)
  have h8 : i / 8 < 8 := by omega
  have h2 : (wordBytes w).getD (i / 8) 0 = w.extractLsb' (8 * (i / 8)) 8 := by
    rw [List.getD_eq_getElem?_getD, wordBytes_getElem?, if_pos h8]; rfl
  rw [h2] at h
  have h3 := congrArg (fun x => x.getLsbD (i % 8)) h
  have e : 8 * (i / 8) + i % 8 = i := by omega
  simpa [BitVec.getLsbD_extractLsb', e, Nat.mod_lt] using h3

/-- The value of an access is the little-endian value of the bytes it touches. -/
theorem hostValue_extract (s : State) (a n k : Nat) (hn : n ≤ 8) (hk : k < n) :
    (s.hostValue a n).extractLsb' (8 * k) 8 = s.hostByte (a + k) := by
  rw [State.hostValue, extract_leNat _ (by simp)]
  have : k < min n 8 := by omega
  simp [List.getD_eq_getElem?_getD, this]

theorem hostValue_one (s : State) (a : Nat) :
    s.hostValue a 1 = (s.hostByte a).zeroExtend 64 := by
  apply BitVec.eq_of_toNat_eq
  have := (s.hostByte a).isLt
  simp [State.hostValue, leNat, toWord]

/-- An access whose eight bytes are the bytes of a word reads that word. -/
theorem hostValue_of_bytes (s : State) (a : Nat) (w : Word)
    (h : ∀ k, k < 8 → s.hostByte (a + k) = wordByte w k) : s.hostValue a 8 = w := by
  have e : (List.range (min 8 8)).map (fun k => s.hostByte (a + k)) = wordBytes w :=
    List.map_congr_left (fun k hk => h k (by simpa using hk))
  rw [State.hostValue, e, leNat_wordBytes]

/-! ### One access -/

theorem hostRead_of_region {s : State} {a : Addr} {n : Nat} {row : RegionRow}
    (h : touchedRegion s.params a.toNat n = some row) :
    hostRead a n s =
      if regionAdmits row.region a.toNat n then
        .next { s with rdata := s.hostValue a.toNat n, draws := s.draws + 1 }
      else .fault (.hostAccessFault a n) := by
  rw [hostRead, h]; rfl

theorem hostRead_unmapped {s : State} {a : Addr} {n : Nat}
    (h : touchedRegion s.params a.toNat n = none) :
    hostRead a n s = .next { s with rdata := 0, draws := s.draws + 1 } := by
  rw [hostRead, h]; rfl

/-- A host read changes the value read and the draw counter and nothing else (20_memory.md R109). -/
theorem hostRead_next {s t : State} {a : Addr} {n : Nat} (h : hostRead a n s = .next t) :
    ∃ v, t = { s with rdata := v, draws := s.draws + 1 } := by
  cases ht : touchedRegion s.params a.toNat n with
  | none => rw [hostRead_unmapped ht] at h; cases h; exact ⟨_, rfl⟩
  | some row =>
    rw [hostRead_of_region ht] at h
    split at h
    · cases h; exact ⟨_, rfl⟩
    · cases h

/-- The bytes of a control register, aligned, while it is not drawn. -/
theorem hostValue_reg (s : State) (a : Nat) (h : a < 0x100) (h8 : a % 8 = 0)
    (hb : (s.busy && isResultReg (regAt a)) = false) :
    s.hostValue a 8 = s.regValue (regAt a) := by
  apply hostValue_of_bytes
  intro k hk
  have e1 : (a + k) / 8 = a / 8 := by omega
  have e2 : regAt (a + k) = regAt a := by unfold regAt; rw [e1]
  have e3 : (a + k) % 8 = k := by omega
  rw [State.hostByte, touchedRegion_reg _ _ (by omega)]
  simp only [Config.regBase, Nat.sub_zero, drawnWhileBusy, State.idleByte, e2, e3, hb]
  rfl

/-- An aligned 8-byte read of a control register that is not drawn. -/
theorem hostRead_reg (s : State) (a : Addr) (h : a.toNat < 0x100) (h8 : a.toNat % 8 = 0)
    (hb : (s.busy && isResultReg (regAt a.toNat)) = false) :
    hostRead a 8 s =
      .next { s with rdata := s.regValue (regAt a.toNat), draws := s.draws + 1 } := by
  rw [hostRead_of_region (touchedRegion_reg _ _ h), if_pos (by simp [regionAdmits, h8]),
    hostValue_reg s _ h h8 hb]

/-- An aligned 8-byte write of a control register. -/
theorem hostWrite_reg (s : State) (a : Addr) (v : Word) (h : a.toNat < 0x100)
    (h8 : a.toNat % 8 = 0) : hostWrite a 8 v s = writeReg a (regAt a.toNat) v s := by
  rw [hostWrite, touchedRegion_reg _ _ h]
  simp [regionAdmits, h8, Config.regBase]

theorem hostWrite_inadmissible {s : State} {a : Addr} {n : Nat} {v : Word} {row : RegionRow}
    (h : touchedRegion s.params a.toNat n = some row)
    (ha : regionAdmits row.region a.toNat n = false) :
    hostWrite a n v s = .fault (.hostAccessFault a n) := by
  rw [hostWrite, h]; simp [ha]

theorem hostWrite_unmapped {s : State} {a : Addr} {n : Nat} {v : Word}
    (h : touchedRegion s.params a.toNat n = none) : hostWrite a n v s = .next s := by
  rw [hostWrite, h]

/-- What a host write can do: it stops, or it changes a register a host may write, issues a command,
or changes IBUF bytes (20_memory.md R102 to R104, 10_state.md R31 to R39). -/
theorem hostWrite_next {s t : State} {a : Addr} {n : Nat} {v : Word}
    (h : hostWrite a n v s = .next t) :
    t = s ∨ t = { s with ovr := true } ∨ (s.busy = false ∧ t = s.issue v) ∨ t = s.writeStatus v ∨
      t = s.writeIrqen v ∨
      (s.busy = false ∧
        (t = { s with arg0 := v } ∨ t = { s with arg1 := v } ∨ t = { s with ilen := v })) ∨
      (s.busy = false ∧ ∃ row, touchedRegion s.params a.toNat n = some row ∧
        row.region = .ibuf ∧ regionAdmits .ibuf a.toNat n = true ∧
        t = { s with mem := Mem.putBytes s.mem a.toNat ((wordBytes v).take n) }) := by
  rw [hostWrite] at h
  split at h
  · cases h; exact .inl rfl
  · rename_i row hrow
    split at h
    · rename_i hadm
      cases hr : row.region <;> simp only [hr] at h
      · cases hg : regAt (a.toNat - row.base) <;> simp only [hg, writeReg] at h <;>
          (try split at h) <;> cases h <;> simp_all
      all_goals try (cases h; exact .inl rfl)
      split at h
      · cases h
      · rename_i hb
        cases h
        refine .inr (.inr (.inr (.inr (.inr (.inr ⟨by simpa using hb, row, hrow, hr, ?_, rfl⟩)))))
        rwa [hr] at hadm
    · cases h

/-- The widths and alignments of the host interface are those claims speak of. -/
theorem regionAdmits_eq (r : Region) (a n : Nat) : regionAdmits r a n = accessAllowed r a n := by
  rw [Bool.eq_iff_iff]
  cases r <;> simp [regionAdmits, accessAllowed] <;> grind

/-- Only the faults of `turnFault` occur: a read (60_exceptions.md R413). -/
theorem hostRead_fault {s : State} {a : Addr} {n : Nat} {f : Fault} :
    hostRead a n s = .fault f ↔ turnFault s (.read a n) = some f := by
  simp only [hostRead, turnFault, ← regionAdmits_eq]
  cases touchedRegion s.params a.toNat n with
  | none => simp
  | some row => by_cases h : regionAdmits row.region a.toNat n <;> simp [h]

/-- Only the faults of `turnFault` occur: a write (60_exceptions.md R411). -/
theorem hostWrite_fault {s : State} {a : Addr} {n : Nat} {v : Word} {f : Fault} :
    hostWrite a n v s = .fault f ↔ turnFault s (.write a n v) = some f := by
  simp only [hostWrite, turnFault, ← regionAdmits_eq]
  cases touchedRegion s.params a.toNat n with
  | none => simp
  | some row =>
    obtain ⟨r, b, z⟩ := row
    by_cases h : regionAdmits r a.toNat n
    · simp only [h, if_true]
      cases r with
      | reg => cases hg : regAt (a.toNat - b) <;> cases hb : s.busy <;> simp [writeReg, hb]
      | ibuf => cases hb : s.busy <;> simp
      | _ => cases s.busy <;> simp
    · simp [h]

theorem hostRead_not_refused {s : State} {a : Addr} {n : Nat} {r : Refusal} :
    hostRead a n s ≠ .refused r := by
  rw [hostRead]
  repeat' split
  all_goals simp

theorem hostWrite_not_refused {s : State} {a : Addr} {n : Nat} {v : Word} {r : Refusal} :
    hostWrite a n v s ≠ .refused r := by
  rw [hostWrite]
  split
  · simp
  · split
    · split
      · unfold writeReg; split <;> (try split) <;> simp
      · split <;> simp
      all_goals simp
    · simp

end Sys2Proof.Machine
end

