-- ==== Sys2Proof/Laws/Tree.lean ====
section
/-! SUPPORT. The tree builder: removing the least node, the merge loop, and the trees it gives
(42_tree_builder.md R221 to R226). -/

namespace Sys2Proof.Machine

/-! ### Keys -/

theorem before_iff (a b : HuffmanNode) : a.before b = true ↔ keyLess a.key b.key := by
  simp [HuffmanNode.before, keyLess, HuffmanNode.key]

theorem keyLess_irrefl (a : Nat × Nat) : ¬ keyLess a a := by
  simp [keyLess]

theorem keyLess_trans {a b c : Nat × Nat} (h : keyLess a b) (h' : keyLess b c) : keyLess a c := by
  unfold keyLess at *; omega

theorem keyLess_asymm {a b : Nat × Nat} (h : keyLess a b) : ¬ keyLess b a :=
  fun h' => keyLess_irrefl a (keyLess_trans h h')

theorem keyLess_total {a b : Nat × Nat} (h : a.2 ≠ b.2) : keyLess a b ∨ keyLess b a := by
  unfold keyLess; omega

/-! ### Leaves -/

theorem leaves_ne_nil (n : HuffmanNode) : n.leaves ≠ [] := by
  induction n with
  | leaf v f => simp [HuffmanNode.leaves]
  | internal f l r ihl _ => simp [HuffmanNode.leaves, ihl]

theorem leaves_length_pos (n : HuffmanNode) : 0 < n.leaves.length :=
  List.length_pos_iff.2 (leaves_ne_nil n)

theorem symbols_internal (f : Word) (l r : HuffmanNode) :
    (HuffmanNode.internal f l r).symbols = l.symbols ++ r.symbols := by
  simp [HuffmanNode.symbols, HuffmanNode.leaves]

theorem minsym_mem_symbols (n : HuffmanNode) : ∃ v ∈ n.symbols, v.toNat = n.minsym := by
  induction n with
  | leaf v f => exact ⟨v, by simp [HuffmanNode.symbols, HuffmanNode.leaves], rfl⟩
  | internal f l r ihl ihr =>
    obtain ⟨u, hu, eu⟩ := ihl
    obtain ⟨v, hv, ev⟩ := ihr
    rw [HuffmanNode.minsym, symbols_internal]
    by_cases h : l.minsym ≤ r.minsym
    · exact ⟨u, List.mem_append_left _ hu, by omega⟩
    · exact ⟨v, List.mem_append_right _ hv, by omega⟩

theorem minsym_le (n : HuffmanNode) : ∀ v ∈ n.symbols, n.minsym ≤ v.toNat := by
  induction n with
  | leaf v f => intro u h; simp [HuffmanNode.symbols, HuffmanNode.leaves] at h; simp [h, HuffmanNode.minsym]
  | internal f l r ihl ihr =>
    intro v h
    rw [symbols_internal] at h
    rw [HuffmanNode.minsym]
    rcases List.mem_append.1 h with h | h
    · have := ihl v h; omega
    · have := ihr v h; omega

/-- The byte values under the nodes of a queue. -/
def queueSymbols (q : List HuffmanNode) : List Byte := q.flatMap HuffmanNode.symbols

theorem queueSymbols_cons (n : HuffmanNode) (q : List HuffmanNode) :
    queueSymbols (n :: q) = n.symbols ++ queueSymbols q := by simp [queueSymbols]

theorem queueSymbols_perm {q q' : List HuffmanNode} (h : q.Perm q') :
    (queueSymbols q).Perm (queueSymbols q') := h.flatMap_right _

theorem minsym_ne {n : HuffmanNode} {q : List HuffmanNode} (h : (queueSymbols (n :: q)).Nodup)
    {x : HuffmanNode} (hx : x ∈ q) : n.minsym ≠ x.minsym := by
  rw [queueSymbols_cons] at h
  obtain ⟨u, hu, eu⟩ := minsym_mem_symbols n
  obtain ⟨v, hv, ev⟩ := minsym_mem_symbols x
  intro e
  have huv : u = v := BitVec.eq_of_toNat_eq (by omega)
  subst huv
  exact (List.disjoint_of_nodup_append h) hu (List.mem_flatMap.2 ⟨x, hx, hv⟩)

/-! ### Removing the least node -/

theorem popLeast_perm (q : List HuffmanNode) : ∀ n : HuffmanNode,
    (n :: q).Perm ((popLeast n q).1 :: (popLeast n q).2) := by
  induction q with
  | nil => intro n; simp [popLeast]
  | cons m q ih =>
    intro n
    simp only [popLeast]
    split
    · exact ((ih m).cons n).trans (List.Perm.swap _ _ _)
    · exact (List.Perm.swap _ _ _).trans (((ih n).cons m).trans (List.Perm.swap _ _ _))

theorem popLeast_minimal (q : List HuffmanNode) : ∀ n : HuffmanNode,
    ∀ x ∈ n :: q, ¬ keyLess x.key (popLeast n q).1.key := by
  induction q with
  | nil =>
    intro n x hx
    simp at hx
    subst hx
    exact keyLess_irrefl _
  | cons m q ih =>
    intro n x hx
    simp only [popLeast]
    split
    next hb =>
      rw [before_iff] at hb
      rcases List.mem_cons.1 hx with rfl | hx
      · intro h
        exact ih m m List.mem_cons_self (keyLess_trans hb h)
      · exact ih m x hx
    next hb =>
      rw [before_iff] at hb
      rcases List.mem_cons.1 hx with rfl | hx
      · exact ih x x List.mem_cons_self
      · rcases List.mem_cons.1 hx with rfl | hx
        · intro h
          dsimp only at h
          have h1 := ih n n List.mem_cons_self
          unfold keyLess at h h1 hb
          omega
        · exact ih n x (List.mem_cons_of_mem _ hx)

/-- `popLeast` removes THE node with the least key when no byte value stands under two nodes. -/
theorem popLeast_takesLeast {n : HuffmanNode} {q : List HuffmanNode}
    (h : (queueSymbols (n :: q)).Nodup) :
    TakesLeast (n :: q) (popLeast n q).1 (popLeast n q).2 := by
  refine ⟨popLeast_perm q n, fun x hx => ?_⟩
  have hp := popLeast_perm q n
  have hnd := (queueSymbols_perm hp).nodup_iff.1 h
  have hmin := popLeast_minimal q n x (hp.mem_iff.2 (List.mem_cons_of_mem _ hx))
  rcases keyLess_total (a := (popLeast n q).1.key) (b := x.key) (minsym_ne hnd hx) with h' | h'
  · exact h'
  · exact absurd h' hmin

theorem takesLeast_nodup {q rest : List HuffmanNode} {a : HuffmanNode} (h : TakesLeast q a rest)
    (hq : (queueSymbols q).Nodup) : (queueSymbols (a :: rest)).Nodup :=
  (queueSymbols_perm h.1).nodup_iff.1 hq

theorem nodup_tail {a : HuffmanNode} {rest : List HuffmanNode}
    (h : (queueSymbols (a :: rest)).Nodup) : (queueSymbols rest).Nodup := by
  rw [queueSymbols_cons] at h
  exact h.of_append_right

theorem nodup_join {a b : HuffmanNode} {rest : List HuffmanNode} (f : Word)
    (h : (queueSymbols (a :: b :: rest)).Nodup) :
    (queueSymbols (.internal f a b :: rest)).Nodup := by
  rw [queueSymbols_cons, symbols_internal, List.append_assoc]
  simpa [queueSymbols_cons] using h

/-! ### The merge loop follows the merge rule -/

theorem mergeQueue_builds : ∀ (k : Nat) (q : List HuffmanNode), q ≠ [] → q.length ≤ k + 1 →
    (queueSymbols q).Nodup → ∃ t, mergeQueue k q = some t ∧ Builds q t := by
  intro k
  induction k with
  | zero =>
    intro q hne hl _
    match q, hne, hl with
    | [n], _, _ => exact ⟨n, rfl, .one n⟩
  | succ k ih =>
    intro q hne hl hnd
    match q, hne, hl, hnd with
    | [n], _, _, _ => exact ⟨n, rfl, .one n⟩
    | n :: m :: q, _, hl, hnd =>
      have h1 := popLeast_takesLeast hnd
      have hlen := (popLeast_perm (m :: q) n).length_eq
      simp only [mergeQueue]
      cases hp : popLeast n (m :: q) with
      | mk a rest =>
        rw [hp] at h1 hlen
        match rest, h1, hlen with
        | [], _, hlen => simp at hlen
        | x :: rest, h1, hlen =>
          have hnd1 := takesLeast_nodup h1 hnd
          have h2 := popLeast_takesLeast (nodup_tail hnd1)
          have hlen2 := (popLeast_perm rest x).length_eq
          cases hp2 : popLeast x rest with
          | mk b rest' =>
            rw [hp2] at h2 hlen2
            have hperm : (a :: x :: rest).Perm (a :: b :: rest') := h2.1.cons a
            have hnd2 := (queueSymbols_perm hperm).nodup_iff.1 hnd1
            obtain ⟨t, ht, hb⟩ := ih (joinNodes a b :: rest') (by simp)
              (by simp at hl hlen hlen2 ⊢; omega) (nodup_join (a.freq + b.freq) hnd2)
            exact ⟨t, by simpa [hp2] using ht, .merge _ _ _ a b t h1 h2 hb⟩

theorem takesLeast_unique {q q' rest rest' : List HuffmanNode} {a a' : HuffmanNode}
    (hq : q.Perm q') (h : TakesLeast q a rest) (h' : TakesLeast q' a' rest') :
    a = a' ∧ rest.Perm rest' := by
  have hp : (a :: rest).Perm (a' :: rest') := h.1.symm.trans (hq.trans h'.1)
  have ha : a = a' := by
    rcases List.mem_cons.1 (hp.mem_iff.1 List.mem_cons_self) with e | hmem
    · exact e
    · rcases List.mem_cons.1 (hp.mem_iff.2 (List.mem_cons_self (a := a'))) with e | hmem'
      · exact e.symm
      · exact absurd (h'.2 a hmem) (keyLess_asymm (h.2 a' hmem'))
  subst ha
  exact ⟨rfl, hp.cons_inv⟩

theorem builds_length {q : List HuffmanNode} {t : HuffmanNode} (h : Builds q t) :
    q ≠ [] ∧ (q.length = 1 → q = [t]) := by
  cases h with
  | one n => simp
  | merge q rest rest' a b t h1 h2 hb =>
    have l1 := h1.1.length_eq
    have l2 := h2.1.length_eq
    simp at l1 l2
    exact ⟨fun e => by subst e; simp at l1, fun e => absurd e (by omega)⟩

/-- The merge rule determines the tree (42_tree_builder.md R223, R225). -/
theorem builds_unique {q q' : List HuffmanNode} {t t' : HuffmanNode} (h : Builds q t) :
    q.Perm q' → Builds q' t' → t = t' := by
  induction h generalizing q' with
  | one n =>
    intro hp h'
    have e : q' = [n] := List.perm_singleton.1 hp.symm
    subst e
    simpa using (builds_length h').2 rfl
  | merge q rest rest' a b t h1 h2 hb ih =>
    intro hp h'
    cases h' with
    | one n =>
      have e : q = [t'] := List.perm_singleton.1 hp
      subst e
      have l1 := h1.1.length_eq
      have l2 := h2.1.length_eq
      simp only [List.length_cons, List.length_nil] at l1 l2
      omega
    | merge _ rest1 rest1' a1 b1 _ h1' h2' hb' =>
      obtain ⟨rfl, hr⟩ := takesLeast_unique hp h1 h1'
      obtain ⟨rfl, hr'⟩ := takesLeast_unique hr h2 h2'
      exact ih (hr'.cons _) hb'

/-! ### What the merge rule keeps -/

/-- The leaves of the nodes of a queue. -/
def queueLeaves (q : List HuffmanNode) : List (Byte × Word) := q.flatMap HuffmanNode.leaves

theorem queueLeaves_cons (n : HuffmanNode) (q : List HuffmanNode) :
    queueLeaves (n :: q) = n.leaves ++ queueLeaves q := by simp [queueLeaves]

theorem queueLeaves_perm {q q' : List HuffmanNode} (h : q.Perm q') :
    (queueLeaves q).Perm (queueLeaves q') := h.flatMap_right _

theorem builds_leaves {q : List HuffmanNode} {t : HuffmanNode} (h : Builds q t) :
    (queueLeaves q).Perm t.leaves := by
  induction h with
  | one n => simp [queueLeaves]
  | merge q rest rest' a b t h1 h2 _ ih =>
    have e : (queueLeaves q).Perm (queueLeaves (a :: b :: rest')) :=
      queueLeaves_perm (h1.1.trans (h2.1.cons a))
    refine e.trans (List.Perm.trans ?_ ih)
    simp [queueLeaves_cons, HuffmanNode.leaves]

/-- The frequencies of a queue, summed exactly. -/
def queueFreq (q : List HuffmanNode) : Nat := (q.map (fun n => n.freq.toNat)).sum

theorem queueFreq_perm {q q' : List HuffmanNode} (h : q.Perm q') : queueFreq q = queueFreq q' :=
  (h.map _).sum_nat

theorem queueFreq_cons (n : HuffmanNode) (q : List HuffmanNode) :
    queueFreq (n :: q) = n.freq.toNat + queueFreq q := by simp [queueFreq]

/-- No sum wraps while the total fits in 64 bits (42_tree_builder.md R224). -/
theorem builds_sums {q : List HuffmanNode} {t : HuffmanNode} (h : Builds q t) :
    queueFreq q < 2 ^ 64 → (∀ n ∈ q, n.SumsExact) → t.SumsExact ∧ t.freq.toNat = queueFreq q := by
  induction h with
  | one n => intro _ h; exact ⟨h n List.mem_cons_self, by simp [queueFreq]⟩
  | merge q rest rest' a b t h1 h2 _ ih =>
    intro hf hs
    have hp : q.Perm (a :: b :: rest') := h1.1.trans (h2.1.cons a)
    rw [queueFreq_perm hp, queueFreq_cons, queueFreq_cons] at hf ⊢
    have hadd : (a.freq + b.freq).toNat = a.freq.toNat + b.freq.toNat := by
      rw [BitVec.toNat_add]; omega
    have hj : (HuffmanNode.internal (a.freq + b.freq) a b).freq = a.freq + b.freq := rfl
    have hs' : ∀ n ∈ a :: b :: rest', n.SumsExact := fun n hn => hs n (hp.mem_iff.2 hn)
    have := ih (by rw [queueFreq_cons, hj]; omega) (by
      intro n hn
      rcases List.mem_cons.1 hn with rfl | hn
      · exact ⟨hadd, hs' a (by simp), hs' b (by simp)⟩
      · exact hs' n (by simp [hn]))
    refine ⟨this.1, ?_⟩
    rw [this.2, queueFreq_cons, hj]
    omega

theorem nodes_eq (t : HuffmanNode) : t.nodes + 1 = 2 * t.leaves.length := by
  induction t with
  | leaf v f => simp [HuffmanNode.nodes, HuffmanNode.leaves]
  | internal f l r ihl ihr => simp [HuffmanNode.nodes, HuffmanNode.leaves]; omega

theorem depth_lt_leaves (t : HuffmanNode) : t.depth < t.leaves.length := by
  induction t with
  | leaf v f => simp [HuffmanNode.depth, HuffmanNode.leaves]
  | internal f l r ihl ihr =>
    have h1 := leaves_length_pos l
    have h2 := leaves_length_pos r
    simp [HuffmanNode.depth, HuffmanNode.leaves]; omega

/-! ### The tree of a table -/

theorem queueLeaves_seed (F : List Word) : queueLeaves (seedQueue F) = tableEntries F := by
  unfold queueLeaves seedQueue
  induction tableEntries F with
  | nil => rfl
  | cons e l ih => simp [HuffmanNode.leaves] at ih ⊢; exact ih

theorem queueSymbols_seed (F : List Word) :
    queueSymbols (seedQueue F) = (tableEntries F).map Prod.fst := by
  rw [← queueLeaves_seed]
  simp only [queueSymbols, queueLeaves, List.map_flatMap]
  rfl

theorem seed_nodup (F : List Word) : (queueSymbols (seedQueue F)).Nodup := by
  rw [queueSymbols_seed]
  exact allBytes_nodup.sublist (tableEntries_keys_sublist F)

theorem buildTree_none {F : List Word} : buildTree F = none ↔ tableEntries F = [] := by
  constructor
  · intro h
    by_contra hne
    obtain ⟨t, ht, _⟩ := mergeQueue_builds (seedQueue F).length (seedQueue F)
      (by simpa [seedQueue] using hne) (by omega) (seed_nodup F)
    rw [buildTree, ht] at h
    cases h
  · intro h
    simp [buildTree, seedQueue, h, mergeQueue]

/-- The tree of a table is exactly the one the merge rule gives (42_tree_builder.md R222, R223). -/
theorem buildTree_iff {F : List Word} {t : HuffmanNode} :
    buildTree F = some t ↔ Builds (seedQueue F) t := by
  constructor
  · intro h
    have hne : seedQueue F ≠ [] := by
      intro e
      rw [buildTree, e] at h
      simp [mergeQueue] at h
    obtain ⟨t', ht, hb⟩ := mergeQueue_builds (seedQueue F).length (seedQueue F) hne (by omega)
      (seed_nodup F)
    rw [buildTree, ht] at h
    cases h
    exact hb
  · intro h
    obtain ⟨t', ht, hb⟩ := mergeQueue_builds (seedQueue F).length (seedQueue F)
      (builds_length h).1 (by omega) (seed_nodup F)
    rw [buildTree, ht, builds_unique hb (List.Perm.refl _) h]

theorem buildTree_leaves {F : List Word} {t : HuffmanNode} (h : buildTree F = some t) :
    (tableEntries F).Perm t.leaves := by
  have := builds_leaves (buildTree_iff.1 h)
  rwa [queueLeaves_seed] at this

theorem buildTree_symbols_nodup {F : List Word} {t : HuffmanNode} (h : buildTree F = some t) :
    t.symbols.Nodup := by
  have hp := (buildTree_leaves h).map Prod.fst
  exact hp.nodup_iff.1 (allBytes_nodup.sublist (tableEntries_keys_sublist F))

theorem queueFreq_seed {F : List Word} (h : F.length = 256) :
    queueFreq (seedQueue F) = tableSum F := by
  rw [← entries_sum h, queueFreq, seedQueue, List.map_map]
  rfl

theorem buildTree_sums {F : List Word} {t : HuffmanNode} (hl : F.length = 256)
    (hs : tableSum F < 2 ^ 64) (h : buildTree F = some t) :
    t.SumsExact ∧ t.freq.toNat = tableSum F := by
  have := builds_sums (buildTree_iff.1 h) (by rwa [queueFreq_seed hl]) (by
    intro n hn
    obtain ⟨e, _, rfl⟩ := List.mem_map.1 hn
    trivial)
  rwa [queueFreq_seed hl] at this

end Sys2Proof.Machine
end

