-- ==== Sys2Proof/Laws/Map.lean ====
section
/-! SUPPORT. The encoding map of a tree: paths, codes, prefix freedom and the Kraft sum
(43_encoding_map.md R241 to R244). -/

namespace Sys2Proof.Machine

theorem paths_prefix (n : HuffmanNode) : ∀ p q : Code,
    n.paths (p ++ q) = (n.paths q).map (fun e => (e.1, p ++ e.2)) := by
  induction n with
  | leaf v f => intro p q; simp [HuffmanNode.paths]
  | internal f l r ihl ihr =>
    intro p q
    simp only [HuffmanNode.paths, List.append_assoc, ihl, ihr, List.map_append]

theorem paths_eq (n : HuffmanNode) (p : Code) :
    n.paths p = (n.paths []).map (fun e => (e.1, p ++ e.2)) := by
  simpa using paths_prefix n p []

theorem mem_paths {n : HuffmanNode} {p : Code} {v : Byte} {c : Code} :
    (v, c) ∈ n.paths p ↔ ∃ d, (v, d) ∈ n.paths [] ∧ c = p ++ d := by
  rw [paths_eq, List.mem_map]
  constructor
  · rintro ⟨⟨u, d⟩, h, e⟩
    cases e
    exact ⟨d, h, rfl⟩
  · rintro ⟨d, h, rfl⟩
    exact ⟨(v, d), h, rfl⟩

/-- The leaves below an internal node: a left edge is 0 (`false`), a right edge 1 (`true`). -/
theorem mem_paths_internal {f : Word} {l r : HuffmanNode} {v : Byte} {c : Code} :
    (v, c) ∈ (HuffmanNode.internal f l r).paths [] ↔
      (∃ d, (v, d) ∈ l.paths [] ∧ c = false :: d) ∨ (∃ d, (v, d) ∈ r.paths [] ∧ c = true :: d) := by
  rw [HuffmanNode.paths, List.mem_append, List.nil_append, List.nil_append,
    mem_paths (p := [false]), mem_paths (p := [true])]
  simp only [List.singleton_append]

/-- The paths of a tree are the bit strings that lead to its leaves. -/
theorem mem_paths_iff_follow (n : HuffmanNode) : ∀ (v : Byte) (c : Code),
    (v, c) ∈ n.paths [] ↔ ∃ w, n.follow c = some (.leaf v w) := by
  induction n with
  | leaf u f =>
    intro v c
    cases c with
    | nil => simp [HuffmanNode.paths, HuffmanNode.follow, eq_comm]
    | cons b c => simp [HuffmanNode.paths, HuffmanNode.follow]
  | internal f l r ihl ihr =>
    intro v c
    rw [mem_paths_internal]
    cases c with
    | nil => simp [HuffmanNode.follow]
    | cons b c => cases b <;> simp [HuffmanNode.follow, ihl, ihr]

theorem paths_symbols (n : HuffmanNode) : ∀ p, (n.paths p).map Prod.fst = n.symbols := by
  induction n with
  | leaf v f => intro p; rfl
  | internal f l r ihl ihr =>
    intro p
    rw [HuffmanNode.paths, List.map_append, ihl, ihr, symbols_internal]

theorem path_length_le_depth (n : HuffmanNode) : ∀ v c, (v, c) ∈ n.paths [] → c.length ≤ n.depth := by
  induction n with
  | leaf v f => intro u c h; simp [HuffmanNode.paths] at h; simp [h]
  | internal f l r ihl ihr =>
    intro v c h
    rw [HuffmanNode.depth]
    rcases mem_paths_internal.1 h with ⟨d, hd, rfl⟩ | ⟨d, hd, rfl⟩
    · have := ihl v d hd; simp; omega
    · have := ihr v d hd; simp; omega

theorem path_ne_nil {f : Word} {l r : HuffmanNode} {v : Byte} {c : Code}
    (h : (v, c) ∈ (HuffmanNode.internal f l r).paths []) : c ≠ [] := by
  rcases mem_paths_internal.1 h with ⟨d, _, rfl⟩ | ⟨d, _, rfl⟩ <;> simp

theorem mem_symbols_iff {n : HuffmanNode} {v : Byte} :
    v ∈ n.symbols ↔ ∃ c, (v, c) ∈ n.paths [] := by
  rw [← paths_symbols n [], List.mem_map]
  constructor
  · rintro ⟨⟨u, c⟩, h, rfl⟩; exact ⟨c, h⟩
  · rintro ⟨c, h⟩; exact ⟨(v, c), h, rfl⟩

/-- Paths of one tree are prefix free as positions: a path that begins with a path is that path. -/
theorem paths_prefix_free (n : HuffmanNode) : ∀ u v c d, (u, c) ∈ n.paths [] → (v, d) ∈ n.paths [] →
    c <+: d → c = d := by
  induction n with
  | leaf v f =>
    intro u w c d h h' _
    simp [HuffmanNode.paths] at h h'
    rw [h.2, h'.2]
  | internal f l r ihl ihr =>
    intro u v c d h h' hp
    rcases mem_paths_internal.1 h with ⟨c', hc, rfl⟩ | ⟨c', hc, rfl⟩ <;>
      rcases mem_paths_internal.1 h' with ⟨d', hd, rfl⟩ | ⟨d', hd, rfl⟩
    · rw [ihl u v c' d' hc hd ((List.cons_prefix_cons.1 hp).2)]
    · simp at hp
    · simp at hp
    · rw [ihr u v c' d' hc hd ((List.cons_prefix_cons.1 hp).2)]

theorem path_symbol_unique (n : HuffmanNode) : ∀ u v c, (u, c) ∈ n.paths [] → (v, c) ∈ n.paths [] →
    u = v := by
  induction n with
  | leaf v f =>
    intro u w c h h'
    simp [HuffmanNode.paths] at h h'
    rw [h.1, h'.1]
  | internal f l r ihl ihr =>
    intro u v c h h'
    rcases mem_paths_internal.1 h with ⟨c', hc, rfl⟩ | ⟨c', hc, rfl⟩ <;>
      rcases mem_paths_internal.1 h' with ⟨d', hd, e⟩ | ⟨d', hd, e⟩
    · cases e; exact ihl u v _ hc hd
    · cases e
    · cases e
    · cases e; exact ihr u v _ hc hd

/-! ### Codes -/

theorem codeOf_foldl_absent {v : Byte} : ∀ (ps : List (Byte × Code)) (c : Code),
    v ∉ ps.map Prod.fst → ps.foldl (fun c e => if e.1 = v then e.2 else c) c = c := by
  intro ps
  induction ps with
  | nil => intro c _; rfl
  | cons e ps ih =>
    intro c h
    simp only [List.map_cons, List.mem_cons, not_or] at h
    rw [List.foldl_cons, if_neg (Ne.symm h.1)]
    exact ih c h.2

theorem codeOf_absent {ps : List (Byte × Code)} {v : Byte} (h : v ∉ ps.map Prod.fst) :
    codeOf ps v = [] := codeOf_foldl_absent ps [] h

theorem codeOf_mem {v : Byte} {p : Code} : ∀ (ps : List (Byte × Code)),
    (ps.map Prod.fst).Nodup → (v, p) ∈ ps → codeOf ps v = p := by
  intro ps
  unfold codeOf
  generalize ([] : Code) = c0
  induction ps generalizing c0 with
  | nil => intro _ h; cases h
  | cons e ps ih =>
    intro hnd hm
    rw [List.map_cons, List.nodup_cons] at hnd
    rw [List.foldl_cons]
    rcases List.mem_cons.1 hm with rfl | hm
    · rw [if_pos rfl]
      exact codeOf_foldl_absent ps p hnd.1
    · exact ih _ hnd.2 hm

theorem mapAssignments_symbols (t : HuffmanNode) :
    (mapAssignments (some t)).map Prod.fst = t.symbols := by
  cases t with
  | leaf v f => rfl
  | internal f l r => exact paths_symbols _ _

/-- The code of a byte value under a tree with distinct byte values. -/
theorem buildMap_code {t : HuffmanNode} (hnd : t.symbols.Nodup) {v : Byte} {c : Code}
    (h : (v, c) ∈ mapAssignments (some t)) : codeGet (buildMap (some t)) v = c := by
  rw [buildMap, codeGet_tabulate]
  exact codeOf_mem _ (by rwa [mapAssignments_symbols]) h

theorem buildMap_no_code {t : HuffmanNode} {v : Byte} (h : v ∉ t.symbols) :
    codeGet (buildMap (some t)) v = [] := by
  rw [buildMap, codeGet_tabulate]
  exact codeOf_absent (by rwa [mapAssignments_symbols])

theorem assignment_ne_nil {t : HuffmanNode} {v : Byte} {c : Code}
    (h : (v, c) ∈ mapAssignments (some t)) : c ≠ [] := by
  cases t with
  | leaf u f => simp [mapAssignments] at h; simp [h.2]
  | internal f l r => exact path_ne_nil (f := f) h

theorem mem_assignments_of_symbol {t : HuffmanNode} {v : Byte} (h : v ∈ t.symbols) :
    ∃ c, (v, c) ∈ mapAssignments (some t) := by
  rw [← mapAssignments_symbols, List.mem_map] at h
  obtain ⟨⟨u, c⟩, hm, rfl⟩ := h
  exact ⟨c, hm⟩

/-- Exactly the byte values of the tree have a code (43_encoding_map.md R244(a)). -/
theorem code_ne_nil_iff {t : HuffmanNode} (hnd : t.symbols.Nodup) (v : Byte) :
    codeGet (buildMap (some t)) v ≠ [] ↔ v ∈ t.symbols := by
  constructor
  · intro h
    by_contra hv
    exact h (buildMap_no_code hv)
  · intro h
    obtain ⟨c, hc⟩ := mem_assignments_of_symbol h
    rw [buildMap_code hnd hc]
    exact assignment_ne_nil hc

theorem buildMap_none : buildMap none = emptyMap := by
  rw [emptyMap_eq]
  rfl

theorem mem_table_symbols {F : List Word} {t : HuffmanNode}
    (h : buildTree F = some t) (v : Byte) : v ∈ t.symbols ↔ tableGet F v ≠ 0 := by
  have hp := ((buildTree_leaves h).map Prod.fst).mem_iff (a := v)
  rw [HuffmanNode.symbols, ← hp, List.mem_map]
  constructor
  · rintro ⟨⟨u, c⟩, hm, rfl⟩
    have := (mem_tableEntries u c).1 hm
    rw [this.2]
    exact this.1
  · intro hv
    exact ⟨(v, tableGet F v), (mem_tableEntries v _).2 ⟨hv, rfl⟩, rfl⟩

/-- Exactly the byte values with a positive count have a code (43_encoding_map.md R244(a)). -/
theorem code_iff_count {F : List Word} (v : Byte) :
    codeGet (buildMap (buildTree F)) v ≠ [] ↔ tableGet F v ≠ 0 := by
  cases h : buildTree F with
  | none =>
    rw [buildMap_none, codeGet_emptyMap]
    have he := buildTree_none.1 h
    constructor
    · intro hn; exact absurd rfl hn
    · intro hv
      have := (mem_tableEntries v (tableGet F v)).2 ⟨hv, rfl⟩
      rw [he] at this
      cases this
  | some t => rw [code_ne_nil_iff (buildTree_symbols_nodup h), mem_table_symbols h]

/-! ### The Kraft sum -/

theorem kraft_paths (n : HuffmanNode) : ∀ D, n.depth ≤ D →
    ((n.paths []).map (fun e => 2 ^ (D - e.2.length))).sum = 2 ^ D := by
  induction n with
  | leaf v f => intro D _; simp [HuffmanNode.paths]
  | internal f l r ihl ihr =>
    intro D hD
    rw [HuffmanNode.depth] at hD
    obtain ⟨E, rfl⟩ : ∃ E, D = E + 1 := ⟨D - 1, by omega⟩
    have hl := ihl E (by omega)
    have hr := ihr E (by omega)
    rw [HuffmanNode.paths, List.map_append, List.sum_append, paths_eq l, paths_eq r]
    simp only [List.map_map, Function.comp_def, List.nil_append, List.singleton_append,
      List.length_cons, Nat.add_sub_add_right]
    rw [hl, hr]
    omega


/-- A sum over the byte values of a list without repeats, in any order. -/
theorem sum_filter_mem {f : Byte → Nat} (l : List Byte) (hl : l.Nodup) :
    ((allBytes.filter (fun v => decide (v ∈ l))).map f).sum = (l.map f).sum := by
  apply List.Perm.sum_nat
  apply List.Perm.map
  rw [List.perm_ext_iff_of_nodup (allBytes_nodup.filter _) hl]
  intro v
  simp [mem_allBytes]

/-! ### The longest code (10_state.md R43) -/

theorem le_foldl_max (l : List Code) : ∀ n, n ≤ l.foldl (fun n c => max n c.length) n := by
  induction l with
  | nil => intro n; exact Nat.le_refl _
  | cons c l ih => intro n; exact Nat.le_trans (Nat.le_max_left _ _) (ih _)

theorem longestCode_le {M : List Code} {k : Nat} (h : ∀ c ∈ M, c.length ≤ k) : longestCode M ≤ k := by
  unfold longestCode
  have : ∀ (l : List Code) n, n ≤ k → (∀ c ∈ l, c.length ≤ k) → l.foldl (fun n c => max n c.length) n ≤ k := by
    intro l
    induction l with
    | nil => intro n h _; exact h
    | cons c l ih =>
      intro n h h'
      exact ih _ (Nat.max_le.2 ⟨h, h' _ List.mem_cons_self⟩) (fun c hc => h' c (List.mem_cons_of_mem _ hc))
  exact this M 0 (Nat.zero_le _) h

theorem le_longestCode {M : List Code} {c : Code} (h : c ∈ M) : c.length ≤ longestCode M := by
  unfold longestCode
  generalize 0 = n
  induction M generalizing n with
  | nil => cases h
  | cons d l ih =>
    rcases List.mem_cons.1 h with rfl | h
    · exact Nat.le_trans (Nat.le_max_right _ _) (le_foldl_max _ _)
    · exact ih h _

theorem longestCode_tabulate_le {f : Byte → Code} {k : Nat} : longestCode (tabulate f) ≤ k ↔ ∀ v, (f v).length ≤ k := by
  constructor
  · intro h v
    exact Nat.le_trans (le_longestCode (List.mem_map.2 ⟨v, mem_allBytes v, rfl⟩)) h
  · intro h
    apply longestCode_le
    intro c hc
    obtain ⟨v, _, rfl⟩ := List.mem_map.1 hc
    exact h v

end Sys2Proof.Machine
end

