-- ==== Sys2Proof/Laws/Coding.lean ====
section
/-! SUPPORT. The packer and the unpacker: what ENCODE's loop and DECODE's walk give, and that the
walk undoes the loop (45_encoder.md R280 to R282, 46_decoder.md R300 to R304). -/

namespace Sys2Proof.Machine

theorem codesOf_cons (M : List Code) (b : Byte) (bs : List Byte) :
    codesOf M (b :: bs) = codeGet M b ++ codesOf M bs := by simp [codesOf]

/-- ENCODE's loop succeeds when every byte has a code and the bits fit. -/
theorem encodeBytes_ok {M : List Code} {cap : Nat} : ∀ (bs : List Byte) (i n : Nat),
    (∀ b ∈ bs, codeGet M b ≠ []) → n + (codesOf M bs).length ≤ cap →
    encodeBytes M cap i n bs = .ok (codesOf M bs) := by
  intro bs
  induction bs with
  | nil => intro i n _ _; rfl
  | cons b bs ih =>
    intro i n hc hl
    rw [codesOf_cons, List.length_append] at hl
    rw [encodeBytes, if_neg (hc b List.mem_cons_self), if_neg (by omega),
      ih _ _ (fun x hx => hc x (List.mem_cons_of_mem _ hx)) (by omega), codesOf_cons]

/-- And only then. -/
theorem encodeBytes_inv {M : List Code} {cap : Nat} : ∀ (bs : List Byte) (i n : Nat)
    {bits : List Bool}, encodeBytes M cap i n bs = .ok bits →
    bits = codesOf M bs ∧ (∀ b ∈ bs, codeGet M b ≠ []) ∧
      (bs = [] ∨ n + (codesOf M bs).length ≤ cap) := by
  intro bs
  induction bs with
  | nil => intro i n bits h; cases h; simp [codesOf]
  | cons b bs ih =>
    intro i n bits h
    rw [encodeBytes] at h
    split at h
    · cases h
    next hb =>
      split at h
      · cases h
      next hcap =>
        split at h
        · cases h
        next rest hrest =>
          cases h
          obtain ⟨e, hall, hfit⟩ := ih _ _ hrest
          refine ⟨by rw [codesOf_cons, e], ?_, .inr ?_⟩
          · intro x hx
            rcases List.mem_cons.1 hx with rfl | hx
            · exact hb
            · exact hall x hx
          · rw [codesOf_cons, List.length_append]
            rcases hfit with rfl | hfit
            · simp [codesOf]; omega
            · omega

/-! ### The walk -/

/-- Walking the path of a leaf under the node whose children are `l` and `r` emits that leaf's byte
value, and the walk goes on at the root; with T symbols out already it is a count error. -/
theorem decodeWalk_path (T : Nat) (rl rr : HuffmanNode) {v : Byte} : ∀ (n : HuffmanNode) (c : Code),
    (v, c) ∈ n.paths [] → ∀ (f : Word) (l r : HuffmanNode), n = .internal f l r →
    ∀ (k out : Nat) (bits : List Bool),
    decodeWalk T rl rr l r k out (c ++ bits) =
      if out = T then raise .formatError (k + c.length - 1)
      else match decodeWalk T rl rr rl rr (k + c.length) (out + 1) bits with
        | .error e => .error e
        | .ok rest => .ok (v :: rest) := by
  intro n
  induction n with
  | leaf u g => intro c _ f l r e; cases e
  | internal g a b iha ihb =>
    intro c h f l r e k out bits
    cases e
    have side : ∀ (x : HuffmanNode) (bit : Bool) (d : Code), (v, d) ∈ x.paths [] →
        (∀ c, (v, c) ∈ x.paths [] → ∀ f l r, x = .internal f l r → ∀ k out bits,
          decodeWalk T rl rr l r k out (c ++ bits) =
            if out = T then raise .formatError (k + c.length - 1)
            else match decodeWalk T rl rr rl rr (k + c.length) (out + 1) bits with
              | .error e => .error e
              | .ok rest => .ok (v :: rest)) →
        (if bit then b else a) = x →
        decodeWalk T rl rr a b k out (bit :: d ++ bits) =
          if out = T then raise .formatError (k + (bit :: d).length - 1)
          else match decodeWalk T rl rr rl rr (k + (bit :: d).length) (out + 1) bits with
            | .error e => .error e
            | .ok rest => .ok (v :: rest) := by
      intro x bit d hd ih hx
      rw [List.cons_append, decodeWalk, hx]
      cases x with
      | leaf u w =>
        simp [HuffmanNode.paths] at hd
        obtain ⟨rfl, rfl⟩ := hd
        simp only [List.nil_append, List.length_cons, List.length_nil, Nat.zero_add,
          Nat.add_sub_cancel] <;> rfl
      | internal w l' r' =>
        simp only
        rw [ih d hd w l' r' rfl]
        have e1 : k + 1 + d.length - 1 = k + (bit :: d).length - 1 := by
          rw [List.length_cons]; omega
        have e2 : k + 1 + d.length = k + (bit :: d).length := by
          rw [List.length_cons]; omega
        rw [e1, e2]
    rcases mem_paths_internal.1 h with ⟨d, hd, rfl⟩ | ⟨d, hd, rfl⟩
    · exact side a false d hd iha rfl
    · exact side b true d hd ihb rfl

/-- The walk over the codes of a byte string emits the byte string. -/
theorem decodeWalk_codes {M : List Code} {f : Word} {l r : HuffmanNode} {T : Nat} :
    ∀ (bs : List Byte) (k out : Nat),
    (∀ b ∈ bs, (b, codeGet M b) ∈ (HuffmanNode.internal f l r).paths []) → out + bs.length = T →
    decodeWalk T l r l r k out (codesOf M bs) = .ok bs := by
  intro bs
  induction bs with
  | nil =>
    intro k out _ h
    simp only [List.length_nil, Nat.add_zero] at h
    simp [codesOf, decodeWalk, h]
  | cons b bs ih =>
    intro k out hm h
    rw [List.length_cons] at h
    rw [codesOf_cons, decodeWalk_path T l r _ _ (hm b List.mem_cons_self) f l r rfl,
      if_neg (by omega), ih _ _ (fun x hx => hm x (List.mem_cons_of_mem _ hx)) (by omega)]

theorem decodeWalk_length {T : Nat} {rl rr : HuffmanNode} : ∀ (bits : List Bool)
    (l r : HuffmanNode) (k out : Nat) {bs : List Byte},
    decodeWalk T rl rr l r k out bits = .ok bs → out + bs.length = T := by
  intro bits
  induction bits with
  | nil =>
    intro l r k out bs h
    rw [decodeWalk] at h
    split at h
    · cases h
    · split at h
      · cases h
      · cases h
        simp
        omega
  | cons b bits ih =>
    intro l r k out bs h
    rw [decodeWalk] at h
    split at h
    · split at h
      · cases h
      · split at h
        · cases h
        next rest hrest =>
          cases h
          have := ih _ _ _ _ hrest
          simp
          omega
    · exact ih _ _ _ _ h

/-! ### The singleton -/

theorem decodeSingleton_zeros (v : Byte) : ∀ (T k : Nat),
    decodeSingleton v k T (List.replicate T false) = .ok (List.replicate T v) := by
  intro T
  induction T with
  | zero => intro k; simp [decodeSingleton]
  | succ T ih => intro k; simp [List.replicate_succ, decodeSingleton, ih]

theorem decodeSingleton_inv (v : Byte) : ∀ (T k : Nat) (bits : List Bool) {bs : List Byte},
    decodeSingleton v k T bits = .ok bs →
    bits = List.replicate T false ∧ bs = List.replicate T v := by
  intro T
  induction T with
  | zero =>
    intro k bits bs h
    rw [decodeSingleton] at h
    split at h
    next hb => cases h; simp [hb]
    · cases h
  | succ T ih =>
    intro k bits bs h
    cases bits with
    | nil => cases h
    | cons b bits =>
      rw [decodeSingleton] at h
      split at h
      · cases h
      next hb =>
        split at h
        · cases h
        next rest hrest =>
          cases h
          obtain ⟨rfl, rfl⟩ := ih _ _ hrest
          simp at hb
          simp [hb, List.replicate_succ]

/-- A decode that succeeds emits exactly the number of symbols asked for (46_decoder.md R300). -/
theorem decodeBits_length {t : Option HuffmanNode} {T : Nat} {bits : List Bool} {bs : List Byte}
    (h : decodeBits t T bits = .ok bs) (hT : t = none → T = 0) : bs.length = T := by
  match t, hT with
  | none, hT =>
    rw [decodeBits, decodeEmpty] at h
    split at h
    · cases h; simp [hT rfl]
    · cases h
  | some (.leaf v f), _ =>
    rw [(decodeSingleton_inv v _ _ _ h).2, List.length_replicate]
  | some (.internal f l r), _ =>
    have := decodeWalk_length _ _ _ _ _ h
    omega

/-- The decoder undoes the encoder: the codes of a byte string over the byte values of the tree
decode to the byte string (46_decoder.md R304). -/
theorem decode_codes {t : HuffmanNode} (hnd : t.symbols.Nodup) {bs : List Byte}
    (hs : ∀ b ∈ bs, b ∈ t.symbols) :
    decodeBits (some t) bs.length (codesOf (buildMap (some t)) bs) = .ok bs := by
  cases t with
  | leaf v f =>
    have hv : ∀ b ∈ bs, b = v := by
      intro b hb
      simpa [HuffmanNode.symbols, HuffmanNode.leaves] using hs b hb
    have hbs : bs = List.replicate bs.length v := List.eq_replicate_iff.2 ⟨rfl, hv⟩
    have hcode : codeGet (buildMap (some (.leaf v f))) v = [false] :=
      buildMap_code hnd (by simp [mapAssignments])
    have hc : codesOf (buildMap (some (.leaf v f))) bs = List.replicate bs.length false := by
      clear hs hnd
      induction bs with
      | nil => rfl
      | cons b bs ih =>
        have hb : b = v := hv b List.mem_cons_self
        rw [codesOf_cons, hb, hcode, ih (fun x hx => hv x (List.mem_cons_of_mem _ hx))
          (List.eq_replicate_iff.2 ⟨rfl, fun x hx => hv x (List.mem_cons_of_mem _ hx)⟩)]
        rfl
    rw [hc, decodeBits, decodeSingleton_zeros, ← hbs]
  | internal f l r =>
    apply decodeWalk_codes (f := f)
    · intro b hb
      obtain ⟨c, hc⟩ := mem_assignments_of_symbol (hs b hb)
      rw [buildMap_code hnd hc]
      exact hc
    · omega

/-! ### Runs of the loops -/

/-- ENCODE's loop runs over bytes that have codes and fit, whatever follows. -/
theorem encodeBytes_run {M : List Code} {cap : Nat} {b : Byte} {rest : List Byte} :
    ∀ (good : List Byte) (i n : Nat),
    (∀ x ∈ good, codeGet M x ≠ []) → n + (codesOf M good).length ≤ cap →
    encodeBytes M cap i n (good ++ b :: rest) =
      match encodeBytes M cap (i + good.length) (n + (codesOf M good).length) (b :: rest) with
      | .error e => .error e
      | .ok r => .ok (codesOf M good ++ r) := by
  intro good
  induction good with
  | nil => intro i n _ _; simp [codesOf]; split <;> simp_all
  | cons x good ih =>
    intro i n h hn
    rw [codesOf_cons, List.length_append] at hn
    rw [List.cons_append, encodeBytes, if_neg (h x List.mem_cons_self), if_neg (by omega),
      ih (i + 1) _ (fun y hy => h y (List.mem_cons_of_mem _ hy)) (by omega)]
    rw [codesOf_cons, List.length_append, List.length_cons]
    rw [show i + 1 + good.length = i + (good.length + 1) by omega,
      show n + (codeGet M x).length + (codesOf M good).length = n + ((codeGet M x).length + (codesOf M good).length) by omega]
    generalize encodeBytes M cap _ _ (b :: rest) = X
    cases X <;> simp

/-- When every byte has a code, the only error of ENCODE's loop is CAPACITY_ERROR. -/
theorem encodeBytes_error_kind {M : List Code} {cap : Nat} : ∀ (bs : List Byte) (i n : Nat) {e},
    (∀ b ∈ bs, codeGet M b ≠ []) → encodeBytes M cap i n bs = .error e →
    e.kind = .capacityError := by
  intro bs
  induction bs with
  | nil => intro i n e _ h; cases h
  | cons b bs ih =>
    intro i n e h he
    rw [encodeBytes, if_neg (h b List.mem_cons_self)] at he
    split at he
    · cases he; rfl
    · split at he
      · rename_i e' h'
        cases he
        exact ih _ _ (fun y hy => h y (List.mem_cons_of_mem _ hy)) h'
      · cases he

theorem codesOf_length (M : List Code) (bs : List Byte) :
    (codesOf M bs).length = (bs.map (fun b => (codeGet M b).length)).sum := by
  induction bs with
  | nil => rfl
  | cons b bs ih => rw [codesOf_cons, List.length_append, ih]; rfl

/-- A sum over bytes, by byte value. -/
theorem sum_count_mul (f : Byte → Nat) (bs : List Byte) :
    (allBytes.map (fun v => bs.count v * f v)).sum = (bs.map f).sum := by
  induction bs with
  | nil => 
    have : ∀ l : List Byte, (l.map (fun v => ([] : List Byte).count v * f v)).sum = 0 := by
      intro l; induction l <;> simp_all
    exact this allBytes
  | cons b bs ih =>
    have : ∀ l : List Byte, (l.map (fun v => (b :: bs).count v * f v)).sum =
       (l.map (fun v => if b = v then f v else 0)).sum + (l.map (fun v => bs.count v * f v)).sum := by
      intro l
      induction l with
      | nil => rfl
      | cons x l ih' =>
        simp only [List.map_cons, List.sum_cons, ih']
        rw [List.count_cons]
        by_cases hx : b = x
        · subst hx; simp; rw [Nat.add_mul, Nat.one_mul]; omega
        · simp [hx]; omega
    refine (this allBytes).trans ?_
    rw [ih, List.map_cons, List.sum_cons]
    have e : ∀ l : List Byte, l.Nodup → (l.map (fun v => if b = v then f v else 0)).sum = if b ∈ l then f b else 0 := by
      intro l
      induction l with
      | nil => intro _; rfl
      | cons x l ih =>
        intro h
        rw [List.nodup_cons] at h
        simp only [List.map_cons, List.sum_cons, ih h.2, List.mem_cons]
        by_cases hx : b = x
        · subst hx; simp [h.1]
        · simp [hx]
    have := e _ allBytes_nodup
    rw [if_pos (mem_allBytes b)] at this
    rw [this]

/-- The walk of a singleton tree runs over `k` zeros, whatever follows. -/
theorem decodeSingleton_run (v : Byte) : ∀ (k j T : Nat) (rest : List Bool), k ≤ T →
   decodeSingleton v j T (List.replicate k false ++ rest) = match decodeSingleton v (j + k) (T - k) rest with
     | .error e => .error e
     | .ok r => .ok (List.replicate k v ++ r) := by
  intro k
  induction k with
  | zero => intro j T rest _; simp; split <;> simp_all
  | succ k ih =>
    intro j T rest h
    obtain ⟨T, rfl⟩ : ∃ n, T = n + 1 := ⟨T - 1, by omega⟩
    rw [List.replicate_succ, List.cons_append, decodeSingleton]
    simp only [Bool.false_eq_true, if_false]
    rw [ih (j + 1) T rest (by omega), show j + 1 + k = j + (k + 1) by omega, show T - k = T + 1 - (k + 1) by omega]
    generalize decodeSingleton v _ _ rest = X
    cases X <;> simp [List.replicate_succ]

/-- The walk runs over the codes of a byte string, whatever follows. -/
theorem decodeWalk_run (T : Nat) {f : Word} {l r : HuffmanNode} (code : Byte → Code)
    (rest : List Bool) : ∀ (bs : List Byte) (k out : Nat),
    (∀ b ∈ bs, (b, code b) ∈ (HuffmanNode.internal f l r).paths []) → out + bs.length ≤ T →
    decodeWalk T l r l r k out (bs.flatMap code ++ rest) =
      match decodeWalk T l r l r (k + (bs.flatMap code).length) (out + bs.length) rest with
      | .error e => .error e
      | .ok x => .ok (bs ++ x) := by
  intro bs
  induction bs with
  | nil => intro k out _ _; simp; split <;> simp_all
  | cons b bs ih =>
    intro k out h hT
    simp only [List.length_cons] at hT
    rw [List.flatMap_cons, List.append_assoc, decodeWalk_path T l r _ _ (h b List.mem_cons_self) _ _ _ rfl, if_neg (by omega),
      ih _ _ (fun y hy => h y (List.mem_cons_of_mem _ hy)) (by omega)]
    rw [List.length_append, List.length_cons, show k + (code b).length + (bs.flatMap code).length = k + ((code b).length + (bs.flatMap code).length) by omega,
      show out + 1 + bs.length = out + (bs.length + 1) by omega]
    generalize decodeWalk T l r l r _ _ rest = X
    cases X <;> simp

/-- A walk that has read a proper part of a code stands at an internal node below the root. -/
theorem decodeWalk_inside (T : Nat) (rl rr : HuffmanNode) : ∀ (n : HuffmanNode) (u : Byte)
    (c d : Code), (u, c ++ d) ∈ n.paths [] → d ≠ [] →
    ∀ f l r, n = .internal f l r → ∀ k out, ∃ f' l' r',
      decodeWalk T rl rr l r k out c = decodeWalk T rl rr l' r' (k + c.length) out [] ∧
      (c ≠ [] → (HuffmanNode.internal f' l' r').nodes < n.nodes) ∧
      (HuffmanNode.internal f' l' r').nodes ≤ n.nodes := by
  intro n
  induction n with
  | leaf v g => intro u c d h hd f l r e; cases e
  | internal g a b iha ihb =>
    intro u c d h hd f l r e k out
    cases e
    cases c with
    | nil => exact ⟨g, a, b, rfl, by simp, Nat.le_refl _⟩
    | cons x c =>
      have key : ∀ m : HuffmanNode, (u, c ++ d) ∈ m.paths [] → m.nodes < (HuffmanNode.internal g a b).nodes → (∀ (u : Byte) (c d : Code), (u, c ++ d) ∈ m.paths [] → d ≠ [] →
   ∀ f l r, m = .internal f l r → ∀ k out, ∃ f' l' r', decodeWalk T rl rr l r k out c = decodeWalk T rl rr l' r' (k + c.length) out [] ∧
     (c ≠ [] → (HuffmanNode.internal f' l' r').nodes < m.nodes) ∧ (HuffmanNode.internal f' l' r').nodes ≤ m.nodes) → (if x then b else a) = m →
        ∃ f' l' r', decodeWalk T rl rr a b k out (x :: c) = decodeWalk T rl rr l' r' (k + (x :: c).length) out [] ∧
     (x :: c ≠ [] → (HuffmanNode.internal f' l' r').nodes < (HuffmanNode.internal g a b).nodes) ∧ (HuffmanNode.internal f' l' r').nodes ≤ (HuffmanNode.internal g a b).nodes := by
        intro m hm hlt ih hx
        cases m with
        | leaf v f => simp [HuffmanNode.paths] at hm; exact absurd hm.2.2 hd
        | internal f' l' r' =>
          obtain ⟨f2, l2, r2, e1, e2, e3⟩ := ih u c d hm hd f' l' r' rfl (k + 1) out
          refine ⟨f2, l2, r2, ?_, fun _ => by omega, by omega⟩
          have : decodeWalk T rl rr a b k out (x :: c) = decodeWalk T rl rr l' r' (k + 1) out c := by
            cases x <;> simp at hx <;> subst hx <;> rfl
          rw [this, e1, List.length_cons, show k + 1 + c.length = k + (c.length + 1) by omega]
      rcases mem_paths_internal.1 h with ⟨d', h1, h2⟩ | ⟨d', h1, h2⟩
      · simp at h2
        obtain ⟨rfl, rfl⟩ := h2
        exact key a h1 (by simp only [HuffmanNode.nodes]; omega) iha rfl
      · simp at h2
        obtain ⟨rfl, rfl⟩ := h2
        exact key b h1 (by simp only [HuffmanNode.nodes]; omega) ihb rfl

theorem decodeWalk_error_kind {T : Nat} {rl rr : HuffmanNode} : ∀ (bits : List Bool)
    (l r : HuffmanNode) (k out : Nat) {e : CmdError},
    decodeWalk T rl rr l r k out bits = .error e →
    e.kind = .formatError ∨ e.kind = .decodingError := by
  intro bits
  induction bits with
  | nil =>
    intro l r k out e h
    rw [decodeWalk] at h
    split at h
    · cases h; exact .inr rfl
    · split at h <;> cases h
      exact .inl rfl
  | cons b bits ih =>
    intro l r k out e h
    rw [decodeWalk] at h
    split at h
    · split at h
      · cases h; exact .inl rfl
      · split at h
        next h' => cases h; exact ih _ _ _ _ h'
        · cases h
    · exact ih _ _ _ _ h

theorem decodeSingleton_error_kind {v : Byte} : ∀ (left k : Nat) (bits : List Bool) {e : CmdError},
    decodeSingleton v k left bits = .error e →
    e.kind = .formatError ∨ e.kind = .decodingError := by
  intro left
  induction left with
  | zero =>
    intro k bits e h
    rw [decodeSingleton] at h
    split at h <;> cases h
    exact .inl rfl
  | succ left ih =>
    intro k bits e h
    cases bits with
    | nil => cases h; exact .inr rfl
    | cons b bits =>
      rw [decodeSingleton] at h
      split at h
      · cases h; exact .inr rfl
      · split at h
        next h' => cases h; exact ih _ _ h'
        · cases h

/-- Bits that do not decode are a FORMAT_ERROR or a DECODING_ERROR (46_decoder.md R301 to R303). -/
theorem decodeBits_error_kind {t : Option HuffmanNode} {T : Nat} {bits : List Bool} {e : CmdError}
    (h : decodeBits t T bits = .error e) : e.kind = .formatError ∨ e.kind = .decodingError := by
  rcases t with _ | ⟨v, f⟩ | ⟨f, l, r⟩
  · rw [decodeBits, decodeEmpty] at h
    split at h <;> cases h
    exact .inl rfl
  · exact decodeSingleton_error_kind _ _ _ h
  · exact decodeWalk_error_kind _ _ _ _ _ h

/-! ### The table of a byte string -/

/-- The count of a byte value (41_frequency_analyzer.md R201). -/
theorem countTable_get {bs : List Byte} (h : bs.length < 2 ^ 64) (v : Byte) :
    (tableGet (countTable bs) v).toNat = bs.count v := by
  rw [countTable, tableGet_tabulate, toNat_toWord (Nat.lt_of_le_of_lt List.count_le_length h)]

theorem countTable_ne_zero {bs : List Byte} (h : bs.length < 2 ^ 64) (v : Byte) :
    tableGet (countTable bs) v ≠ 0 ↔ v ∈ bs := by
  rw [← List.count_pos_iff, ← countTable_get h]
  constructor
  · intro h1; apply Nat.pos_of_ne_zero; intro h2; exact h1 (BitVec.eq_of_toNat_eq h2)
  · intro h1 h2; rw [h2] at h1; simp at h1

theorem countTable_codes {bs : List Byte} (h : bs.length < 2 ^ 64) :
    ∀ b ∈ bs, codeGet (buildMap (buildTree (countTable bs))) b ≠ [] := by
  intro b hb
  rw [code_iff_count (F := countTable bs), countTable_ne_zero h]
  exact hb

/-- DECODE's walk undoes the codes of the tree of the table of the same bytes. -/
theorem decode_countTable {bs : List Byte} (h : bs.length < 2 ^ 64) :
   decodeBits (buildTree (countTable bs)) bs.length (codesOf (buildMap (buildTree (countTable bs))) bs) = .ok bs := by
  cases ht : buildTree (countTable bs) with
  | none =>
    have := buildTree_none.1 ht
    have : bs = [] := by
      cases bs with
      | nil => rfl
      | cons b bs =>
        have h2 := (mem_tableEntries (F := countTable (b :: bs)) b _).2 ⟨(countTable_ne_zero h b).2 List.mem_cons_self, rfl⟩
        rw [this] at h2; cases h2
    subst this
    rfl
  | some t =>
    exact decode_codes (buildTree_symbols_nodup ht) (fun b hb => (mem_table_symbols ht b).2 ((countTable_ne_zero h b).2 hb))

end Sys2Proof.Machine
end

