-- ==== Sys2Proof/Laws/Complete.lean ====
section
/-! SUPPORT. Ending a command: what clearing a destination set does, what `complete` answers, and
what each command's body does when it succeeds. -/

namespace Sys2Proof.Machine

/-! ### Clearing a destination set -/

theorem clearDest_cons (d : DestMember) (ds : List DestMember) (s : State) :
    clearDest (d :: ds) s = clearDest ds (clearMember s d) := rfl

@[simp] theorem clearDest_params (ds : List DestMember) : ∀ s : State,
    (clearDest ds s).params = s.params := by
  induction ds with
  | nil => exact fun _ => rfl
  | cons d ds ih => intro s; rw [clearDest_cons, ih]; cases d <;> rfl

@[simp] theorem clearDest_seq (ds : List DestMember) : ∀ s : State,
    (clearDest ds s).seq = s.seq := by
  induction ds with
  | nil => exact fun _ => rfl
  | cons d ds ih => intro s; rw [clearDest_cons, ih]; cases d <;> rfl

@[simp] theorem clearDest_done (ds : List DestMember) : ∀ s : State,
    (clearDest ds s).done = s.done := by
  induction ds with
  | nil => exact fun _ => rfl
  | cons d ds ih => intro s; rw [clearDest_cons, ih]; cases d <;> rfl

@[simp] theorem clearDest_err (ds : List DestMember) : ∀ s : State,
    (clearDest ds s).err = s.err := by
  induction ds with
  | nil => exact fun _ => rfl
  | cons d ds ih => intro s; rw [clearDest_cons, ih]; cases d <;> rfl

@[simp] theorem clearDest_ovr (ds : List DestMember) : ∀ s : State,
    (clearDest ds s).ovr = s.ovr := by
  induction ds with
  | nil => exact fun _ => rfl
  | cons d ds ih => intro s; rw [clearDest_cons, ih]; cases d <;> rfl

@[simp] theorem clearDest_errCode (ds : List DestMember) : ∀ s : State,
    (clearDest ds s).errCode = s.errCode := by
  induction ds with
  | nil => exact fun _ => rfl
  | cons d ds ih => intro s; rw [clearDest_cons, ih]; cases d <;> rfl

@[simp] theorem clearDest_lastOpc (ds : List DestMember) : ∀ s : State,
    (clearDest ds s).lastOpc = s.lastOpc := by
  induction ds with
  | nil => exact fun _ => rfl
  | cons d ds ih => intro s; rw [clearDest_cons, ih]; cases d <;> rfl

@[simp] theorem clearDest_errInfo (ds : List DestMember) : ∀ s : State,
    (clearDest ds s).errInfo = s.errInfo := by
  induction ds with
  | nil => exact fun _ => rfl
  | cons d ds ih => intro s; rw [clearDest_cons, ih]; cases d <;> rfl

@[simp] theorem clearDest_doneIe (ds : List DestMember) : ∀ s : State,
    (clearDest ds s).doneIe = s.doneIe := by
  induction ds with
  | nil => exact fun _ => rfl
  | cons d ds ih => intro s; rw [clearDest_cons, ih]; cases d <;> rfl

@[simp] theorem clearDest_errIe (ds : List DestMember) : ∀ s : State,
    (clearDest ds s).errIe = s.errIe := by
  induction ds with
  | nil => exact fun _ => rfl
  | cons d ds ih => intro s; rw [clearDest_cons, ih]; cases d <;> rfl

@[simp] theorem clearDest_arg0 (ds : List DestMember) : ∀ s : State,
    (clearDest ds s).arg0 = s.arg0 := by
  induction ds with
  | nil => exact fun _ => rfl
  | cons d ds ih => intro s; rw [clearDest_cons, ih]; cases d <;> rfl

@[simp] theorem clearDest_arg1 (ds : List DestMember) : ∀ s : State,
    (clearDest ds s).arg1 = s.arg1 := by
  induction ds with
  | nil => exact fun _ => rfl
  | cons d ds ih => intro s; rw [clearDest_cons, ih]; cases d <;> rfl

@[simp] theorem clearDest_ilen (ds : List DestMember) : ∀ s : State,
    (clearDest ds s).ilen = s.ilen := by
  induction ds with
  | nil => exact fun _ => rfl
  | cons d ds ih => intro s; rw [clearDest_cons, ih]; cases d <;> rfl

@[simp] theorem clearDest_turns (ds : List DestMember) : ∀ s : State,
    (clearDest ds s).turns = s.turns := by
  induction ds with
  | nil => exact fun _ => rfl
  | cons d ds ih => intro s; rw [clearDest_cons, ih]; cases d <;> rfl

@[simp] theorem clearDest_rdata (ds : List DestMember) : ∀ s : State,
    (clearDest ds s).rdata = s.rdata := by
  induction ds with
  | nil => exact fun _ => rfl
  | cons d ds ih => intro s; rw [clearDest_cons, ih]; cases d <;> rfl

@[simp] theorem clearDest_draws (ds : List DestMember) : ∀ s : State,
    (clearDest ds s).draws = s.draws := by
  induction ds with
  | nil => exact fun _ => rfl
  | cons d ds ih => intro s; rw [clearDest_cons, ih]; cases d <;> rfl

theorem dropObuf_idem (m : List Host.Cell) : Mem.dropObuf (Mem.dropObuf m) = Mem.dropObuf m := by
  simp [Mem.dropObuf]

theorem clearDest_ftab (ds : List DestMember) : ∀ s : State,
    (clearDest ds s).ftab = if DestMember.ftab ∈ ds then emptyTable else s.ftab := by
  induction ds with
  | nil => exact fun _ => rfl
  | cons d ds ih => intro s; rw [clearDest_cons, ih]; cases d <;> simp [clearMember]

theorem clearDest_tree (ds : List DestMember) : ∀ s : State,
    (clearDest ds s).tree = if DestMember.tree ∈ ds then none else s.tree := by
  induction ds with
  | nil => exact fun _ => rfl
  | cons d ds ih => intro s; rw [clearDest_cons, ih]; cases d <;> simp [clearMember]

theorem clearDest_treeValid (ds : List DestMember) : ∀ s : State,
    (clearDest ds s).treeValid = if DestMember.tree ∈ ds then false else s.treeValid := by
  induction ds with
  | nil => exact fun _ => rfl
  | cons d ds ih => intro s; rw [clearDest_cons, ih]; cases d <;> simp [clearMember]

theorem clearDest_map (ds : List DestMember) : ∀ s : State,
    (clearDest ds s).map = if DestMember.map ∈ ds then emptyMap else s.map := by
  induction ds with
  | nil => exact fun _ => rfl
  | cons d ds ih => intro s; rw [clearDest_cons, ih]; cases d <;> simp [clearMember]

theorem clearDest_mapValid (ds : List DestMember) : ∀ s : State,
    (clearDest ds s).mapValid = if DestMember.map ∈ ds then false else s.mapValid := by
  induction ds with
  | nil => exact fun _ => rfl
  | cons d ds ih => intro s; rw [clearDest_cons, ih]; cases d <;> simp [clearMember]

theorem clearDest_bits (ds : List DestMember) : ∀ s : State,
    (clearDest ds s).bits = if DestMember.bitseq ∈ ds then [] else s.bits := by
  induction ds with
  | nil => exact fun _ => rfl
  | cons d ds ih => intro s; rw [clearDest_cons, ih]; cases d <;> simp [clearMember]

theorem clearDest_olen (ds : List DestMember) : ∀ s : State,
    (clearDest ds s).olen = if DestMember.obuf ∈ ds then 0 else s.olen := by
  induction ds with
  | nil => exact fun _ => rfl
  | cons d ds ih => intro s; rw [clearDest_cons, ih]; cases d <;> simp [clearMember]

theorem clearDest_mem (ds : List DestMember) : ∀ s : State,
    (clearDest ds s).mem = if DestMember.obuf ∈ ds then Mem.dropObuf s.mem else s.mem := by
  induction ds with
  | nil => exact fun _ => rfl
  | cons d ds ih => intro s; rw [clearDest_cons, ih]; cases d <;> simp [clearMember, dropObuf_idem]

theorem clearDest_result (ds : List DestMember) : ∀ s : State,
    (clearDest ds s).result = if DestMember.result ∈ ds then 0 else s.result := by
  induction ds with
  | nil => exact fun _ => rfl
  | cons d ds ih => intro s; rw [clearDest_cons, ih]; cases d <;> simp [clearMember]

/-- Clearing a destination set keeps everything outside it. -/
theorem clearDest_keeps (ds : List DestMember) (s : State) : KeepsOutside ds s (clearDest ds s) where
  params := by simp
  ovr := by simp
  lastOpc := by simp
  doneIe := by simp
  errIe := by simp
  arg0 := by simp
  arg1 := by simp
  ilen := by simp
  turns := by simp
  rdata := by simp
  ibuf := by
    intro a ha
    rw [clearDest_mem]
    split
    · rw [mem_get?_dropObuf, if_pos ha]
    · rfl
  ftab := fun h => by rw [clearDest_ftab, if_neg h]
  tree := fun h => ⟨by rw [clearDest_tree, if_neg h], by rw [clearDest_treeValid, if_neg h]⟩
  map := fun h => ⟨by rw [clearDest_map, if_neg h], by rw [clearDest_mapValid, if_neg h]⟩
  bitseq := fun h => by rw [clearDest_bits, if_neg h]
  obuf := fun h => ⟨by rw [clearDest_mem, if_neg h], by rw [clearDest_olen, if_neg h]⟩
  result := fun h => by rw [clearDest_result, if_neg h]

theorem clearDest_cleared (ds : List DestMember) (s : State) : Cleared ds (clearDest ds s) where
  ftab := fun h => by rw [clearDest_ftab, if_pos h]
  tree := fun h => ⟨by rw [clearDest_tree, if_pos h], by rw [clearDest_treeValid, if_pos h]⟩
  map := fun h => ⟨by rw [clearDest_map, if_pos h], by rw [clearDest_mapValid, if_pos h]⟩
  bitseq := fun h => by rw [clearDest_bits, if_pos h]
  obuf := fun h => by rw [clearDest_olen, if_pos h]
  result := fun h => by rw [clearDest_result, if_pos h]

theorem KeepsOutside.refl (ds : List DestMember) (s : State) : KeepsOutside ds s s where
  params := rfl
  ovr := rfl
  lastOpc := rfl
  doneIe := rfl
  errIe := rfl
  arg0 := rfl
  arg1 := rfl
  ilen := rfl
  turns := rfl
  rdata := rfl
  ibuf := fun _ _ => rfl
  ftab := fun _ => rfl
  tree := fun _ => ⟨rfl, rfl⟩
  map := fun _ => ⟨rfl, rfl⟩
  bitseq := fun _ => rfl
  obuf := fun _ => ⟨rfl, rfl⟩
  result := fun _ => rfl

theorem KeepsOutside.trans {ds : List DestMember} {s t u : State} (h : KeepsOutside ds s t)
    (h' : KeepsOutside ds t u) : KeepsOutside ds s u where
  params := h'.params.trans h.params
  ovr := h'.ovr.trans h.ovr
  lastOpc := h'.lastOpc.trans h.lastOpc
  doneIe := h'.doneIe.trans h.doneIe
  errIe := h'.errIe.trans h.errIe
  arg0 := h'.arg0.trans h.arg0
  arg1 := h'.arg1.trans h.arg1
  ilen := h'.ilen.trans h.ilen
  turns := h'.turns.trans h.turns
  rdata := h'.rdata.trans h.rdata
  ibuf := fun a ha => (h'.ibuf a ha).trans (h.ibuf a ha)
  ftab := fun hd => (h'.ftab hd).trans (h.ftab hd)
  tree := fun hd => ⟨(h'.tree hd).1.trans (h.tree hd).1, (h'.tree hd).2.trans (h.tree hd).2⟩
  map := fun hd => ⟨(h'.map hd).1.trans (h.map hd).1, (h'.map hd).2.trans (h.map hd).2⟩
  bitseq := fun hd => (h'.bitseq hd).trans (h.bitseq hd)
  obuf := fun hd => ⟨(h'.obuf hd).1.trans (h.obuf hd).1, (h'.obuf hd).2.trans (h.obuf hd).2⟩
  result := fun hd => (h'.result hd).trans (h.result hd)

theorem KeepsOutside.mono {ds ds' : List DestMember} {s t : State} (h : KeepsOutside ds s t)
    (hsub : ∀ d ∈ ds, d ∈ ds') : KeepsOutside ds' s t :=
  { h with
    ftab := fun hd => h.ftab (fun hm => hd (hsub _ hm))
    tree := fun hd => h.tree (fun hm => hd (hsub _ hm))
    map := fun hd => h.map (fun hm => hd (hsub _ hm))
    bitseq := fun hd => h.bitseq (fun hm => hd (hsub _ hm))
    obuf := fun hd => h.obuf (fun hm => hd (hsub _ hm))
    result := fun hd => h.result (fun hm => hd (hsub _ hm)) }

/-! ### Completion -/

/-- The body whose result `exec` completes. -/
def bodyOf : Instr → State → Except CmdError State
  | .nop => .ok
  | .analyze => analyzeBody
  | .buildTree => buildTreeBody
  | .buildMap => buildMapBody
  | .bsClear => bsClearBody
  | .bsAppend => bsAppendBody
  | .bsBitat => bsBitatBody
  | .encode => encodeBody
  | .decode => decodeBody
  | .serialize => serializeBody
  | .deserialize => deserializeBody
  | .compress => compressBody
  | .decompress => decompressBody
  | .softReset => softResetBody

/-- Every command is the completion of its body (48_control_and_composite.md R361). -/
theorem exec_eq (i : Instr) (s : State) : exec i s = complete (dest i) s (bodyOf i s) := by
  cases i <;> rfl

@[simp] theorem complete_ok (ds : List DestMember) (s t : State) :
    complete ds s (.ok t) = .next (completeOk t).advanceDraws := rfl

@[simp] theorem complete_error (ds : List DestMember) (s : State) (e : CmdError) :
    complete ds s (.error e) = .next (completeError ds e s).advanceDraws := rfl

/-- A command whose body succeeds. -/
theorem exec_ok {i : Instr} {s u : State} (h : bodyOf i s = .ok u) :
    exec i s = .next (completeOk u).advanceDraws := by
  rw [exec_eq, h]
  rfl

/-- A command whose body raises. -/
theorem exec_raise {i : Instr} {s : State} {k : ErrKind} {n : Nat} (h : bodyOf i s = raise k n) :
    exec i s = .next (completeError (dest i) ⟨k, toWord n⟩ s).advanceDraws := by
  rw [exec_eq, h]
  rfl

theorem completeOk_endsOk (u : State) : EndsOk (completeOk u).advanceDraws :=
  ⟨rfl, rfl, rfl, rfl, rfl⟩

theorem completeError_endsWith (ds : List DestMember) (e : CmdError) (s : State) :
    EndsWith (errCodeOf e.kind) e.info (completeError ds e s).advanceDraws :=
  ⟨rfl, rfl, rfl, rfl, rfl⟩

theorem complete_next {ds : List DestMember} {s t : State} {r : Except CmdError State}
    (h : complete ds s r = .next t) :
    (∃ u, r = .ok u ∧ t = (completeOk u).advanceDraws) ∨
      (∃ e, r = .error e ∧ t = (completeError ds e s).advanceDraws) := by
  cases r with
  | ok u => cases h; exact .inl ⟨u, rfl, rfl⟩
  | error e => cases h; exact .inr ⟨e, rfl, rfl⟩

/-- A completion only adds its record to what the body left. -/
theorem completeOk_keeps {ds : List DestMember} {s t : State} (h : KeepsOutside ds s t) :
    KeepsOutside ds s (completeOk t).advanceDraws := { h with }

theorem completeError_keeps (ds : List DestMember) (e : CmdError) (s : State) :
    KeepsOutside ds s (completeError ds e s).advanceDraws := { clearDest_keeps ds s with }

theorem completeError_cleared (ds : List DestMember) (e : CmdError) (s : State) :
    Cleared ds (completeError ds e s).advanceDraws := { clearDest_cleared ds s with }

/-! ### The bodies when they succeed -/

theorem input_ok {s : State} {bs : List Byte} :
    s.input = .ok bs ↔ s.ilen.toNat ≤ s.params.ibufSize ∧ bs = s.inputBytes s.ilen.toNat := by
  rw [State.input]
  split
  next h => exact ⟨fun h' => absurd h' raise_ne_ok, fun h' => absurd h'.1 (by omega)⟩
  next h =>
    exact ⟨fun h' => by cases h'; exact ⟨by omega, rfl⟩, fun h' => by rw [h'.2]⟩

theorem input_error {s : State} (h : s.params.ibufSize < s.ilen.toNat) :
    s.input = raise .rangeError s.ilen.toNat := by rw [State.input, if_pos h]

@[simp] theorem inputBytes_length (s : State) (n : Nat) : (s.inputBytes n).length = n := by
  simp [State.inputBytes]

theorem analyzeBody_ok {s t : State} : analyzeBody s = .ok t ↔
    s.ilen.toNat ≤ s.params.ibufSize ∧ t = s.writeTable (countTable (s.inputBytes s.ilen.toNat)) := by
  rw [analyzeBody]
  constructor
  · intro h
    split at h
    · cases h
    next bs hbs =>
      cases h
      obtain ⟨h1, rfl⟩ := input_ok.1 hbs
      exact ⟨h1, rfl⟩
  · rintro ⟨h1, rfl⟩
    rw [input_ok.2 ⟨h1, rfl⟩]

theorem buildTreeBody_ok {s t : State} : buildTreeBody s = .ok t ↔
    t = s.writeTree (buildTree s.ftab) :=
  ⟨fun h => by cases h; rfl, fun h => by rw [h]; rfl⟩

theorem buildMapBody_ok {s t : State} : buildMapBody s = .ok t ↔
    s.treeValid = true ∧ t = s.writeMap (buildMap s.tree) := by
  rw [buildMapBody]
  split
  next h => exact ⟨fun h' => by cases h'; exact ⟨h, rfl⟩, fun h' => by rw [h'.2]⟩
  next h => exact ⟨fun h' => absurd h' raise_ne_ok, fun h' => absurd h'.1 h⟩

theorem encodeBody_ok {s t : State} : encodeBody s = .ok t ↔
    s.mapValid = true ∧ s.ilen.toNat ≤ s.params.ibufSize ∧
      (∀ b ∈ s.inputBytes s.ilen.toNat, codeGet s.map b ≠ []) ∧
      (s.inputBytes s.ilen.toNat = [] ∨
        (codesOf s.map (s.inputBytes s.ilen.toNat)).length ≤ s.params.bsCapBits) ∧
      t = s.writeBits (codesOf s.map (s.inputBytes s.ilen.toNat)) := by
  rw [encodeBody]
  constructor
  · intro h
    split at h
    next hm =>
      split at h
      · cases h
      next bs hbs =>
        split at h
        · cases h
        next bits hbits =>
          cases h
          obtain ⟨h1, rfl⟩ := input_ok.1 hbs
          obtain ⟨rfl, hall, hfit⟩ := encodeBytes_inv _ _ _ hbits
          exact ⟨hm, h1, hall, by simpa using hfit, rfl⟩
    · exact absurd h raise_ne_ok
  · rintro ⟨hm, h1, hall, hfit, rfl⟩
    rw [if_pos hm, input_ok.2 ⟨h1, rfl⟩]
    simp only
    rcases hfit with h0 | hfit
    · rw [h0]; rfl
    · rw [encodeBytes_ok _ 0 0 hall (by omega)]

theorem decodeBody_ok {s t : State} : decodeBody s = .ok t ↔
    s.treeValid = true ∧ s.total.toNat ≤ s.params.obufSize ∧
      ∃ bs, decodeBits s.tree s.total.toNat s.bits = .ok bs ∧ t = s.writeOutput bs := by
  rw [decodeBody]
  constructor
  · intro h
    split at h
    next hv =>
      split at h
      · exact absurd h raise_ne_ok
      next hT =>
        split at h
        · cases h
        next bs hbs =>
          cases h
          exact ⟨hv, by omega, bs, hbs, rfl⟩
    · exact absurd h raise_ne_ok
  · rintro ⟨hv, hT, bs, hbs, rfl⟩
    rw [if_pos hv, if_neg (by omega), hbs]

theorem serializeBody_ok {s t : State} : serializeBody s = .ok t ↔
    (serializeBytes s.ftab s.bits).length ≤ s.params.obufSize ∧
      t = s.writeOutput (serializeBytes s.ftab s.bits) := by
  rw [serializeBody]
  split
  next h => exact ⟨fun h' => absurd h' raise_ne_ok, fun h' => absurd h'.1 (by omega)⟩
  next h => exact ⟨fun h' => by cases h'; exact ⟨by omega, rfl⟩, fun h' => by rw [h'.2]⟩

theorem deserializeBody_ok {s t : State} : deserializeBody s = .ok t ↔
    s.ilen.toNat ≤ s.params.ibufSize ∧ ∃ F bits,
      deserializeBytes s.params.bsCapBits (s.inputBytes s.ilen.toNat) = .ok (F, bits) ∧
      t = (s.writeTable F).writeBits bits := by
  rw [deserializeBody]
  constructor
  · intro h
    split at h
    · cases h
    next bs hbs =>
      obtain ⟨h1, rfl⟩ := input_ok.1 hbs
      split at h
      · cases h
      next F bits hd => cases h; exact ⟨h1, F, bits, hd, rfl⟩
  · rintro ⟨h1, F, bits, hd, rfl⟩
    rw [input_ok.2 ⟨h1, rfl⟩]
    simp only [hd]

theorem bsAppendBody_ok {s t : State} : bsAppendBody s = .ok t ↔
    s.arg0.toNat ≤ 64 ∧ s.bits.length + s.arg0.toNat ≤ s.params.bsCapBits ∧
      t = s.writeBits (s.bits ++ patternBits s.arg0.toNat s.arg1) := by
  rw [bsAppendBody, State.bitLen]
  split
  next h => exact ⟨fun h' => absurd h' raise_ne_ok, fun h' => absurd h'.1 (by omega)⟩
  next h =>
    split
    next h2 => exact ⟨fun h' => absurd h' raise_ne_ok, fun h' => absurd h'.2.1 (by omega)⟩
    next h2 =>
      exact ⟨fun h' => by cases h'; exact ⟨by omega, by omega, rfl⟩, fun h' => by rw [h'.2.2]⟩

theorem bsBitatBody_ok {s t : State} : bsBitatBody s = .ok t ↔
    s.arg0.toNat < s.bits.length ∧
      t = { s with result := toWord (bitAt s.bits s.arg0.toNat).toNat } := by
  rw [bsBitatBody, State.bitLen]
  split
  next h => exact ⟨fun h' => absurd h' raise_ne_ok, fun h' => absurd h'.1 (by omega)⟩
  next h => exact ⟨fun h' => by cases h'; exact ⟨by omega, rfl⟩, fun h' => by rw [h'.2]⟩

theorem runBodies_cons_ok {f : State → Except CmdError State}
    {fs : List (State → Except CmdError State)} {s t : State} :
    runBodies (f :: fs) s = .ok t ↔ ∃ u, f s = .ok u ∧ runBodies fs u = .ok t := by
  rw [runBodies]
  constructor
  · intro h
    split at h
    · cases h
    next u hu => exact ⟨u, hu, h⟩
  · rintro ⟨u, hu, h⟩
    rw [hu]
    exact h

theorem runBodies_cons_error {f : State → Except CmdError State}
    {fs : List (State → Except CmdError State)} {s : State} {e : CmdError} (h : f s = .error e) :
    runBodies (f :: fs) s = .error e := by rw [runBodies, h]

theorem runBodies_cons {f : State → Except CmdError State}
    {fs : List (State → Except CmdError State)} {s u : State} (h : f s = .ok u) :
    runBodies (f :: fs) s = runBodies fs u := by rw [runBodies, h]

theorem runBodies_nil_ok {s t : State} : runBodies [] s = .ok t ↔ t = s :=
  ⟨fun h => by cases h; rfl, fun h => by rw [h]; rfl⟩

/-- COMPRESS succeeds when its five bodies do, each on what the one before it left. -/
theorem compressBody_ok {s t : State} : compressBody s = .ok t ↔
    ∃ s1 s2 s3 s4, analyzeBody s = .ok s1 ∧ buildTreeBody s1 = .ok s2 ∧ buildMapBody s2 = .ok s3 ∧
      encodeBody s3 = .ok s4 ∧ serializeBody s4 = .ok t := by
  simp only [compressBody, runBodies_cons_ok, runBodies_nil_ok]
  constructor
  · rintro ⟨s1, h1, s2, h2, s3, h3, s4, h4, s5, h5, e⟩
    cases e
    exact ⟨s1, s2, s3, s4, h1, h2, h3, h4, h5⟩
  · rintro ⟨s1, s2, s3, s4, h1, h2, h3, h4, h5⟩
    exact ⟨s1, h1, s2, h2, s3, h3, s4, h4, t, h5, rfl⟩

/-- DECOMPRESS succeeds when its three bodies do. -/
theorem decompressBody_ok {s t : State} : decompressBody s = .ok t ↔
    ∃ s1 s2, deserializeBody s = .ok s1 ∧ buildTreeBody s1 = .ok s2 ∧ decodeBody s2 = .ok t := by
  simp only [decompressBody, runBodies_cons_ok, runBodies_nil_ok]
  constructor
  · rintro ⟨s1, h1, s2, h2, s3, h3, e⟩
    cases e
    exact ⟨s1, s2, h1, h2, h3⟩
  · rintro ⟨s1, s2, h1, h2, h3⟩
    exact ⟨s1, h1, s2, h2, t, h3, rfl⟩

/-! ### What a successful body keeps -/

theorem writeTable_keeps (s : State) (F : List Word) :
    KeepsOutside [.ftab, .tree, .map] s (s.writeTable F) := by
  constructor <;> simp

theorem writeTree_keeps (s : State) (t : Option HuffmanNode) :
    KeepsOutside [.tree, .map] s (s.writeTree t) := by
  constructor <;> simp

theorem writeMap_keeps (s : State) (M : List Code) : KeepsOutside [.map] s (s.writeMap M) := by
  constructor <;> simp

theorem writeBits_keeps (s : State) (b : List Bool) : KeepsOutside [.bitseq] s (s.writeBits b) := by
  constructor <;> simp

theorem writeOutput_keeps (s : State) (bs : List Byte) :
    KeepsOutside [.obuf] s (s.writeOutput bs) := by
  constructor <;> simp
  intro a ha
  rw [mem_get?_setObuf, if_pos ha]

/-- A body that succeeds writes its destination set only; SOFT_RESET, which writes all state, is
the one exception. -/
theorem body_keeps {i : Instr} (hi : i ≠ .softReset) {s t : State} (h : bodyOf i s = .ok t) :
    KeepsOutside (dest i) s t := by
  have chain : ∀ {ds ds' : List DestMember} {s t : State}, KeepsOutside ds s t →
      (∀ d ∈ ds, d ∈ ds') → KeepsOutside ds' s t := fun h hs => h.mono hs
  cases i with
  | nop => cases h; exact KeepsOutside.refl _ _
  | analyze => obtain ⟨_, rfl⟩ := analyzeBody_ok.1 h; exact writeTable_keeps _ _
  | buildTree => cases h; exact writeTree_keeps _ _
  | buildMap => obtain ⟨_, rfl⟩ := buildMapBody_ok.1 h; exact writeMap_keeps _ _
  | bsClear => cases h; exact writeBits_keeps _ _
  | bsAppend => obtain ⟨_, _, rfl⟩ := bsAppendBody_ok.1 h; exact writeBits_keeps _ _
  | bsBitat =>
    obtain ⟨_, rfl⟩ := bsBitatBody_ok.1 h
    constructor <;> simp [dest]
  | encode => obtain ⟨_, _, _, _, rfl⟩ := encodeBody_ok.1 h; exact writeBits_keeps _ _
  | decode => obtain ⟨_, _, _, _, rfl⟩ := decodeBody_ok.1 h; exact writeOutput_keeps _ _
  | serialize => obtain ⟨_, rfl⟩ := serializeBody_ok.1 h; exact writeOutput_keeps _ _
  | deserialize =>
    obtain ⟨_, F, bits, _, rfl⟩ := deserializeBody_ok.1 h
    exact (chain (writeTable_keeps s F) (by simp [dest])).trans
      (chain (writeBits_keeps _ bits) (by simp [dest]))
  | compress =>
    obtain ⟨s1, s2, s3, s4, h1, h2, h3, h4, h5⟩ := compressBody_ok.1 h
    obtain ⟨_, rfl⟩ := analyzeBody_ok.1 h1
    cases h2
    obtain ⟨_, rfl⟩ := buildMapBody_ok.1 h3
    obtain ⟨_, _, _, _, rfl⟩ := encodeBody_ok.1 h4
    obtain ⟨_, rfl⟩ := serializeBody_ok.1 h5
    exact ((((chain (writeTable_keeps s _) (by simp [dest])).trans
      (chain (writeTree_keeps _ _) (by simp [dest]))).trans
      (chain (writeMap_keeps _ _) (by simp [dest]))).trans
      (chain (writeBits_keeps _ _) (by simp [dest]))).trans
      (chain (writeOutput_keeps _ _) (by simp [dest]))
  | decompress =>
    obtain ⟨s1, s2, h1, h2, h3⟩ := decompressBody_ok.1 h
    obtain ⟨_, F, bits, _, rfl⟩ := deserializeBody_ok.1 h1
    cases h2
    obtain ⟨_, _, bs, _, rfl⟩ := decodeBody_ok.1 h3
    exact (((chain (writeTable_keeps s F) (by simp [dest])).trans
      (chain (writeBits_keeps _ bits) (by simp [dest]))).trans
      (chain (writeTree_keeps _ _) (by simp [dest]))).trans
      (chain (writeOutput_keeps _ _) (by simp [dest]))
  | softReset => exact absurd rfl hi

/-! ### OBUF after a command, and DECODE -/

theorem inputBytes_lt (s : State) : (s.inputBytes s.ilen.toNat).length < 2 ^ 64 := by
  rw [inputBytes_length]; exact s.ilen.isLt

theorem writeOutput_outputIs (s : State) (bs : List Byte) :
    OutputIs bs (completeOk (s.writeOutput bs)).advanceDraws := by
  refine ⟨rfl, ?_⟩
  intro k
  change Mem.get? (Mem.setObuf _ _) _ = _
  rw [mem_get?_setObuf, if_neg (by omega), Nat.add_sub_cancel_left]

theorem exec_decode_ok {s : State} {bs : List Byte} (hv : s.treeValid = true) (hl : s.total.toNat ≤ s.params.obufSize)
    (h : decodeBits s.tree s.total.toNat s.bits = .ok bs) :
    ∃ t, exec .decode s = .next t ∧ EndsOk t ∧ KeepsOutside [.obuf] s t ∧ OutputIs bs t := by
  have hb : bodyOf .decode s = .ok _ := decodeBody_ok.2 ⟨hv, hl, bs, h, rfl⟩
  refine ⟨_, exec_ok hb, completeOk_endsOk _, completeOk_keeps (body_keeps (by decide) hb), ⟨rfl, ?_⟩⟩
  intro k
  change Mem.get? (Mem.setObuf _ _) _ = _
  rw [mem_get?_setObuf, if_neg (by omega), Nat.add_sub_cancel_left]

theorem exec_decode_raise {s : State} {k : ErrKind} {n : Nat} (hv : s.treeValid = true) (hl : s.total.toNat ≤ s.params.obufSize)
    (h : decodeBits s.tree s.total.toNat s.bits = raise k n) :
    ∃ t, exec .decode s = .next t ∧ EndsWith (errCodeOf k) (toWord n) t ∧ t.olen = 0 := by
  have hb : bodyOf .decode s = raise k n := by
    rw [bodyOf, decodeBody, if_pos hv, if_neg (by omega), h]; rfl
  exact ⟨_, exec_raise hb, ⟨rfl, rfl, rfl, rfl, rfl⟩, rfl⟩

/-! ### COMPRESS up to its ENCODE -/

/-- The state COMPRESS has built when its ENCODE starts (48_control_and_composite.md R352). -/
def State.analyzed (s : State) : State :=
  ((s.writeTable (countTable (s.inputBytes s.ilen.toNat))).writeTree
    (buildTree (countTable (s.inputBytes s.ilen.toNat)))).writeMap
    (buildMap (buildTree (countTable (s.inputBytes s.ilen.toNat))))

@[simp] theorem analyzed_params (s : State) : s.analyzed.params = s.params := by
  simp [State.analyzed]

@[simp] theorem analyzed_ilen (s : State) : s.analyzed.ilen = s.ilen := by simp [State.analyzed]

@[simp] theorem analyzed_mem (s : State) : s.analyzed.mem = s.mem := by simp [State.analyzed]

@[simp] theorem analyzed_draws (s : State) : s.analyzed.draws = s.draws := by
  simp [State.analyzed]

@[simp] theorem analyzed_mapValid (s : State) : s.analyzed.mapValid = true := by
  simp [State.analyzed]

@[simp] theorem analyzed_treeValid (s : State) : s.analyzed.treeValid = true := by
  simp [State.analyzed]

@[simp] theorem analyzed_ftab (s : State) :
    s.analyzed.ftab = countTable (s.inputBytes s.ilen.toNat) := by simp [State.analyzed]

@[simp] theorem analyzed_tree (s : State) :
    s.analyzed.tree = buildTree (countTable (s.inputBytes s.ilen.toNat)) := by
  simp [State.analyzed]

@[simp] theorem analyzed_map (s : State) :
    s.analyzed.map = buildMap (buildTree (countTable (s.inputBytes s.ilen.toNat))) := by
  simp [State.analyzed]

@[simp] theorem analyzed_inputBytes (s : State) (n : Nat) :
    s.analyzed.inputBytes n = s.inputBytes n := by
  simp only [State.inputBytes, State.memRead, analyzed_mem, analyzed_draws]

@[simp] theorem analyzed_input (s : State) : s.analyzed.input = s.input := by
  simp only [State.input, analyzed_params, analyzed_ilen, analyzed_inputBytes]

theorem compressBody_eq {s : State} (h : s.ilen.toNat ≤ s.params.ibufSize) :
    compressBody s = runBodies [encodeBody, serializeBody] s.analyzed := by
  rw [compressBody, runBodies, analyzeBody_ok.2 ⟨h, rfl⟩]
  rfl

end Sys2Proof.Machine
end

