-- ==== Sys2Proof/Laws/Invariant.lean ====
section
/-! SUPPORT. The part of the invariant that is about data, and that each named update and each
command body keeps it. -/

namespace Sys2Proof.Machine

/-- The part of `State.Inv` that does not speak of the completion record. -/
structure State.DataInv (s : State) : Prop where
  paramsOk : s.params.wellFormed = true
  tableSize : s.ftab.length = 256
  totalFits : tableSum s.ftab < 2 ^ 64
  treeCurrent : s.treeValid = true → s.tree = buildTree s.ftab
  treeAbsent : s.treeValid = false → s.tree = none
  mapNeedsTree : s.mapValid = true → s.treeValid = true
  mapCurrent : s.mapValid = true → s.map = buildMap s.tree
  mapEmpty : s.mapValid = false → s.map = emptyMap
  bitsFit : s.bits.length ≤ s.params.bsCapBits
  outputFits : s.olen.toNat ≤ s.params.obufSize
  memCanonical : Mem.wf s.mem
  memInBuffers : ∀ c ∈ s.mem,
    (Config.ibufBase ≤ c.1 ∧ c.1 < Config.ibufBase + s.params.ibufSize) ∨
      (Config.obufBase ≤ c.1 ∧ c.1 < Config.obufBase + s.olen.toNat)
  outputSpecified : ∀ k, k < s.olen.toNat → (Mem.get? s.mem (Config.obufBase + k)).isSome = true
  resultIsBit : s.result = 0 ∨ s.result = 1

theorem State.Inv.data {s : State} (h : s.Inv) : s.DataInv := { h with }

/-- The data part and the completion record make the invariant. -/
theorem State.DataInv.inv {s : State} (h : s.DataInv) (h1 : ¬ (s.done = true ∧ s.err = true))
    (h2 : s.busy = true → s.done = false ∧ s.err = false)
    (h3 : s.err = false → s.errCode = 0 ∧ s.errInfo = 0)
    (h4 : s.err = true → 1 ≤ s.errCode.toNat ∧ s.errCode.toNat ≤ 7) : s.Inv :=
  { h with doneOrErr := h1, busyQuiet := h2, noErrNoCode := h3, errCodeKnown := h4 }

/-- In a current state an absent tree goes with an empty table. -/
theorem State.DataInv.total_of_absent {s : State} (h : s.DataInv) (hv : s.treeValid = true)
    (ht : s.tree = none) : tableSum s.ftab = 0 := by
  rw [h.treeCurrent hv, buildTree_none] at ht
  rw [← entries_sum h.tableSize, ht]
  rfl

theorem State.DataInv.total {s : State} (h : s.DataInv) : s.total.toNat = tableSum s.ftab :=
  toNat_toWord h.totalFits

theorem resetWith_data {p : Params} (h : p.wellFormed = true) : (State.resetWith p).DataInv where
  paramsOk := h
  tableSize := emptyTable_length
  totalFits := by
    have : tableSum (State.resetWith p).ftab = 0 := tableSum_emptyTable
    rw [this]; omega
  treeCurrent := by intro h; cases h
  treeAbsent := fun _ => rfl
  mapNeedsTree := by intro h; cases h
  mapCurrent := by intro h; cases h
  mapEmpty := fun _ => rfl
  bitsFit := Nat.zero_le _
  outputFits := Nat.zero_le _
  memCanonical := List.Pairwise.nil
  memInBuffers := by intro c h; cases h
  outputSpecified := by intro k h; exact absurd h (Nat.not_lt_zero k)
  resultIsBit := .inl rfl

theorem writeTable_data {s : State} {F : List Word} (h : s.DataInv) (hl : F.length = 256)
    (hs : tableSum F < 2 ^ 64) : (s.writeTable F).DataInv :=
  { h with
    tableSize := hl
    totalFits := hs
    treeCurrent := by intro h; cases h
    treeAbsent := fun _ => rfl
    mapNeedsTree := by intro h; cases h
    mapCurrent := by intro h; cases h
    mapEmpty := fun _ => rfl }

theorem writeTree_data {s : State} (h : s.DataInv) : (s.writeTree (buildTree s.ftab)).DataInv :=
  { h with
    treeCurrent := fun _ => rfl
    treeAbsent := by intro h; cases h
    mapNeedsTree := by intro h; cases h
    mapCurrent := by intro h; cases h
    mapEmpty := fun _ => rfl }

theorem writeMap_data {s : State} (h : s.DataInv) (hv : s.treeValid = true) :
    (s.writeMap (buildMap s.tree)).DataInv :=
  { h with
    mapNeedsTree := fun _ => hv
    mapCurrent := fun _ => rfl
    mapEmpty := by intro h; cases h }

theorem writeBits_data {s : State} {bits : List Bool} (h : s.DataInv)
    (hb : bits.length ≤ s.params.bsCapBits) : (s.writeBits bits).DataInv :=
  { h with bitsFit := hb }

theorem writeOutput_data {s : State} {bs : List Byte} (h : s.DataInv)
    (hb : bs.length ≤ s.params.obufSize) : (s.writeOutput bs).DataInv := by
  have hp := params_bounds h.paramsOk
  have ho : (s.writeOutput bs).olen.toNat = bs.length := toNat_toWord (by omega)
  exact
    { h with
      outputFits := by rw [ho]; exact hb
      memCanonical := mem_setObuf_wf bs h.memCanonical
      memInBuffers := by
        intro c hc
        rw [ho]
        rcases mem_setObuf_subset hc with ⟨hm, hlt⟩ | hc
        · rcases h.memInBuffers c hm with hi | hi
          · exact .inl hi
          · omega
        · exact .inr hc
      outputSpecified := by
        intro k hk
        rw [ho] at hk
        change (Mem.get? (Mem.setObuf s.mem bs) _).isSome = true
        rw [mem_get?_setObuf, if_neg (by omega), Nat.add_sub_cancel_left]
        simp [hk] }

/-- IBUF bytes written inside IBUF. -/
theorem putInput_data {s : State} {a : Nat} {bs : List Byte} (h : s.DataInv)
    (h1 : Config.ibufBase ≤ a) (h2 : a + bs.length ≤ Config.ibufBase + s.params.ibufSize) :
    State.DataInv { s with mem := Mem.putBytes s.mem a bs } := by
  have hp := params_bounds h.paramsOk
  exact
    { h with
      memCanonical := mem_putBytes_wf bs a h.memCanonical
      memInBuffers := by
        intro c hc
        rcases mem_putBytes_subset bs hc with hm | hc
        · exact h.memInBuffers c hm
        · exact .inl ⟨by omega, by change _ < _ + s.params.ibufSize; omega⟩
      outputSpecified := by
        intro k hk
        change (Mem.get? (Mem.putBytes s.mem a bs) _).isSome = true
        rw [mem_get?_putBytes, if_neg (by simp [Config.ibufBase, Config.obufBase] at *; omega)]
        exact h.outputSpecified k hk }

/-- Clearing a destination set keeps the data invariant, when it clears the tree with the table and
the map with the tree. -/
theorem clearDest_data {s : State} {ds : List DestMember} (h : s.DataInv)
    (h1 : DestMember.ftab ∈ ds → DestMember.tree ∈ ds)
    (h2 : DestMember.tree ∈ ds → DestMember.map ∈ ds) : (clearDest ds s).DataInv where
  paramsOk := by rw [clearDest_params]; exact h.paramsOk
  tableSize := by rw [clearDest_ftab]; split <;> simp [h.tableSize]
  totalFits := by
    rw [clearDest_ftab]
    split
    · rw [tableSum_emptyTable]; omega
    · exact h.totalFits
  treeCurrent := by
    rw [clearDest_treeValid, clearDest_tree, clearDest_ftab]
    by_cases ht : DestMember.tree ∈ ds
    · simp [ht]
    · have hf : DestMember.ftab ∉ ds := fun hf => ht (h1 hf)
      simp only [ht, hf, if_false]
      exact h.treeCurrent
  treeAbsent := by
    rw [clearDest_treeValid, clearDest_tree]
    by_cases ht : DestMember.tree ∈ ds
    · simp [ht]
    · simp only [ht, if_false]; exact h.treeAbsent
  mapNeedsTree := by
    rw [clearDest_treeValid, clearDest_mapValid]
    by_cases hm : DestMember.map ∈ ds
    · simp [hm]
    · have ht : DestMember.tree ∉ ds := fun ht => hm (h2 ht)
      simp only [ht, hm, if_false]
      exact h.mapNeedsTree
  mapCurrent := by
    rw [clearDest_mapValid, clearDest_map, clearDest_tree]
    by_cases hm : DestMember.map ∈ ds
    · simp [hm]
    · have ht : DestMember.tree ∉ ds := fun ht => hm (h2 ht)
      simp only [ht, hm, if_false]
      exact h.mapCurrent
  mapEmpty := by
    rw [clearDest_mapValid, clearDest_map]
    by_cases hm : DestMember.map ∈ ds
    · simp [hm]
    · simp only [hm, if_false]; exact h.mapEmpty
  bitsFit := by
    rw [clearDest_bits, clearDest_params]
    split
    · exact Nat.zero_le _
    · exact h.bitsFit
  outputFits := by
    rw [clearDest_olen, clearDest_params]
    split
    · exact Nat.zero_le _
    · exact h.outputFits
  memCanonical := by
    rw [clearDest_mem]
    split
    · exact mem_dropObuf_wf h.memCanonical
    · exact h.memCanonical
  memInBuffers := by
    intro c hc
    rw [clearDest_mem] at hc
    rw [clearDest_params, clearDest_olen]
    split at hc
    · rename_i ho
      have := mem_dropObuf_subset hc
      rcases h.memInBuffers c this.1 with hi | hi
      · exact .inl hi
      · omega
    · rename_i ho
      rw [if_neg ho]
      exact h.memInBuffers c hc
  outputSpecified := by
    intro k hk
    rw [clearDest_olen] at hk
    split at hk
    · simp at hk
    · rename_i ho
      rw [clearDest_mem, if_neg ho]
      exact h.outputSpecified k hk
  resultIsBit := by
    rw [clearDest_result]
    split
    · exact .inl rfl
    · exact h.resultIsBit

theorem dest_closed (i : Instr) :
    (DestMember.ftab ∈ dest i → DestMember.tree ∈ dest i) ∧
      (DestMember.tree ∈ dest i → DestMember.map ∈ dest i) := by
  cases i <;> decide

/-- The completion record does not matter to the data invariant. -/
theorem DataInv_record {s : State} (h : s.DataInv) (seq : Seq) (done err : Bool)
    (errCode : BitVec 4) (errInfo : Word) (draws : Nat) :
    State.DataInv { s with
      seq := seq, done := done, err := err, errCode := errCode, errInfo := errInfo,
      draws := draws } := { h with }

theorem countTable_data {s t : State} (h : s.DataInv) (hb : analyzeBody s = .ok t) :
    t.DataInv := by
  obtain ⟨_, rfl⟩ := analyzeBody_ok.1 hb
  have hl : (s.inputBytes s.ilen.toNat).length < 2 ^ 64 := by
    rw [inputBytes_length]; exact s.ilen.isLt
  exact writeTable_data h (tabulate_length _) (by rw [countTable, tableSum_counts hl]; exact hl)

/-- In a current state the bytes a successful DECODE emits are TOTAL in number. -/
theorem decodeBits_total {s : State} (h : s.DataInv) (hv : s.treeValid = true) {bs : List Byte}
    (hd : decodeBits s.tree s.total.toNat s.bits = .ok bs) : bs.length = s.total.toNat :=
  decodeBits_length hd (fun ht => by rw [h.total, h.total_of_absent hv ht])

theorem decodeBody_data {s t : State} (h : s.DataInv) (hb : decodeBody s = .ok t) : t.DataInv := by
  obtain ⟨hv, hT, bs, hd, rfl⟩ := decodeBody_ok.1 hb
  exact writeOutput_data h (by rw [decodeBits_total h hv hd]; exact hT)

theorem encodeBody_data {s t : State} (h : s.DataInv) (hb : encodeBody s = .ok t) : t.DataInv := by
  obtain ⟨_, _, _, hc, rfl⟩ := encodeBody_ok.1 hb
  refine writeBits_data h ?_
  rcases hc with hn | hc
  · rw [hn]; exact Nat.zero_le _
  · exact hc

theorem deserializeBody_data {s t : State} (h : s.DataInv) (hb : deserializeBody s = .ok t) :
    t.DataInv := by
  obtain ⟨_, F, bits, hd, rfl⟩ := deserializeBody_ok.1 hb
  obtain ⟨hl, hs, hbits, _⟩ := deserialize_inv hd
  exact writeBits_data (writeTable_data h hl hs) hbits

theorem buildTreeBody_data {s t : State} (h : s.DataInv) (hb : buildTreeBody s = .ok t) :
    t.DataInv := by
  rw [buildTreeBody_ok.1 hb]
  exact writeTree_data h

theorem buildMapBody_data {s t : State} (h : s.DataInv) (hb : buildMapBody s = .ok t) :
    t.DataInv := by
  obtain ⟨hv, rfl⟩ := buildMapBody_ok.1 hb
  exact writeMap_data h hv

theorem serializeBody_data {s t : State} (h : s.DataInv) (hb : serializeBody s = .ok t) :
    t.DataInv := by
  obtain ⟨hf, rfl⟩ := serializeBody_ok.1 hb
  exact writeOutput_data h hf

end Sys2Proof.Machine
end

