-- ==== Sys2Proof/Laws/PerInstr.lean ====
section
/-! SUPPORT. Facts about every command as syntax, command by command. -/

namespace Sys2Proof.Laws.RoundTrip

/-- A command is well formed, and its word decodes to it (30_encoding.md R140, R141). -/
def Statement (i : Sys2Proof.Instr) : Prop :=
  i.wellFormed = true ∧ Sys2Proof.decodeWord (Sys2Proof.encodeWord i) = .ok i

theorem nop : Statement .nop := ⟨rfl, rfl⟩
theorem analyze : Statement .analyze := ⟨rfl, rfl⟩
theorem buildTree : Statement .buildTree := ⟨rfl, rfl⟩
theorem buildMap : Statement .buildMap := ⟨rfl, rfl⟩
theorem bsClear : Statement .bsClear := ⟨rfl, rfl⟩
theorem bsAppend : Statement .bsAppend := ⟨rfl, rfl⟩
theorem bsBitat : Statement .bsBitat := ⟨rfl, rfl⟩
theorem encode : Statement .encode := ⟨rfl, rfl⟩
theorem decode : Statement .decode := ⟨rfl, rfl⟩
theorem serialize : Statement .serialize := ⟨rfl, rfl⟩
theorem deserialize : Statement .deserialize := ⟨rfl, rfl⟩
theorem compress : Statement .compress := ⟨rfl, rfl⟩
theorem decompress : Statement .decompress := ⟨rfl, rfl⟩
theorem softReset : Statement .softReset := ⟨rfl, rfl⟩

end Sys2Proof.Laws.RoundTrip
end

