-- ==== Sys2Proof/Tests/Slice0.lean ====
section
/-! SUPPORT. The model's own tests: ill-formed parameters are refused, each command's word decodes,
and one step at a time against the vectors of 95_test_vectors.md. The vectors are worked from the
spec's rules; a test names its vector, or the rule it was worked from by hand. -/

namespace Sys2Proof.Tests

open Sys2Proof.Machine

set_option Elab.async false

/-! ### Ill-formed terms -/

theorem test_tcfg_is_well_formed : Params.tcfg.wellFormed = true := by decide

/-- 00_scope.md R6: the least and the greatest legal sizes. -/
theorem test_extreme_params_are_well_formed :
    Params.wellFormed ⟨8, 8, 64⟩ = true ∧ Params.wellFormed ⟨2 ^ 28, 2 ^ 28, 2 ^ 31⟩ = true := by
  decide

theorem test_buffer_not_multiple_of_8_refused : Params.wellFormed ⟨4100, 4096, 32768⟩ = false := by
  decide

theorem test_buffer_too_small_refused : Params.wellFormed ⟨4096, 0, 32768⟩ = false := by decide

theorem test_buffer_too_large_refused :
    Params.wellFormed ⟨2 ^ 28 + 8, 4096, 32768⟩ = false := by decide

theorem test_bits_not_multiple_of_64_refused : Params.wellFormed ⟨4096, 4096, 96⟩ = false := by
  decide

theorem test_bits_too_few_refused : Params.wellFormed ⟨4096, 4096, 0⟩ = false := by decide

theorem test_bits_too_many_refused : Params.wellFormed ⟨4096, 4096, 2 ^ 31 + 64⟩ = false := by
  decide

/-! ### Decoding: each word written out from 30_encoding.md R140, R141 -/

/-- A command word from its two fields, RSV (56 bits) above OPC (8 bits) (30_encoding.md R140). -/
def word (rsv : BitVec 56) (opc : Byte) : Word := rsv ++ opc

theorem test_decode_nop : decodeWord (word 0 0b00000000) = .ok .nop := rfl
theorem test_decode_analyze : decodeWord (word 0 0b00000001) = .ok .analyze := rfl
theorem test_decode_buildTree : decodeWord (word 0 0b00000010) = .ok .buildTree := rfl
theorem test_decode_buildMap : decodeWord (word 0 0b00000011) = .ok .buildMap := rfl
theorem test_decode_bsClear : decodeWord (word 0 0b00000100) = .ok .bsClear := rfl
theorem test_decode_bsAppend : decodeWord (word 0 0b00000101) = .ok .bsAppend := rfl
theorem test_decode_bsBitat : decodeWord (word 0 0b00000110) = .ok .bsBitat := rfl
theorem test_decode_encode : decodeWord (word 0 0b00000111) = .ok .encode := rfl
theorem test_decode_decode : decodeWord (word 0 0b00001000) = .ok .decode := rfl
theorem test_decode_serialize : decodeWord (word 0 0b00001001) = .ok .serialize := rfl
theorem test_decode_deserialize : decodeWord (word 0 0b00001010) = .ok .deserialize := rfl
theorem test_decode_compress : decodeWord (word 0 0b00010000) = .ok .compress := rfl
theorem test_decode_decompress : decodeWord (word 0 0b00010001) = .ok .decompress := rfl
theorem test_decode_softReset : decodeWord (word 0 0b00011111) = .ok .softReset := rfl

/-- 30_encoding.md R141, R143: the unlisted opcodes next to listed ones, and the largest. -/
theorem test_decode_rejects_unlisted_opcodes :
    decodeWord (word 0 0x0B) = .error (.unlistedOpcode 0x0B) ∧
    decodeWord (word 0 0x0F) = .error (.unlistedOpcode 0x0F) ∧
    decodeWord (word 0 0x12) = .error (.unlistedOpcode 0x12) ∧
    decodeWord (word 0 0x1E) = .error (.unlistedOpcode 0x1E) ∧
    decodeWord (word 0 0x20) = .error (.unlistedOpcode 0x20) ∧
    decodeWord (word 0 0xFF) = .error (.unlistedOpcode 0xFF) := ⟨rfl, rfl, rfl, rfl, rfl, rfl⟩

/-- 30_encoding.md R140, R143: the lowest and the highest reserved bit. -/
theorem test_decode_rejects_reserved_bits :
    decodeWord (word 1 0x01) = .error (.reservedBits 0x101) ∧
    decodeWord (word (1 <<< 55) 0x00) = .error (.reservedBits 0x8000000000000000) := ⟨rfl, rfl⟩

/-- 20_memory.md R103: the opcode byte comes first; bytes after the eighth are left. -/
theorem test_decode_bytes_little_endian :
    decodeBytes [0x10, 0, 0, 0, 0, 0, 0, 0, 0xAA] = .ok (.compress, [0xAA]) ∧
    decodeBytes [0, 0, 0, 0, 0, 0, 0, 0x10] = .error (.reservedBits 0x1000000000000000) ∧
    decodeBytes [0x10, 0, 0, 0, 0, 0, 0] = .error .truncated := ⟨rfl, rfl, rfl⟩

/-! ### Helpers for one step -/

/-- The state after the next step, or the same state when it stops. -/
def next (s : State) : State :=
  match step s with
  | .next t => t
  | .fault _ => s
  | .refused _ => s

/-- The fault of the next step, if it is one. -/
def faultOf (s : State) : Option Fault :=
  match step s with
  | .next _ => none
  | .fault f => some f
  | .refused _ => none

/-- The state after the command word `w` has run. -/
def after (s : State) (w : Nat) : State := next (s.withFetchWord 64 w)

/-- `s` with these input bytes in IBUF and ILEN their number. -/
def withInput (s : State) (bs : List Byte) : State :=
  { s with mem := Mem.putBytes s.mem Config.ibufBase bs, ilen := toWord bs.length }

/-- The specified bytes of OBUF below OLEN. -/
def output (s : State) : List (Option Byte) :=
  (List.range s.olen.toNat).map (fun k => Mem.get? s.mem (Config.obufBase + k))

/-- A table from its entries. -/
def table (es : List (Byte × Word)) : List Word :=
  tabulate (fun v => ((es.find? (fun e => e.1 == v)).map Prod.snd).getD 0)

/-- A map from its codes. -/
def codes (es : List (Byte × Code)) : List Code :=
  tabulate (fun v => ((es.find? (fun e => e.1 == v)).map Prod.snd).getD [])

/-- "AAAB" (95_test_vectors.md S1). -/
def aaab : List Byte := [0x41, 0x41, 0x41, 0x42]

def aaabTable : List Word := table [(0x41, 3), (0x42, 1)]

def aaabTree : HuffmanNode := .internal 4 (.leaf 0x42 1) (.leaf 0x41 3)

def aaabMap : List Code := codes [(0x42, [false]), (0x41, [true])]

def aaabBits : List Bool := [true, true, true, false]

def aaabArchive : List Byte :=
  [0x48, 0x55, 0x46, 0x5A, 0x01, 0x02, 0x41, 0x03, 0x42, 0x01, 0x04, 0xE0]

/-- The state with the table, tree and map of "AAAB" built and "AAAB" as input. -/
def built : State :=
  { withInput State.reset aaab with
    ftab := aaabTable, treeValid := true, tree := some aaabTree, mapValid := true, map := aaabMap }

/-- The nine bits of vector V-B2. -/
def nineBits : State :=
  { State.reset with bits := [true, false, true, true, true, false, false, true, true] }

/-! ### One step per vector -/

/-- V-N1. -/
theorem test_nop : (after State.reset 0x00).statusWord = 0x2 := by decide +kernel

/-- V-A1. -/
theorem test_analyze :
    (after (withInput State.reset aaab) 0x01).ftab = aaabTable ∧
    (after (withInput State.reset aaab) 0x01).total = 4 ∧
    (after (withInput State.reset aaab) 0x01).statusWord = 0x00010002 := by decide +kernel

/-- V-A8, V-A7: ILEN over IBUF_SIZE clears what ANALYZE writes. -/
theorem test_analyze_range_error :
    (after { built with ilen := 4097 } 0x01).statusWord = 0x00010604 ∧
    (after { built with ilen := 4097 } 0x01).errInfo = 0x1001 ∧
    (after { built with ilen := 4097 } 0x01).validWord = 0 ∧
    (after { built with ilen := 4097 } 0x01).ftab = emptyTable := by decide +kernel

/-- V-T4, rule R227: the worked trace of "ABRACADABRA". -/
theorem test_build_tree_abracadabra :
    (after { State.reset with
        ftab := table [(0x41, 5), (0x42, 2), (0x43, 1), (0x44, 1), (0x52, 2)] } 0x02).tree =
      some (.internal 11 (.leaf 0x41 5) (.internal 6 (.leaf 0x52 2) (.internal 4 (.leaf 0x42 2)
        (.internal 2 (.leaf 0x43 1) (.leaf 0x44 1))))) := by decide +kernel

/-- V-T5: equal counts are broken by the least byte value under a node. -/
theorem test_build_tree_tie_break :
    (after { State.reset with ftab := table [(0, 1), (1, 1), (2, 1), (3, 1)] } 0x02).tree =
      some (.internal 4 (.internal 2 (.leaf 0 1) (.leaf 1 1)) (.internal 2 (.leaf 2 1) (.leaf 3 1)))
    := by decide +kernel

/-- V-M1. -/
theorem test_build_map :
    (after { built with mapValid := false, map := emptyMap } 0x03).map = aaabMap ∧
    (after { built with mapValid := false, map := emptyMap } 0x03).maxLen = 1 ∧
    (after { built with mapValid := false, map := emptyMap } 0x03).hostByte 0x4820 = 0x80 := by
  decide +kernel

/-- V-M9. -/
theorem test_build_map_sequence_error :
    (after State.reset 0x03).statusWord = 0x00030504 ∧ (after State.reset 0x03).errInfo = 3 := by
  decide +kernel

/-- V-B12. -/
theorem test_bs_clear :
    (after nineBits 0x04).bitLen = 0 ∧ (after nineBits 0x04).statusWord = 0x00040002 := by
  decide +kernel

/-- V-B1, V-B2. -/
theorem test_bs_append :
    (after { State.reset with bits := [true, false, true], arg0 := 6, arg1 := 0x33 } 0x05).bits =
      nineBits.bits ∧
    (after { State.reset with bits := [true, false, true], arg0 := 6, arg1 := 0x33 } 0x05).hostByte
      0x10000001 = 0x80 := by decide +kernel

/-- V-B9. -/
theorem test_bs_append_range_error :
    (after { nineBits with arg0 := 65 } 0x05).errInfo = 65 ∧
    (after { nineBits with arg0 := 65 } 0x05).errCode = 6 ∧
    (after { nineBits with arg0 := 65 } 0x05).bitLen = 0 := by decide +kernel

/-- V-B3, V-B4. -/
theorem test_bs_bitat :
    (after { nineBits with arg0 := 3 } 0x06).result = 1 ∧
    (after { nineBits with arg0 := 5 } 0x06).result = 0 ∧
    (after { nineBits with arg0 := 8 } 0x06).result = 1 := by decide +kernel

/-- V-B5. -/
theorem test_bs_bitat_range_error :
    (after { nineBits with arg0 := 9, result := 1 } 0x06).statusWord = 0x00060604 ∧
    (after { nineBits with arg0 := 9, result := 1 } 0x06).result = 0 ∧
    (after { nineBits with arg0 := 9, result := 1 } 0x06).bits = nineBits.bits := by decide +kernel

/-- V-E1, V-E12. -/
theorem test_encode :
    (after { built with bits := nineBits.bits } 0x07).bits = aaabBits ∧
    (after { built with bits := nineBits.bits } 0x07).statusWord = 0x00070002 := by decide +kernel

/-- V-E5: the fourth byte has no code. -/
theorem test_encode_error :
    (after (withInput built [0x41, 0x41, 0x41, 0x43]) 0x07).statusWord = 0x00070204 ∧
    (after (withInput built [0x41, 0x41, 0x41, 0x43]) 0x07).errInfo = 3 := by decide +kernel

/-- V-D1. -/
theorem test_decode :
    output (after { built with bits := aaabBits } 0x08) = aaab.map some ∧
    (after { built with bits := aaabBits } 0x08).statusWord = 0x00080002 := by decide +kernel

/-- V-D7: a fifth symbol at bit 4. V-D18: TOTAL over OBUF_SIZE, whatever the bits. -/
theorem test_decode_errors :
    (after { built with bits := aaabBits ++ [false] } 0x08).errCode = 1 ∧
    (after { built with bits := aaabBits ++ [false] } 0x08).errInfo = 4 ∧
    (after { built with bits := aaabBits ++ [false] } 0x08).olen = 0 ∧
    (after { built with
      ftab := table [(0x41, BitVec.allOnes 64)], tree := some (.leaf 0x41 (BitVec.allOnes 64)),
      bits := [] } 0x08).statusWord = 0x00080704 ∧
    (after { built with
      ftab := table [(0x41, BitVec.allOnes 64)], tree := some (.leaf 0x41 (BitVec.allOnes 64)),
      bits := [] } 0x08).errInfo = 0xFFFFFFFFFFFFFFFF := by decide +kernel

/-- V-S1. -/
theorem test_serialize :
    output (after { built with bits := aaabBits } 0x09) = aaabArchive.map some := by decide +kernel

/-- The varint examples of 30_encoding.md R153. -/
theorem test_varint :
    varint 128 = [0x80, 0x01] ∧ varint 300 = [0xAC, 0x02] ∧ varint 16384 = [0x80, 0x80, 0x01] ∧
    varint 0xFFFFFFFFFFFFFFFF = List.replicate 9 0xFF ++ [0x01] := by decide +kernel

/-- V-R1. -/
theorem test_deserialize :
    (after (withInput State.reset aaabArchive) 0x0A).ftab = aaabTable ∧
    (after (withInput State.reset aaabArchive) 0x0A).bits = aaabBits ∧
    (after (withInput State.reset aaabArchive) 0x0A).statusWord = 0x000A0002 := by decide +kernel

/-- V-R13, V-R20, V-R21, V-R11: a duplicate entry, counts over 2^64 - 1, bits over BS_CAP_BITS, and a
padding bit. -/
theorem test_deserialize_errors :
    (after (withInput State.reset
      [0x48, 0x55, 0x46, 0x5A, 0x01, 0x02, 0x41, 0x03, 0x41, 0x01, 0x04, 0xE0]) 0x0A).errInfo = 8 ∧
    (after (withInput State.reset ([0x48, 0x55, 0x46, 0x5A, 0x01, 0x02, 0x41] ++
      List.replicate 9 0xFF ++ [0x01, 0x42, 0x01, 0x00])) 0x0A).errInfo = 18 ∧
    (after (withInput State.reset
      [0x48, 0x55, 0x46, 0x5A, 0x01, 0x00, 0x81, 0x80, 0x02]) 0x0A).errInfo = 32769 ∧
    (after (withInput State.reset
      [0x48, 0x55, 0x46, 0x5A, 0x01, 0x02, 0x41, 0x03, 0x42, 0x01, 0x04, 0xE1]) 0x0A).errInfo = 11
    := by decide +kernel

/-- V-C1. -/
theorem test_compress :
    output (after (withInput State.reset aaab) 0x10) = aaabArchive.map some ∧
    (after (withInput State.reset aaab) 0x10).validWord = 3 ∧
    (after (withInput State.reset aaab) 0x10).statusWord = 0x00100002 := by decide +kernel

/-- V-C5: the empty input. -/
theorem test_compress_empty :
    output (after State.reset 0x10) =
      [0x48, 0x55, 0x46, 0x5A, 0x01, 0x00, 0x00].map some := by decide +kernel

/-- V-C2. -/
theorem test_decompress :
    output (after (withInput State.reset aaabArchive) 0x11) = aaab.map some ∧
    (after (withInput State.reset aaabArchive) 0x11).validWord = 1 ∧
    (after (withInput State.reset aaabArchive) 0x11).maxLen = 0 := by decide +kernel

/-- V-C11: the archive of V-R25 holds too few bits. -/
theorem test_decompress_format_error :
    (after (withInput built
      [0x48, 0x55, 0x46, 0x5A, 0x01, 0x02, 0x41, 0x03, 0x42, 0x01, 0x02, 0xC0]) 0x11).errInfo = 2 ∧
    (after (withInput built
      [0x48, 0x55, 0x46, 0x5A, 0x01, 0x02, 0x41, 0x03, 0x42, 0x01, 0x02, 0xC0]) 0x11).validWord = 0
    := by decide +kernel

/-- V-N2. -/
theorem test_soft_reset :
    (after { built with doneIe := true, arg0 := 1 } 0x1F).statusWord = 0x001F0002 ∧
    (after { built with doneIe := true, arg0 := 1 } 0x1F).irqenWord = 0 ∧
    (after { built with doneIe := true, arg0 := 1 } 0x1F).inputBytes 4 = aaab := by decide +kernel

/-! ### Issue and host accesses -/

/-- V-N3, V-N4: illegal words. -/
theorem test_illegal_words :
    (after State.reset 0x0B).statusWord = 0x000B0404 ∧
    (after State.reset 0x101).statusWord = 0x00010404 ∧
    (after State.reset 0x101).errInfo = 0x101 := by decide +kernel

/-- V-N9: a CMD write while COMPRESS runs is dropped. -/
theorem test_overrun :
    (next { State.reset.issue 0x10 with turns := [.write 0x08 8 0x0] }).seq = .running 0x10 ∧
    (next { State.reset.issue 0x10 with turns := [.write 0x08 8 0x0] }).statusWord = 0x00100009 := by
  decide +kernel

/-- V-N6: acknowledging an error. -/
theorem test_status_write :
    (next { State.reset with
      err := true, errCode := 4, errInfo := 0xB, lastOpc := 0x0B,
      turns := [.write 0x10 8 0x4] }).statusWord = 0x000B0000 := by decide +kernel

/-- V-N12. -/
theorem test_read_id :
    (next { State.reset with turns := [.read 0x00 8] }).rdata = 0x000001015A465548 := by
  decide +kernel

/-- V-N13, V-N14: a wrong width and a misaligned address. -/
theorem test_host_access_fault :
    faultOf { State.reset with turns := [.read 0x10 4] } = some (.hostAccessFault 0x10 4) ∧
    faultOf { State.reset with turns := [.write 0x20000001 2 0] } =
      some (.hostAccessFault 0x20000001 2) := by decide +kernel

/-- V-N15: little-endian. -/
theorem test_input_write :
    (next { State.reset with turns := [.write 0x20000000 4 0x42414141] }).inputBytes 4 = aaab := by
  decide +kernel

/-- V-N16: reserved and unmapped addresses read 0. -/
theorem test_reads_of_nothing :
    (next { State.reset with rdata := 7, turns := [.read 0x98 8] }).rdata = 0 ∧
    (next { State.reset with rdata := 7, turns := [.read 0x08000000 4] }).rdata = 0 := by
  decide +kernel

/-- V-N17. -/
theorem test_host_hazard :
    faultOf { State.reset.issue 0x10 with turns := [.write 0x20000000 1 0] } =
      some (.hostHazard 0x20000000) := by decide +kernel

/-- 70_reset_and_hazards.md R450: reset while a command runs drops it. -/
theorem test_hardware_reset :
    (next { built.issue 0x10 with turns := [.hardReset] }).seq = .idle ∧
    (next { built.issue 0x10 with turns := [.hardReset] }).validWord = 0 ∧
    (next { built.issue 0x10 with turns := [.hardReset] }).mem = [] := by decide +kernel

/-- The interface: a table word is issued and runs as the very next step. -/
theorem test_withFetchWord_runs :
    decodeTableWord 64 0x10 = some .compress ∧ decodeTableWord 8 0x1F = some .softReset ∧
    decodeTableWord 64 0x0B = none ∧ (State.reset.withFetchWord 64 0x10).seq = .running 0x10 := by
  decide +kernel

/-- 30_encoding.md R144, R145: the accesses that encode host actions, worked out by hand. -/
theorem test_host_actions :
    accesses [] (.wb (.lit 1) (.lit [0x41, 0x42])) =
      [.write 0x20000001 1 0x41, .write 0x20000002 1 0x42] ∧
    accesses [] (.rb .obuf (.lit 0) (.lit 2) "a") = [.read 0x30000000 1, .read 0x30000001 1] ∧
    accesses [] (.rq .maplenw (.lit 0x41) "l") = [.read 0x2208 8] ∧
    (runActs .compress "L").flatMap (accesses []) = [.write 0x08 8 0x10, .read 0x10 8] := by
  decide +kernel

/-- 30_encoding.md R144: a poll loop goes back to its label while BUSY = 1. -/
theorem test_host_poll :
    nextLine (runActs .compress "L") 3 [("s", .word 1)] (.ifGoto (.bitSet (.var "s") 0) "L") = 1 ∧
    nextLine (runActs .compress "L") 3 [("s", .word 2)] (.ifGoto (.bitSet (.var "s") 0) "L") = 4 := by
  decide +kernel

/-- 70_reset_and_hazards.md R450: the reset input while COMPRESS runs under a host program. The
command is lost; the host stands at its next access (assumption 23). -/
theorem test_system_reset :
    ∃ y, systemMove .reset
      { core := built.issue 0x10, host := ⟨runActs .compress "L", 2, [], some [.read 0x10 8], []⟩ } =
        .next y ∧ y.core.seq = .idle ∧ y.core.statusWord = 0 ∧ y.host.todo = some [.read 0x10 8] :=
  ⟨_, rfl, rfl, rfl, rfl⟩

/-! ### Witnesses: for each statement of Certificates/Slice0/Obligations.lean that has hypotheses, a
state and operands that meet them, with the boundary values of each clause -/

/-- The smallest block that can hold the archive of "AAAB". -/
def small : State := State.resetWith ⟨16, 16, 64⟩

/-- `built` in the small block. -/
def smallBuilt : State :=
  { withInput small aaab with
    ftab := aaabTable, treeValid := true, tree := some aaabTree, mapValid := true, map := aaabMap }

/-- The small block with COMPRESS running and the next event of the environment given. -/
def running (ts : List Turn) : State := { small.issue 0x10 with turns := ts }

/-- The small block, idle, with the next event of the environment given. -/
def idle (ts : List Turn) : State := { small with turns := ts }

/-- The small block, idle after a command that ended with or without error, both enables set. -/
def raised (ok : Bool) (ts : List Turn) : State :=
  { idle ts with
    done := ok, err := !ok, errCode := if ok then 0 else 5, errInfo := if ok then 0 else 7,
    doneIe := true, errIe := true }

theorem witness_StepRunsTheDecodedCommand :
    (running []).seq = .running 0x10 ∧ decodeWord 0x10 = .ok .compress ∧ (running []).turns = [] ∧
    (running [.core]).seq = .running 0x10 ∧ (running [.core]).turns = .core :: [] ∧
    (idle []).seq = .idle ∧ (idle []).turns = [] ∧
    (idle [.core, .hardReset]).turns = .core :: [.hardReset] :=
  ⟨rfl, rfl, rfl, rfl, rfl, rfl, rfl, rfl⟩

theorem witness_CmdWriteIssuesTheCommand :
    (idle [.write 0x08 8 0x10]).busy = false ∧
    (idle [.write 0x08 8 0x10]).turns = .write 0x08 8 0x10 :: [] := ⟨rfl, rfl⟩

theorem witness_CmdWriteWhileBusyIsDropped :
    (running [.write 0x08 8 0]).busy = true ∧
    (running [.write 0x08 8 0]).turns = .write 0x08 8 0 :: [] ∧
    (idle [.write 0x08 8 0]).busy = false ∧ (idle [.write 0x08 8 0]).turns = .write 0x08 8 0 :: [] ∧
    BitVec.getLsbD (8 : Word) 3 = true ∧
    (running [.write 0x10 8 8]).turns = .write 0x10 8 8 :: [] ∧
    (running [.hardReset]).turns = .hardReset :: [] := ⟨rfl, rfl, rfl, rfl, rfl, rfl, rfl⟩

/-- The first unlisted opcode, and the lowest reserved bit; a running illegal word with nothing more
in the schedule, and with the core's turn after a refused second command (OVR set, V-N9). -/
theorem witness_IllegalWordEndsInIllegalCommand :
    (idle [.write 0x08 8 0x0B, .core]).busy = false ∧ (∀ i, decodeWord 0x0B ≠ .ok i) ∧
    (idle [.write 0x08 8 0x0B, .core]).turns = .write 0x08 8 0x0B :: .core :: [] ∧
    (∀ i, decodeWord 0x100 ≠ .ok i) ∧
    (small.issue 0x100).seq = .running 0x100 ∧ (small.issue 0x100).turns = [] ∧
    { small.issue 0x0B with ovr := true, turns := [.core] }.seq = .running 0x0B ∧
    { small.issue 0x0B with ovr := true, turns := [.core] }.turns = .core :: [] :=
  ⟨rfl, (by intro i; cases i <;> intro h <;> cases h), rfl,
    (by intro i; cases i <;> intro h <;> cases h), rfl, rfl, rfl, rfl⟩

/-- A command that ends without error, and one that ends with an error. -/
theorem witness_CommandsKeepWhatTheyDoNotWrite :
    (∃ t, exec .buildTree smallBuilt = .next t ∧ t.err = false) ∧
    (∃ t, exec .bsAppend { smallBuilt with arg0 := 65 } = .next t ∧ t.err = true) :=
  ⟨⟨_, rfl, rfl⟩, ⟨_, rfl, rfl⟩⟩

theorem witness_ResetMeetsTheInvariant :
    Params.wellFormed ⟨8, 8, 64⟩ = true ∧ Params.wellFormed ⟨2 ^ 28, 2 ^ 28, 2 ^ 31⟩ = true := by
  decide

/-- A state with a table, a tree, a map, bits and an output. -/
def full : State :=
  { smallBuilt with
    bits := aaabBits, olen := 1, mem := Mem.setObuf smallBuilt.mem [0x41],
    turns := [.write 0x08 8 0x10] }

theorem full_inv : full.Inv where
  paramsOk := by decide +kernel
  tableSize := by decide +kernel
  totalFits := by decide +kernel
  treeCurrent := by decide +kernel
  treeAbsent := by decide +kernel
  mapNeedsTree := by decide +kernel
  mapCurrent := by decide +kernel
  mapEmpty := by decide +kernel
  bitsFit := by decide +kernel
  outputFits := by decide +kernel
  memCanonical := by decide +kernel
  memInBuffers := by decide +kernel
  outputSpecified := by decide +kernel
  doneOrErr := by decide +kernel
  busyQuiet := by decide +kernel
  noErrNoCode := by decide +kernel
  errCodeKnown := by decide +kernel
  resultIsBit := by decide +kernel

theorem witness_EveryStepKeepsTheInvariant : full.Inv ∧ step full = .next (next full) :=
  ⟨full_inv, rfl⟩

/-- A read, and a write of the last bytes of IBUF. -/
theorem witness_HostAccessesLeaveResultsAlone :
    (idle [.read 0x20000008 8]).turns = .read 0x20000008 8 :: [] ∧
    step (idle [.read 0x20000008 8]) = .next (next (idle [.read 0x20000008 8])) ∧
    (idle [.write 0x20000008 8 7]).turns = .write 0x20000008 8 7 :: [] ∧
    (idle [.write 0x20000008 8 7]).params.wellFormed = true ∧
    step (idle [.write 0x20000008 8 7]) = .next (next (idle [.write 0x20000008 8 7])) :=
  ⟨rfl, rfl, rfl, by decide +kernel, rfl⟩

theorem witness_ReadsHaveNoSideEffect :
    (running [.read 0x38 8]).turns = .read 0x38 8 :: [] ∧
    step (running [.read 0x38 8]) = .next (next (running [.read 0x38 8])) := ⟨rfl, rfl⟩

theorem witness_StatusWriteClearsByOnes :
    (running [.write 0x10 8 0xE]).turns = .write 0x10 8 0xE :: [] := rfl

theorem witness_IrqenKeepsItsTwoBits :
    (running [.write 0x20 8 0xFF, .read 0x20 8]).turns =
      .write 0x20 8 0xFF :: .read 0x20 8 :: [] := rfl

/-- A command of each ending; then, with the interrupt raised: the next issue, V-N10's write of 2 to
STATUS, a write of 4 under ERR, and writes to IRQEN that clear one enable and keep the other. -/
theorem witness_InterruptFollowsCompletion :
    (∃ t, exec .nop { small with doneIe := true } = .next t ∧ t.err = false) ∧
    (∃ t, exec .encode { small with errIe := true } = .next t ∧ t.err = true) ∧
    ((raised true [.write 0x08 8 0]).irq = true ∧ (raised true [.write 0x08 8 0]).busy = false ∧
      (raised true [.write 0x08 8 0]).turns = .write 0x08 8 0 :: []) ∧
    ((raised true [.write 0x10 8 2]).turns = .write 0x10 8 2 :: [] ∧
      BitVec.getLsbD (2 : Word) 1 = true ∧ (raised true [.write 0x10 8 2]).err = false) ∧
    ((raised false [.write 0x10 8 4]).irq = true ∧ (raised false [.write 0x10 8 4]).done = false ∧
      (raised false [.write 0x10 8 4]).turns = .write 0x10 8 4 :: [] ∧
      BitVec.getLsbD (4 : Word) 2 = true) ∧
    ((raised true [.write 0x20 8 2]).turns = .write 0x20 8 2 :: [] ∧
      BitVec.getLsbD (2 : Word) 0 = false ∧ (raised true [.write 0x20 8 2]).err = false) ∧
    ((raised false [.write 0x20 8 1]).turns = .write 0x20 8 1 :: [] ∧
      BitVec.getLsbD (1 : Word) 1 = false ∧ (raised false [.write 0x20 8 1]).done = false) :=
  ⟨⟨_, rfl, rfl⟩, ⟨_, rfl, rfl⟩, ⟨rfl, rfl, rfl⟩, ⟨rfl, rfl, rfl⟩, ⟨rfl, rfl, rfl, rfl⟩,
    ⟨rfl, rfl, rfl⟩, ⟨rfl, rfl, rfl⟩⟩

/-- The first and the last register. -/
theorem witness_ControlRegistersReadTheirState :
    (idle [.read 0x00 8]).busy = false ∧ (idle [.read 0x00 8]).turns = .read 0x00 8 :: [] ∧
    (idle [.read 0x90 8]).busy = false ∧ (idle [.read 0x90 8]).turns = .read 0x90 8 :: [] ∧
    (0x90#32, (64 : Word)) ∈ [(0x90#32, toWord (idle [.read 0x90 8]).params.bsCapBits)] := by
  refine ⟨rfl, rfl, rfl, rfl, ?_⟩
  decide +kernel

theorem witness_IdentityAndCapacitiesAreConstant :
    (0x90#32, (64 : Word)) ∈ [(0x90#32, toWord (running []).params.bsCapBits)] ∧
    (running [.read 0x00 8]).turns = .read 0x00 8 :: [] ∧
    (running [.write 0x90 8 1]).turns = .write 0x90 8 1 :: [] :=
  ⟨by decide +kernel, rfl, rfl⟩

theorem witness_OperandRegistersTakeEveryValue :
    (idle [.write 0x28 8 (BitVec.allOnes 64)]).busy = false ∧
    (idle [.write 0x28 8 (BitVec.allOnes 64)]).turns = .write 0x28 8 (BitVec.allOnes 64) :: [] ∧
    (idle [.write 0x30 8 1]).turns = .write 0x30 8 1 :: [] ∧
    (idle [.write 0x40 8 0]).turns = .write 0x40 8 0 :: [] := ⟨rfl, rfl, rfl, rfl⟩

/-- The first and the last reserved offset. -/
theorem witness_ReservedOffsetsAndBitsReadZero :
    0x98 ≤ (0x98 : Addr).toNat ∧ (0xF8 : Addr).toNat ≤ 0xF8 ∧ (0x98 : Addr).toNat % 8 = 0 ∧
    (0xF8 : Addr).toNat % 8 = 0 ∧ (idle [.read 0x98 8]).turns = .read 0x98 8 :: [] ∧
    (running [.write 0xF8 8 1]).turns = .write 0xF8 8 1 :: [] := by
  refine ⟨by decide, by decide, by decide, by decide, rfl, rfl⟩

/-- A narrow access to the first register, and a misaligned one to the last byte but one of IBUF. -/
theorem witness_InadmissibleAccessFaults :
    (running []).params.wellFormed = true ∧
    (⟨.reg, Config.regBase, 0x100⟩ : RegionRow) ∈ memoryMap (running []).params ∧
    Config.regBase ≤ (0x00 : Addr).toNat ∧ (0x00 : Addr).toNat < Config.regBase + 0x100 ∧
    ¬ ((4 = 8 ∧ (0x00 : Addr).toNat % 8 = 0) ∨
      (Region.reg ∈ [Region.mapcodew, .bssw, .ibuf, .obuf] ∧ 4 ∈ [1, 2, 4] ∧
        (0x00 : Addr).toNat % 4 = 0)) ∧
    (⟨.ibuf, Config.ibufBase, 16⟩ : RegionRow) ∈ memoryMap (running []).params ∧
    (0x2000000F : Addr).toNat < Config.ibufBase + 16 ∧
    ¬ ((2 = 8 ∧ (0x2000000F : Addr).toNat % 8 = 0) ∨
      (Region.ibuf ∈ [Region.mapcodew, .bssw, .ibuf, .obuf] ∧ 2 ∈ [1, 2, 4] ∧
        (0x2000000F : Addr).toNat % 2 = 0)) ∧
    (running [.read 0x00 4]).turns = .read 0x00 4 :: [] ∧
    (running [.write 0x2000000F 2 0]).turns = .write 0x2000000F 2 0 :: [] := by
  refine ⟨?_, ?_, ?_, ?_, ?_, ?_, ?_, ?_, rfl, rfl⟩ <;> decide +kernel

/-- A read-only register; the last byte of OBUF; CMD; the first unmapped byte after the registers. -/
theorem witness_ReadOnlyAndUnmappedAccesses :
    small.params.wellFormed = true ∧
    (idle [.write 0x00 8 1]).turns = .write 0x00 8 1 :: [] ∧
    (⟨.obuf, Config.obufBase, 16⟩ : RegionRow) ∈ memoryMap small.params ∧
    Config.obufBase ≤ (0x3000000F : Addr).toNat ∧
    (0x3000000F : Addr).toNat < Config.obufBase + 16 ∧
    regionAdmits .obuf (0x3000000F : Addr).toNat 1 = true ∧
    (idle [.write 0x3000000F 1 1]).turns = .write 0x3000000F 1 1 :: [] ∧
    (idle [.read 0x08 8]).turns = .read 0x08 8 :: [] ∧
    (∀ row ∈ memoryMap small.params,
      ¬ ((0x100 : Addr).toNat < row.base + row.size ∧ row.base < (0x100 : Addr).toNat + max 3 1)) ∧
    (idle [.read 0x100 3]).turns = .read 0x100 3 :: [] ∧
    (idle [.write 0x100 3 1]).turns = .write 0x100 3 1 :: [] := by
  refine ⟨?_, rfl, ?_, ?_, ?_, ?_, rfl, rfl, ?_, rfl, rfl⟩ <;> decide +kernel

/-- An aligned read of the last register while a command runs, of the last count of FTABW and the last
length of MAPLENW, and of the last byte or bytes of MAPCODEW, BSSW, IBUF and OBUF; the last byte of a
wide access; a write of the last eight bytes of IBUF. -/
theorem witness_HostAccessesAreLittleEndian :
    (∀ e ∈ [(Region.reg, Config.regBase, 0x100, 0xF8#32, 8),
        (.ftabw, Config.ftabBase, 0x800, 0x17F8#32, 8),
        (.maplenw, Config.mapLenBase, 0x800, 0x27F8#32, 8),
        (.mapcodew, Config.mapCodeBase, 0x2000, 0x5FFF#32, 1),
        (.bssw, Config.bssBase, 8, 0x10000006#32, 2), (.ibuf, Config.ibufBase, 16, 0x2000000C#32, 4),
        (.obuf, Config.obufBase, 16, 0x3000000F#32, 1)],
      (⟨e.1, e.2.1, e.2.2.1⟩ : RegionRow) ∈ memoryMap small.params ∧ e.2.1 ≤ e.2.2.2.1.toNat ∧
      e.2.2.2.1.toNat < e.2.1 + e.2.2.1 ∧
      ((e.2.2.2.2 = 8 ∧ e.2.2.2.1.toNat % 8 = 0) ∨
        (e.1 ∈ [Region.mapcodew, .bssw, .ibuf, .obuf] ∧ e.2.2.2.2 ∈ [1, 2, 4] ∧
          e.2.2.2.1.toNat % e.2.2.2.2 = 0))) ∧
    (running [.read 0xF8 8]).turns = .read 0xF8 8 :: [] ∧
    8 ∈ [1, 2, 4, 8] ∧ 7 < 8 ∧ small.params.wellFormed = true ∧
    (idle [.write 0x20000008 8 7]).busy = false ∧ (0x20000008 : Addr).toNat % 8 = 0 ∧
    Config.ibufBase ≤ (0x20000008 : Addr).toNat ∧
    (0x20000008 : Addr).toNat < Config.ibufBase + small.params.ibufSize ∧
    (idle [.write 0x20000008 8 7]).turns = .write 0x20000008 8 7 :: [] := by
  refine ⟨?_, rfl, ?_, ?_, ?_, rfl, ?_, ?_, ?_, rfl⟩ <;> decide +kernel

/-- ARG0, and the first and the last byte of IBUF; STATUS. -/
theorem witness_WritesToInputsWhileBusyAreHazards :
    small.params.wellFormed = true ∧ (running [.write 0x28 8 1]).busy = true ∧
    (running [.write 0x28 8 1]).turns = .write 0x28 8 1 :: [] ∧
    1 ∈ [1, 2, 4, 8] ∧ (0x20000000 : Addr).toNat % 1 = 0 ∧
    Config.ibufBase ≤ (0x20000000 : Addr).toNat ∧
    (0x2000000F : Addr).toNat < Config.ibufBase + small.params.ibufSize ∧
    (running [.write 0x20000000 1 1]).turns = .write 0x20000000 1 1 :: [] ∧
    (running [.write 0x10 8 1]).turns = .write 0x10 8 1 :: [] := by
  refine ⟨?_, rfl, rfl, ?_, ?_, ?_, ?_, rfl, rfl⟩ <;> decide +kernel

/-- The first byte of ERRINFO and the last byte of OBUF; the last byte of IBUF. -/
theorem witness_ReadsOfResultsWhileBusyAreDraws :
    (running []).params.wellFormed = true ∧ (running []).busy = true ∧
    (0x18 ≤ 0x18 ∧ 0x18 < 0x20) ∧
    (Config.obufBase ≤ 0x3000000F ∧ 0x3000000F < Config.obufBase + (running []).params.obufSize) ∧
    (0x90, (64 : Word)) ∈ [(0x90, toWord (running []).params.bsCapBits)] ∧
    15 < (running []).params.ibufSize := by
  refine ⟨?_, rfl, ?_, ?_, ?_, ?_⟩ <;> decide +kernel

/-- Both sides of OLEN and of ceil(BITLEN / 8), and the last byte of each window. -/
theorem witness_WindowsShowTheState :
    full.params.wellFormed = true ∧ full.busy = false ∧ 15 < full.params.ibufSize ∧
    0 < full.olen.toNat ∧ ¬ 1 < full.olen.toNat ∧ 15 < full.params.obufSize ∧
    7 < full.params.bsCapBits / 8 ∧ 8 * 0 < full.bits.length ∧ ¬ 8 * 1 < full.bits.length ∧
    31 < 32 ∧ 7 < 8 := by
  refine ⟨?_, rfl, ?_, ?_, ?_, ?_, ?_, ?_, ?_, ?_, ?_⟩ <;> decide +kernel

theorem witness_HardwareResetSetsEveryState :
    (running [.hardReset]).turns = .hardReset :: [] := rfl

theorem witness_CommandsNeedTheirInputState :
    small.treeValid = false ∧ small.mapValid = false := ⟨rfl, rfl⟩

/-- ILEN one above IBUF_SIZE. -/
theorem witness_InputLongerThanTheBufferIsARangeError :
    { smallBuilt with ilen := 17 }.params.ibufSize < (17 : Word).toNat ∧
    { smallBuilt with ilen := 17 }.mapValid = true ∧
    Instr.decompress ∈ [Instr.analyze, .deserialize, .compress, .decompress] := by decide +kernel

/-- ILEN 0, and ILEN = IBUF_SIZE. -/
theorem witness_AnalyzeCountsTheInput :
    (0 : Word).toNat ≤ small.params.ibufSize ∧ (16 : Word).toNat ≤ small.params.ibufSize := by
  decide

/-- "AAAB" and "BAAA" (V-A5). -/
theorem witness_AnalyzeIgnoresTheOrderOfItsInput :
    (withInput small aaab).ilen.toNat ≤ small.params.ibufSize ∧
    ((withInput small aaab).inputBytes 4).Perm
      ((withInput small [0x42, 0x41, 0x41, 0x41]).inputBytes 4) ∧
    (∃ t, exec .analyze (withInput small aaab) = .next t) ∧
    (∃ t, exec .analyze (withInput small [0x42, 0x41, 0x41, 0x41]) = .next t) :=
  ⟨by decide +kernel, by decide +kernel, ⟨_, rfl⟩, ⟨_, rfl⟩⟩

/-- A table with a tree, and one without. -/
theorem witness_TreeIsTheOneTheMergeRuleAllows :
    aaabTable.length = 256 ∧ buildTree aaabTable = some aaabTree ∧
    buildTree (table []) = none := by decide +kernel

/-- The greatest legal total (V-R19): one entry of 2^64 - 1. -/
theorem witness_TreeSumsAndShape :
    aaabTable.length = 256 ∧ buildTree aaabTable = some aaabTree ∧
    tableSum aaabTable ≤ 2 ^ 64 - 1 ∧ (table [(0x41, BitVec.allOnes 64)]).length = 256 ∧
    buildTree (table [(0x41, BitVec.allOnes 64)]) = some (.leaf 0x41 (BitVec.allOnes 64)) ∧
    tableSum (table [(0x41, BitVec.allOnes 64)]) ≤ 2 ^ 64 - 1 := by decide +kernel

/-- An absent tree, a leaf, and an internal root, whose code "1" leads to the right leaf. -/
theorem witness_BuildMapCompletes :
    smallBuilt.treeValid = true ∧ { smallBuilt with tree := none }.tree = none ∧
    { smallBuilt with tree := some (.leaf 0x42 5) }.tree = some (.leaf 0x42 5) ∧
    smallBuilt.tree = some (.internal 4 (.leaf 0x42 1) (.leaf 0x41 3)) ∧
    aaabTree.symbols.Nodup ∧ [true] ≠ ([] : Code) ∧
    aaabTree.follow [true] = some (.leaf 0x41 3) := by decide +kernel

theorem witness_MapIsACompletePrefixCode :
    aaabTable.length = 256 ∧ aaabMap = buildMap (buildTree aaabTable) ∧
    buildTree aaabTable = some (.internal 4 (.leaf 0x42 1) (.leaf 0x41 3)) := by decide +kernel

/-- 64 bits into an empty sequence fill BS_CAP_BITS; 65 is out of range; one more does not fit. -/
theorem witness_BsAppendAppendsThePattern :
    ((64 : Word).toNat ≤ 64 ∧ small.bits.length + (64 : Word).toNat ≤ small.params.bsCapBits) ∧
    64 < (65 : Word).toNat ∧
    ((64 : Word).toNat ≤ 64 ∧
      small.params.bsCapBits < { small with bits := [true] }.bits.length + (64 : Word).toNat) ∧
    0 < { small with bits := [true] }.bits.length ∧ 63 < (64 : Word).toNat := by decide +kernel

/-- The last bit, and the first index past it. -/
theorem witness_BsBitatReadsTheBit :
    (8 : Word).toNat < nineBits.bits.length ∧ nineBits.bits.length ≤ (9 : Word).toNat := by
  decide +kernel

theorem witness_BitStorePacking : 8 < nineBits.bits.length ∧ 1 ≠ nineBits.bits.length / 8 + 1 := by
  decide +kernel

/-- The codes of "AAAB", and a code of 64 bits that fills BS_CAP_BITS exactly. -/
theorem witness_EncodeConcatenatesTheCodes :
    smallBuilt.mapValid = true ∧ smallBuilt.ilen.toNat ≤ smallBuilt.params.ibufSize ∧
    (∀ b ∈ smallBuilt.inputBytes smallBuilt.ilen.toNat, codeGet smallBuilt.map b ≠ []) ∧
    (codesOf smallBuilt.map (smallBuilt.inputBytes smallBuilt.ilen.toNat)).length ≤
      smallBuilt.params.bsCapBits ∧
    (codesOf (codes [(0x41, List.replicate 64 true)]) [0x41]).length = 64 ∧
    smallBuilt.params.bsCapBits = 64 := by decide +kernel

/-- A byte without a code after three good ones, and a code that no longer fits (with a map whose
code of 0x41 has 64 bits). -/
theorem witness_EncodeReportsTheFirstBadByte :
    (withInput smallBuilt [0x41, 0x41, 0x41, 0x43]).mapValid = true ∧
    (withInput smallBuilt [0x41, 0x41, 0x41, 0x43]).ilen.toNat ≤ 16 ∧
    (withInput smallBuilt [0x41, 0x41, 0x41, 0x43]).inputBytes 4 =
      [0x41, 0x41, 0x41] ++ 0x43 :: [] ∧
    (∀ x ∈ ([0x41, 0x41, 0x41] : List Byte), codeGet aaabMap x ≠ []) ∧
    (codesOf aaabMap [0x41, 0x41, 0x41]).length ≤ 64 ∧ codeGet aaabMap 0x43 = [] ∧
    (∀ x ∈ ([0x41] : List Byte), codeGet (codes [(0x41, List.replicate 64 true)]) x ≠ []) ∧
    (codesOf (codes [(0x41, List.replicate 64 true)]) [0x41]).length ≤ 64 ∧
    64 < (codesOf (codes [(0x41, List.replicate 64 true)]) [0x41]).length +
      (codeGet (codes [(0x41, List.replicate 64 true)]) 0x41).length := by decide +kernel

theorem witness_EncodeLengthIsTheWeightedSum :
    smallBuilt.mapValid = true ∧ smallBuilt.ilen.toNat ≤ smallBuilt.params.ibufSize ∧
    smallBuilt.ftab = countTable (smallBuilt.inputBytes smallBuilt.ilen.toNat) ∧
    smallBuilt.map = buildMap (buildTree smallBuilt.ftab) ∧
    (∃ t, exec .encode smallBuilt = .next t ∧ t.err = false) :=
  ⟨rfl, by decide +kernel, by decide +kernel, by decide +kernel, ⟨_, rfl, rfl⟩⟩

theorem witness_DecodeEmitsTheSymbols :
    full.Inv ∧ full.treeValid = true ∧ full.total.toNat ≤ full.params.obufSize ∧
    aaab.length = full.total.toNat ∧ (∀ b ∈ aaab, tableGet full.ftab b ≠ 0) ∧
    full.bits = codesOf (buildMap full.tree) aaab := by
  refine ⟨full_inv, rfl, ?_, ?_, ?_, ?_⟩ <;> decide +kernel

/-- The state with the table and the tree of five bytes 0x42 (V-T3) and these bits. -/
def five (bits : List Bool) : State :=
  { small with
    ftab := table [(0x42, 5)], treeValid := true, tree := some (.leaf 0x42 5), bits := bits }

/-- V-D12, V-D11, V-D13, V-D3 in turn; and an absent tree with and without a bit (V-D5, V-D4). -/
theorem witness_DecodeOfTheDegenerateTrees :
    (five []).treeValid = true ∧ (five []).total.toNat ≤ (five []).params.obufSize ∧
    (five []).tree = some (.leaf 0x42 5) ∧
    (five (List.replicate 4 false)).bits = List.replicate 4 false ++ [] ∧
    4 < (five []).total.toNat ∧
    (five (List.replicate 4 false ++ [true])).bits = List.replicate 4 false ++ true :: [] ∧
    (five (List.replicate 6 false)).bits = List.replicate 5 false ++ [false] ∧
    5 = (five []).total.toNat ∧ (five (List.replicate 5 false)).bits = List.replicate 5 false ++ [] ∧
    { small with treeValid := true, bits := [true] }.tree = none ∧
    { small with treeValid := true, bits := [true] }.bits ≠ [] ∧
    { small with treeValid := true }.bits = [] ∧ small.total.toNat ≤ small.params.obufSize := by
  decide +kernel

/-- The tree of "ABRACADABRA" (V-T4). -/
def abraTree : HuffmanNode :=
  .internal 11 (.leaf 0x41 5) (.internal 6 (.leaf 0x52 2) (.internal 4 (.leaf 0x42 2)
    (.internal 2 (.leaf 0x43 1) (.leaf 0x44 1))))

/-- The state with the table and the tree of "ABRACADABRA" and these bits. -/
def abra (bits : List Bool) : State :=
  { small with
    ftab := table [(0x41, 5), (0x42, 2), (0x43, 1), (0x44, 1), (0x52, 2)], treeValid := true,
    tree := some abraTree, bits := bits }

/-- TOTAL one over OBUF_SIZE, as in V-D17; ten of eleven symbols; eleven symbols and the first bit of
a code (as V-D8); one symbol too many (as V-D9). -/
theorem witness_DecodeWalkErrors :
    ((five []).treeValid = true ∧
      { five [] with ftab := table [(0x42, 17)] }.params.obufSize <
        { five [] with ftab := table [(0x42, 17)] }.total.toNat) ∧
    (abra []).treeValid = true ∧ (abra []).total.toNat ≤ (abra []).params.obufSize ∧
    (abra []).tree = some abraTree ∧ (0x41, [false]) ∈ abraTree.paths [] ∧
    (List.replicate 10 (0x41 : Byte)).length < (abra []).total.toNat ∧
    (abra (List.replicate 10 false)).bits =
      (List.replicate 10 (0x41 : Byte)).flatMap (fun _ => [false]) ∧
    (0x52, [true] ++ [false]) ∈ abraTree.paths [] ∧
    (List.replicate 11 (0x41 : Byte)).length ≤ (abra []).total.toNat ∧
    (abra (List.replicate 11 false ++ [true])).bits =
      (List.replicate 11 (0x41 : Byte)).flatMap (fun _ => [false]) ++ [true] ∧
    (List.replicate 11 (0x41 : Byte)).length = (abra []).total.toNat ∧
    (abra (List.replicate 11 false ++ [true, false])).bits =
      (List.replicate 11 (0x41 : Byte)).flatMap (fun _ => [false]) ++ [true, false] ++ [] := by
  decide +kernel

theorem witness_DecodeUndoesEncode :
    smallBuilt.mapValid = true ∧ smallBuilt.treeValid = true ∧
    smallBuilt.ftab = countTable (smallBuilt.inputBytes smallBuilt.ilen.toNat) ∧
    smallBuilt.tree = buildTree smallBuilt.ftab ∧ smallBuilt.map = buildMap smallBuilt.tree ∧
    smallBuilt.ilen.toNat ≤ smallBuilt.params.obufSize ∧
    (∃ t, exec .encode smallBuilt = .next t ∧ t.err = false) :=
  ⟨rfl, rfl, by decide +kernel, by decide +kernel, by decide +kernel, by decide +kernel,
    ⟨_, rfl, rfl⟩⟩

/-- The last byte of the longest varint; and a reader before it. -/
theorem witness_VarintWriterAndReader :
    9 < (varint (BitVec.allOnes 64)).length ∧
    (Cursor.mk 5 (List.replicate 9 0xFF ++ [0x01, 0x00])).rest =
      varint (toWord (2 ^ 64 - 1)) ++ (Cursor.mk 15 [0x00]).rest ∧ 2 ^ 64 - 1 < 2 ^ 64 := by
  decide +kernel

/-- The entries of "AAAB", the first and the last bit of its payload; its archive has 12 bytes: it
fits in 16 and not in 8. -/
theorem witness_SerializeWritesTheArchive :
    [0x41, 0x42] = ((List.range 256).map (BitVec.ofNat 8)).filter
      (fun v => decide (tableGet full.ftab v ≠ 0)) ∧
    0 < 8 * ((full.bits.length + 7) / 8) ∧ 7 < 8 * ((full.bits.length + 7) / 8) ∧
    (serializeBytes full.ftab full.bits).length ≤ full.params.obufSize ∧
    { full with params := ⟨16, 8, 64⟩ }.params.obufSize <
      (serializeBytes full.ftab full.bits).length := by decide +kernel

/-- The greatest capacity, a full sequence, and the greatest total; and an archive the reader
accepts. -/
theorem witness_CodecRoundTrip :
    (2 ^ 31 ≤ 2 ^ 31) ∧ (64 ≤ 2 ^ 31) ∧ (table [(0x41, BitVec.allOnes 64)]).length = 256 ∧
    tableSum (table [(0x41, BitVec.allOnes 64)]) ≤ 2 ^ 64 - 1 ∧
    (List.replicate 64 true).length ≤ 64 ∧
    deserializeBytes 64 aaabArchive = .ok (aaabTable, aaabBits) :=
  ⟨by decide, by decide, by decide +kernel, by decide +kernel, by decide +kernel, by decide +kernel⟩

theorem witness_DeserializeReadsTheArchive :
    (withInput small aaabArchive).params.wellFormed = true ∧
    (withInput small aaabArchive).ilen.toNat ≤ (withInput small aaabArchive).params.ibufSize ∧
    aaabTable.length = 256 ∧ tableSum aaabTable ≤ 2 ^ 64 - 1 ∧
    aaabBits.length ≤ (withInput small aaabArchive).params.bsCapBits ∧
    (withInput small aaabArchive).inputBytes (withInput small aaabArchive).ilen.toNat =
      serializeBytes aaabTable aaabBits := by decide +kernel

/-- Entries a reader takes, by evaluation. -/
theorem good_entries {es : List (Byte × Word)}
    (h : (decide (es.Pairwise (fun d e => d.1.toNat < e.1.toNat)) && es.all (fun e => e.2 != 0) &&
      decide ((es.map (fun e => e.2.toNat)).sum ≤ 2 ^ 64 - 1)) = true) : GoodEntries es := by
  simp only [Bool.and_eq_true, decide_eq_true_eq, List.all_eq_true, bne_iff_ne] at h
  exact ⟨h.1.1, h.1.2, h.2⟩

/-- `A` as the input of DESERIALIZE in TCFG fits in IBUF and has this fault. -/
def Faulty (A : List Byte) (code : BitVec 4) (info : Nat) : Prop :=
  (withInput State.reset A).ilen.toNat ≤ (withInput State.reset A).params.ibufSize ∧
    ArchiveFault (withInput State.reset A).params.bsCapBits
      ((withInput State.reset A).inputBytes (withInput State.reset A).ilen.toNat) code info

/-- The fault of `A` is the fault of the input that holds `A`. -/
theorem faulty {A : List Byte} {code : BitVec 4} {info : Nat}
    (hA : decide ((withInput State.reset A).ilen.toNat ≤ 4096 ∧
      (withInput State.reset A).inputBytes (withInput State.reset A).ilen.toNat = A) = true)
    (h : ArchiveFault 32768 A code info) : Faulty A code info := by
  obtain ⟨h1, h2⟩ := of_decide_eq_true hA
  exact ⟨h1, by rw [h2]; exact h⟩

/-- Faults in the header and in entryCount: V-R4, V-R6, V-R7, V-R8, V-R15, V-R16. -/
theorem witness_DeserializeReportsTheFirstFault :
    Faulty [0x49, 0x55, 0x46, 0x5A, 0x01, 0x02, 0x41, 0x03, 0x42, 0x01, 0x04, 0xE0] 1 0 ∧
    Faulty [0x48, 0x55, 0x46, 0x5A, 0x02, 0x02, 0x41, 0x03, 0x42, 0x01, 0x04, 0xE0] 1 4 ∧
    Faulty [0x48, 0x55, 0x46, 0x5A] 1 4 ∧
    Faulty [0x48, 0x55, 0x46, 0x5A, 0x01] 1 5 ∧
    Faulty [0x48, 0x55, 0x46, 0x5A, 0x01, 0x82, 0x00, 0x41, 0x03, 0x42, 0x01, 0x04, 0xE0] 1 5 ∧
    Faulty [0x48, 0x55, 0x46, 0x5A, 0x01, 0x81, 0x02] 1 5 :=
  ⟨faulty (by decide +kernel) (.header 0 (by decide) (by decide) (by decide)),
    faulty (by decide +kernel) (.header 4 (by decide) (by decide) (by decide)),
    faulty (by decide +kernel) (.header 4 (by decide) (by decide) (by decide)),
    faulty (by decide +kernel)
      (.entryCountVarint [] 5 (by decide) (.cutShort (by decide) (by decide))),
    faulty (by decide +kernel)
      (.entryCountVarint [0x82, 0x00, 0x41, 0x03, 0x42, 0x01, 0x04, 0xE0] 5 (by decide)
        (.notMinimal [0x82] [0x41, 0x03, 0x42, 0x01, 0x04, 0xE0] rfl (by decide) (by decide)
          (by decide))),
    faulty (by decide +kernel) (.entryCountTooLarge 257 [] (by decide +kernel) (by decide))⟩

/-- Faults in the entries: an archive that ends before its second entry (by hand from R323), V-R12,
V-R13, V-R17, V-R18, V-R14, V-R20. -/
theorem witness_DeserializeReportsTheFirstFault_entries :
    Faulty [0x48, 0x55, 0x46, 0x5A, 0x01, 0x02, 0x41, 0x03] 1 8 ∧
    Faulty [0x48, 0x55, 0x46, 0x5A, 0x01, 0x02, 0x42, 0x01, 0x41, 0x03, 0x04, 0xE0] 1 8 ∧
    Faulty [0x48, 0x55, 0x46, 0x5A, 0x01, 0x02, 0x41, 0x03, 0x41, 0x01, 0x04, 0xE0] 1 8 ∧
    Faulty [0x48, 0x55, 0x46, 0x5A, 0x01, 0x02, 0x41, 0x83, 0x00, 0x42, 0x01, 0x04, 0xE0] 1 7 ∧
    Faulty ([0x48, 0x55, 0x46, 0x5A, 0x01, 0x01, 0x41] ++ List.replicate 9 0xFF ++
      [0x02, 0x00]) 1 7 ∧
    Faulty [0x48, 0x55, 0x46, 0x5A, 0x01, 0x02, 0x41, 0x00, 0x42, 0x01, 0x04, 0xE0] 1 7 ∧
    Faulty ([0x48, 0x55, 0x46, 0x5A, 0x01, 0x02, 0x41] ++ List.replicate 9 0xFF ++
      [0x01, 0x42, 0x01, 0x00]) 1 18 :=
  ⟨faulty (by decide +kernel)
      (.entryMissing 2 [(0x41, 3)] (by decide +kernel)
        (good_entries (by decide +kernel)) (by decide) (by decide)),
    faulty (by decide +kernel)
      (.entryOutOfOrder 2 [(0x42, 1)] 0x41 [0x03, 0x04, 0xE0] (by decide +kernel)
        (good_entries (by decide +kernel)) (by decide) (by decide) (by decide)),
    faulty (by decide +kernel)
      (.entryOutOfOrder 2 [(0x41, 3)] 0x41 [0x01, 0x04, 0xE0] (by decide +kernel)
        (good_entries (by decide +kernel)) (by decide) (by decide) (by decide)),
    faulty (by decide +kernel)
      (.countVarint 2 [] 0x41 [0x83, 0x00, 0x42, 0x01, 0x04, 0xE0] 7 (by decide +kernel)
        (good_entries (by decide +kernel)) (by decide) (by decide) (by simp)
        (.notMinimal [0x83] [0x42, 0x01, 0x04, 0xE0] rfl (by decide) (by decide) (by decide))),
    faulty (by decide +kernel)
      (.countVarint 1 [] 0x41 (List.replicate 9 0xFF ++ [0x02, 0x00]) 7 (by decide +kernel)
        (good_entries (by decide +kernel)) (by decide) (by decide) (by simp)
        (.tooLarge (List.replicate 9 0xFF) [0x00] 0x02 rfl (by decide) (by decide) (by decide))),
    faulty (by decide +kernel)
      (.countZero 2 [] 0x41 [0x42, 0x01, 0x04, 0xE0] (by decide +kernel)
        (good_entries (by decide +kernel)) (by decide) (by decide) (by simp)),
    faulty (by decide +kernel)
      (.countSumTooLarge 2 [(0x41, BitVec.allOnes 64)] 0x42 1 [0x00] (by decide +kernel)
        (good_entries (by decide +kernel)) (by decide) (by decide) (by simp)
        (by decide +kernel))⟩

/-- Faults in totalBits and the payload: an archive that ends before totalBits (by hand from R323),
V-R21, V-R22, V-R9, V-R11, V-R10; and an input without a fault, V-R1. -/
theorem witness_DeserializeReportsTheFirstFault_payload :
    Faulty [0x48, 0x55, 0x46, 0x5A, 0x01, 0x00] 1 6 ∧
    Faulty [0x48, 0x55, 0x46, 0x5A, 0x01, 0x00, 0x81, 0x80, 0x02] 7 32769 ∧
    Faulty [0x48, 0x55, 0x46, 0x5A, 0x01, 0x00, 0x80, 0x80, 0x02] 1 9 ∧
    Faulty [0x48, 0x55, 0x46, 0x5A, 0x01, 0x02, 0x41, 0x03, 0x42, 0x01, 0x04] 1 11 ∧
    Faulty [0x48, 0x55, 0x46, 0x5A, 0x01, 0x02, 0x41, 0x03, 0x42, 0x01, 0x04, 0xE1] 1 11 ∧
    Faulty [0x48, 0x55, 0x46, 0x5A, 0x01, 0x02, 0x41, 0x03, 0x42, 0x01, 0x04, 0xE0, 0x00] 1 12 ∧
    (withInput State.reset aaabArchive).ilen.toNat ≤ State.reset.params.ibufSize :=
  ⟨faulty (by decide +kernel)
      (.totalBitsVarint [] [] 6 (by decide +kernel)
        (good_entries (by decide +kernel)) (.cutShort (by decide) (by decide))),
    faulty (by decide +kernel)
      (.overCapacity [] 32769 [] (by decide +kernel)
        (good_entries (by decide +kernel)) (by decide)),
    faulty (by decide +kernel)
      (.payloadShort [] 32768 [] (by decide +kernel)
        (good_entries (by decide +kernel)) (by decide) (by decide)),
    faulty (by decide +kernel)
      (.payloadShort [(0x41, 3), (0x42, 1)] 4 [] (by decide +kernel)
        (good_entries (by decide +kernel)) (by decide) (by decide)),
    faulty (by decide +kernel)
      (.paddingNotZero [(0x41, 3), (0x42, 1)] 4 [0xE1] 7 (by decide +kernel)
        (good_entries (by decide +kernel)) (by decide) (by decide) (by decide)
        (by decide) (by decide)),
    faulty (by decide +kernel)
      (.trailingBytes [(0x41, 3), (0x42, 1)] 4 [0xE0, 0x00] (by decide +kernel)
        (good_entries (by decide +kernel)) (by decide) (by decide) (by
          intro j h1 h2
          have h3 : ∀ j, j < 8 → 4 ≤ j →
            (([0xE0, 0x00] : List Byte).getD (j / 8) 0).getLsbD (7 - j % 8) = false := by decide
          exact h3 j h2 h1)),
    by decide +kernel⟩

/-- Seventeen different bytes, "00" to "10": the codes of the first two have five bits, the others
four, and BS_CAP_BITS is 64. -/
def tooManyBits : State :=
  withInput { small with params := ⟨24, 24, 64⟩ } ((List.range 17).map (BitVec.ofNat 8))

/-- The map of those bytes. -/
def seventeenMap : List Code :=
  buildMap (buildTree (countTable ((List.range 17).map (BitVec.ofNat 8))))

/-- ILEN one over IBUF_SIZE; seventeen bytes of which the sixteenth does not fit; "AAAB", whose
archive does not fit in 8 bytes; an error; and "AAAB" in room enough. -/
theorem witness_CompressCompletes :
    { small with ilen := 17 }.params.ibufSize < (17 : Word).toNat ∧
    (tooManyBits.ilen.toNat ≤ tooManyBits.params.ibufSize ∧
      tooManyBits.inputBytes tooManyBits.ilen.toNat =
        (List.range 15).map (BitVec.ofNat 8) ++ 15 :: [16] ∧
      seventeenMap =
        buildMap (buildTree (countTable ((List.range 15).map (BitVec.ofNat 8) ++ 15 :: [16]))) ∧
      (codesOf seventeenMap ((List.range 15).map (BitVec.ofNat 8))).length ≤
        tooManyBits.params.bsCapBits ∧
      tooManyBits.params.bsCapBits <
        (codesOf seventeenMap ((List.range 15).map (BitVec.ofNat 8))).length +
          (codeGet seventeenMap 15).length) ∧
    { withInput small aaab with params := ⟨16, 8, 64⟩ }.params.obufSize <
      (serializeBytes aaabTable aaabBits).length ∧
    (∃ t, exec .compress { small with ilen := 17 } = .next t ∧ t.err = true) ∧
    (withInput small aaab).ilen.toNat ≤ small.params.ibufSize ∧
    aaab = (withInput small aaab).inputBytes (withInput small aaab).ilen.toNat ∧
    aaabTable = countTable aaab ∧ aaabMap = buildMap (buildTree aaabTable) ∧
    aaabBits = codesOf aaabMap aaab ∧ aaabBits.length ≤ small.params.bsCapBits ∧
    (serializeBytes aaabTable aaabBits).length ≤ small.params.obufSize := by
  refine ⟨?_, ?_, ?_, ⟨_, rfl, rfl⟩, ?_, ?_, ?_, ?_, ?_, ?_, ?_⟩ <;> decide +kernel

/-- The bytes of V-R6: the version is 2. -/
def wrongVersion : List Byte :=
  [0x48, 0x55, 0x46, 0x5A, 0x02, 0x02, 0x41, 0x03, 0x42, 0x01, 0x04, 0xE0]

/-- The bytes of V-R25: two bits for four symbols. -/
def tooFewBits : List Byte :=
  [0x48, 0x55, 0x46, 0x5A, 0x01, 0x02, 0x41, 0x03, 0x42, 0x01, 0x02, 0xC0]

/-- V-C10, whose error is DESERIALIZE's; V-C11, whose error is DECODE's; V-C2, in turn as a chain of
the three commands and as a whole. -/
theorem witness_DecompressCompletes :
    ((after (withInput small wrongVersion) 0x0A).seq = .idle ∧
      (after (withInput small wrongVersion) 0x0A).err = true ∧
      (after (withInput small wrongVersion) 0x0A).done = false ∧
      (after (withInput small wrongVersion) 0x0A).errCode = 1 ∧
      (after (withInput small wrongVersion) 0x0A).errInfo = 4) ∧
    ((after (withInput small tooFewBits) 0x0A).err = false ∧
      (after (after (withInput small tooFewBits) 0x0A) 0x02).err = false ∧
      (after (after (after (withInput small tooFewBits) 0x0A) 0x02) 0x08).err = true ∧
      (after (after (after (withInput small tooFewBits) 0x0A) 0x02) 0x08).errCode = 1 ∧
      (after (after (after (withInput small tooFewBits) 0x0A) 0x02) 0x08).errInfo = 2) ∧
    ((after (withInput small aaabArchive) 0x0A).done = true ∧
      (after (after (after (withInput small aaabArchive) 0x0A) 0x02) 0x08).done = true) ∧
    (withInput small aaabArchive).params.wellFormed = true ∧
    (withInput small aaabArchive).ilen.toNat ≤ small.params.ibufSize ∧
    aaabTable = countTable aaab ∧ aaab.length ≤ small.params.obufSize ∧
    (codesOf (buildMap (buildTree aaabTable)) aaab).length ≤ small.params.bsCapBits ∧
    (withInput small aaabArchive).inputBytes (withInput small aaabArchive).ilen.toNat =
      serializeBytes aaabTable (codesOf (buildMap (buildTree aaabTable)) aaab) := by decide +kernel

/-- COMPRESS of "AAAB" ends without error, and the copied archive is 12 bytes of input. -/
theorem witness_DecompressUndoesCompress :
    (withInput small aaab).params.wellFormed = true ∧
    (withInput small aaab).ilen.toNat ≤ small.params.ibufSize ∧
    (after (withInput small aaab) 0x10).err = false ∧
    (after (withInput small aaab) 0x10).olen = (withInput small aaabArchive).ilen ∧
    (withInput small aaab).ilen.toNat ≤ (withInput small aaabArchive).params.obufSize ∧
    (∀ k, k < 12 → Mem.get? (withInput small aaabArchive).mem (Config.ibufBase + k) =
      Mem.get? (after (withInput small aaab) 0x10).mem (Config.obufBase + k)) ∧
    1 ≤ (withInput small [0x30]).ilen.toNat ∧
    (withInput small [0x30]).inputBytes 1 = List.replicate 1 0x30 ∧
    (after (withInput small [0x30]) 0x10).err = false := by decide +kernel

end Sys2Proof.Tests
end

section
/-! PROOFS. Host accesses to single control registers as steps of the machine, and what IRQEN, the
constant registers and the reserved offsets and bits do (10_state.md R32, R34, R36, R44, R45). -/

namespace Sys2Proof.Machine

/-! ### One host access as a step -/

theorem step_of_read {s : State} {a : Addr} {n : Nat} {ts : List Turn}
    (ht : s.turns = .read a n :: ts) : step s = hostRead a n { s with turns := ts } := by
  rw [step, ht]

theorem step_of_write {s : State} {a : Addr} {n : Nat} {v : Word} {ts : List Turn}
    (ht : s.turns = .write a n v :: ts) : step s = hostWrite a n v { s with turns := ts } := by
  rw [step, ht]

@[simp] theorem regValue_turns (s : State) (ts : List Turn) (r : Reg) :
    ({ s with turns := ts } : State).regValue r = s.regValue r := by
  cases r <;> rfl

/-- The step of an aligned 8-byte read of a control register that is not drawn. -/
theorem step_read_reg {s : State} {a : Addr} {ts : List Turn} (ht : s.turns = .read a 8 :: ts)
    (h : a.toNat < 0x100) (h8 : a.toNat % 8 = 0)
    (hb : (s.busy && isResultReg (regAt a.toNat)) = false) :
    step s =
      .next { s with turns := ts, rdata := s.regValue (regAt a.toNat), draws := s.draws + 1 } := by
  rw [step_of_read ht, hostRead_reg { s with turns := ts } a h h8 hb, regValue_turns]

/-- The step of an aligned 8-byte write of a control register. -/
theorem step_write_reg {s : State} {a : Addr} {v : Word} {ts : List Turn}
    (ht : s.turns = .write a 8 v :: ts) (h : a.toNat < 0x100) (h8 : a.toNat % 8 = 0) :
    step s = writeReg a (regAt a.toNat) v { s with turns := ts } := by
  rw [step_of_write ht, hostWrite_reg _ a v h h8]

/-! ### Registers a host cannot write -/

/-- Whether a host write of a register does anything (10_state.md R31). -/
def isWritableReg (r : Reg) : Bool := [Reg.cmd, .status, .irqen, .arg0, .arg1, .ilen].contains r

theorem writeReg_of_not_writable {r : Reg} (hr : isWritableReg r = false) (a : Addr) (v : Word)
    (s : State) : writeReg a r v s = .next s := by
  cases r
  case cmd | status | irqen | arg0 | arg1 | ilen => cases hr
  all_goals rfl

/-- A register that is no result and that no host writes: its value is read at all times, and
writes are ignored. -/
theorem step_constant_reg {s : State} {a : Addr} {ts : List Turn} (v : Word)
    (h : a.toNat < 0x100) (h8 : a.toNat % 8 = 0)
    (hresult : isResultReg (regAt a.toNat) = false)
    (hwrite : isWritableReg (regAt a.toNat) = false) :
    (s.turns = .read a 8 :: ts →
      ∃ t, step s = .next t ∧
        t = { s with turns := ts, rdata := s.regValue (regAt a.toNat), draws := t.draws }) ∧
    (s.turns = .write a 8 v :: ts → step s = .next { s with turns := ts }) := by
  constructor
  · intro ht
    exact ⟨_, step_read_reg ht h h8 (by rw [hresult, Bool.and_false]), rfl⟩
  · intro ht
    rw [step_write_reg ht h h8, writeReg_of_not_writable hwrite]

/-- Offsets 0x98 to 0xF8 are reserved (10_state.md R45). -/
theorem regAt_reserved {n : Nat} (h : 0x98 ≤ n) : regAt n = .reserved := by
  unfold regAt
  split
  case h_20 => rfl
  all_goals omega

theorem idWord_eq : idWord = 0x000001015A465548#64 := by decide

/-! ### The bits of IRQEN and STATUS -/

/-- Writing `v` to IRQEN makes its word the two low bits of `v`. -/
theorem irqenWord_writeIrqen (s : State) (v : Word) : (s.writeIrqen v).irqenWord = v &&& 3 := by
  apply BitVec.eq_of_toNat_eq
  have hmod : v.toNat &&& 3 = v.toNat % 4 := Nat.and_two_pow_sub_one_eq_mod v.toNat 2
  simp only [State.irqenWord, writeIrqen_doneIe, writeIrqen_errIe, BitVec.getLsbD,
    Nat.toNat_testBit, BitVec.toNat_and, BitVec.ofNat_eq_ofNat, BitVec.toNat_ofNat,
    Nat.reducePow, Nat.reduceMod, hmod]
  omega

theorem getLsbD_of_field_eq_zero {w : Word} {start len i : Nat}
    (h : w.extractLsb' start len = 0#len) (h1 : start ≤ i) (h2 : i < start + len) :
    w.getLsbD i = false := by
  have hbit := congrArg (fun x => x.getLsbD (i - start)) h
  have hlt : i - start < len := by omega
  simpa [BitVec.getLsbD_extractLsb', hlt, Nat.add_sub_cancel' h1] using hbit

/-- The reserved fields of STATUS, bits 4 to 7, 12 to 15 and 24 to 63, are 0 (10_state.md R34). -/
theorem statusWord_reserved_fields (s : State) :
    s.statusWord.extractLsb' 4 4 = 0#4 ∧ s.statusWord.extractLsb' 12 4 = 0#4 ∧
      s.statusWord.extractLsb' 24 40 = 0#40 := by
  have := s.busy.toNat_le
  have := s.done.toNat_le
  have := s.err.toNat_le
  have := s.ovr.toNat_le
  have := s.errCode.isLt
  have := s.lastOpc.isLt
  refine ⟨?_, ?_, ?_⟩ <;> apply BitVec.eq_of_toNat_eq <;>
    simp only [State.statusWord, BitVec.extractLsb'_toNat, BitVec.toNat_ofNat,
      Nat.shiftRight_eq_div_pow] <;>
    omega

theorem statusWord_and_reserved (s : State) : s.statusWord &&& 0xFFFFFFFFFF00F0F0 = 0#64 := by
  obtain ⟨hlow, hmid, hhigh⟩ := statusWord_reserved_fields s
  have hmask : ∀ i < 64, (0xFFFFFFFFFF00F0F0 : Word).getLsbD i = true →
      4 ≤ i ∧ i < 4 + 4 ∨ 12 ≤ i ∧ i < 12 + 4 ∨ 24 ≤ i := by decide
  apply BitVec.eq_of_getLsbD_eq
  intro i hi
  rw [BitVec.getLsbD_and, BitVec.getLsbD_zero, Bool.and_eq_false_iff]
  by_cases hm : (0xFFFFFFFFFF00F0F0 : Word).getLsbD i = true
  · left
    obtain ⟨h1, h2⟩ | ⟨h1, h2⟩ | h1 := hmask i hi hm
    · exact getLsbD_of_field_eq_zero hlow h1 h2
    · exact getLsbD_of_field_eq_zero hmid h1 h2
    · exact getLsbD_of_field_eq_zero hhigh h1 (by omega)
  · exact .inr (Bool.eq_false_iff.2 hm)

theorem irqenWord_and_reserved (s : State) : s.irqenWord &&& 0xFFFFFFFFFFFFFFFC = 0 := by
  rw [State.irqenWord]
  cases s.doneIe <;> cases s.errIe <;> decide

/-- A write to STATUS looks at bits 1 to 3 only. -/
theorem writeStatus_congr (s : State) {v w : Word} (h1 : v.getLsbD 1 = w.getLsbD 1)
    (h2 : v.getLsbD 2 = w.getLsbD 2) (h3 : v.getLsbD 3 = w.getLsbD 3) :
    s.writeStatus v = s.writeStatus w := by
  rw [State.writeStatus, State.writeStatus, h1, h2, h3]

/-- A write to IRQEN looks at bits 0 and 1 only. -/
theorem writeIrqen_congr (s : State) {v w : Word} (h0 : v.getLsbD 0 = w.getLsbD 0)
    (h1 : v.getLsbD 1 = w.getLsbD 1) : s.writeIrqen v = s.writeIrqen w := by
  rw [State.writeIrqen, State.writeIrqen, h0, h1]

/-! ### The obligations -/

/-- Settles O17: the write sets the two enables, and the word they make is `v &&& 3`. -/
theorem irqenKeepsItsTwoBits : Obligations.IrqenKeepsItsTwoBits := by
  refine ⟨fun s v ts ht => ?_, fun p => rfl⟩
  have hwrite : step s = .next (({ s with turns := .read 0x20 8 :: ts } : State).writeIrqen v) :=
    step_write_reg ht (by decide) (by decide)
  refine ⟨_, _, hwrite, rfl, step_read_reg rfl (by decide) (by decide) (Bool.and_false _), ?_⟩
  exact irqenWord_writeIrqen _ v

/-- Settles O20: the four registers are no results and no host writes them. -/
theorem identityAndCapacitiesAreConstant : Obligations.IdentityAndCapacitiesAreConstant := by
  intro s off val v ts hmem
  simp only [List.mem_cons, Prod.mk.injEq, List.not_mem_nil, or_false] at hmem
  rcases hmem with ⟨rfl, rfl⟩ | ⟨rfl, rfl⟩ | ⟨rfl, rfl⟩ | ⟨rfl, rfl⟩
  · rw [← idWord_eq]
    exact step_constant_reg v (by decide) (by decide) rfl rfl
  all_goals exact step_constant_reg v (by decide) (by decide) rfl rfl

/-- Settles O22: every reserved offset is the register `reserved`, which reads 0, and the reserved
bits of STATUS and IRQEN are neither set in their words nor looked at by a write. -/
theorem reservedOffsetsAndBitsReadZero : Obligations.ReservedOffsetsAndBitsReadZero := by
  refine ⟨fun s a v ts hlo hhi h8 => ?_,
    fun s => ⟨statusWord_and_reserved s, irqenWord_and_reserved s⟩, fun s v => ⟨?_, ?_⟩⟩
  · have hreg : regAt a.toNat = .reserved := regAt_reserved hlo
    have hconst := step_constant_reg (s := s) (ts := ts) v (by omega : a.toNat < 0x100) h8
      (by rw [hreg]; rfl) (by rw [hreg]; rfl)
    rwa [hreg] at hconst
  · exact writeStatus_congr s (by simp) (by simp) (by simp)
  · exact writeIrqen_congr s (by simp) (by simp)

end Sys2Proof.Machine
end

section
/-! PROOFS. The encodings: which words select a command, the bytes of a varint, and the archive
SERIALIZE writes (30_encoding.md R141, R153 to R158, 47_archive_codec.md R320, R321). -/

namespace Sys2Proof.Machine

/-! ### Command words -/

/-- A listed opcode is that of its command. -/
theorem opcode?_eq_some {b : Byte} {i : Instr} : opcode? b = some i ↔ b = i.opcode := by
  constructor
  · intro h
    unfold opcode? at h
    split at h <;> cases h <;> exact BitVec.eq_of_toNat_eq ‹b.toNat = _›
  · rintro rfl
    cases i <;> rfl

theorem decodeWord_eq_ok {w : Word} {i : Instr} :
    decodeWord w = .ok i ↔ rsvField w = 0 ∧ opcField w = i.opcode := by
  rw [← opcode?_eq_some, decodeWord]
  by_cases hrsv : rsvField w = 0
  · rw [if_pos hrsv]
    cases opcode? (opcField w) <;> simp [hrsv]
  · rw [if_neg hrsv]
    exact iff_of_false (fun h => nomatch h) (fun h => hrsv h.1)

/-- Settles O1: the decoder takes the words whose reserved bits are 0 and whose opcode is that of
the command, and each command is in the opcode map once, in the row of its opcode. -/
theorem wordSelectsACommandExactlyWhenListed : Obligations.WordSelectsACommandExactlyWhenListed := by
  intro w i
  rw [decodeWord_eq_ok]
  refine and_congr_right fun _ => ?_
  cases i <;> simp [opcField, Instr.opcode]

/-! ### Varints -/

/-- Settles O52: the formula for the bytes, and that the reader undoes the writer and accepts
nothing else. -/
theorem varintWriterAndReader : Obligations.VarintWriterAndReader := by
  refine ⟨fun v => varintBytes_formula 9 v.toNat (v.isLt.trans (by decide)), fun c c' n => ?_⟩
  constructor
  · exact readVarint_inv
  · rintro ⟨hn, hrest, hpos⟩
    have hread := readVarint_varint (toWord n) c.pos c'.rest
    rwa [← hrest, ← hpos, toNat_toWord hn] at hread

/-! ### SERIALIZE -/

/-- Bit `i` of a bit string in its packing (30_encoding.md R156, R157): bits past the end are 0. -/
theorem packBits_getLsbD {bits : List Bool} {i : Nat} (h : i < 8 * ceilDiv8 bits.length) :
    ((packBits bits).getD (i / 8) 0).getLsbD (7 - i % 8) = bits.getD i false := by
  rw [List.getD_eq_getElem?_getD, packBits_getElem?, if_pos (by omega), Option.getD_some,
    storeByte_getLsbD _ _ _ (Nat.mod_lt _ (by decide)), Nat.div_add_mod]

/-- The size of an archive (30_encoding.md R158). -/
theorem serializeBytes_length (F : List Word) (bits : List Bool) :
    (serializeBytes F bits).length =
      4 + 1 + (varint (toWord (tableEntries F).length)).length +
        ((tableEntries F).map (fun e => 1 + (varint e.2).length)).sum +
        (varint (toWord bits.length)).length + ceilDiv8 bits.length := by
  have hmagic : Config.archiveMagic.length = 4 := rfl
  simp only [serializeBytes, List.length_append, List.length_flatMap, List.length_cons,
    List.length_nil, packBits_length, hmagic, Nat.add_comm 1, Nat.zero_add]

/-- SERIALIZE of an archive that fits in OBUF (47_archive_codec.md R320). -/
theorem exec_serialize_ok {s : State}
    (h : (serializeBytes s.ftab s.bits).length ≤ s.params.obufSize) :
    ∃ t, exec .serialize s = .next t ∧ EndsOk t ∧ KeepsOutside [.obuf] s t ∧
      OutputIs (serializeBytes s.ftab s.bits) t := by
  have hb : bodyOf .serialize s = .ok (s.writeOutput (serializeBytes s.ftab s.bits)) :=
    serializeBody_ok.2 ⟨h, rfl⟩
  exact ⟨_, exec_ok hb, completeOk_endsOk _, completeOk_keeps (writeOutput_keeps _ _),
    writeOutput_outputIs _ _⟩

/-- SERIALIZE of an archive that does not fit in OBUF (47_archive_codec.md R320). -/
theorem exec_serialize_capacity {s : State}
    (h : s.params.obufSize < (serializeBytes s.ftab s.bits).length) :
    ∃ t, exec .serialize s = .next t ∧ t.olen = 0 ∧
      EndsWith 7 (toWord (serializeBytes s.ftab s.bits).length) t := by
  have hb : bodyOf .serialize s =
      raise .capacityError (serializeBytes s.ftab s.bits).length := if_pos h
  exact ⟨_, exec_raise hb, (completeError_cleared _ _ _).obuf (by decide),
    completeError_endsWith _ ⟨.capacityError, _⟩ _⟩

/-- Settles O53: the entries are the byte values with a positive count, the payload is the packing
of BITSEQ, and the body of SERIALIZE branches on the size alone. -/
theorem serializeWritesTheArchive : Obligations.SerializeWritesTheArchive := by
  intro s
  refine ⟨?_, serializeBytes_length _ _, ?_, by decide +kernel, exec_serialize_ok,
    exec_serialize_capacity⟩
  · rintro E rfl
    refine ⟨packBits s.bits, ?_, packBits_length _, fun i hi => packBits_getLsbD ?_⟩
    · rw [serializeBytes, tableEntries_eq, List.length_map, List.flatMap_map]
      rfl
    · rwa [packBits_length] at hi
  · have hcount := varint_length_pos (toWord (tableEntries s.ftab).length)
    have hbits := varint_length_pos (toWord s.bits.length)
    rw [serializeBytes_length]
    omega

end Sys2Proof.Machine
end

section
/-! PROOFS. The frequency analyzer: what ANALYZE leaves in FTAB, TOTAL and ENTRIES, and that the order
of its input does not matter (41_frequency_analyzer.md R200 to R202). -/

namespace Sys2Proof.Machine

/-! ### The table of a byte string -/

@[simp] theorem countTable_length (bs : List Byte) : (countTable bs).length = 256 :=
  tabulate_length _

/-- Only the empty input has the empty table (41_frequency_analyzer.md R201). -/
theorem tableEntries_countTable_eq_nil {bs : List Byte} (h : bs.length < 2 ^ 64) :
    tableEntries (countTable bs) = [] ↔ bs = [] := by
  have hentries : tableEntries (countTable bs) = [] ↔ ∀ v, ¬ tableGet (countTable bs) v ≠ 0 := by
    simp [tableEntries_eq, List.filter_eq_nil_iff, mem_allBytes]
  rw [hentries, List.eq_nil_iff_forall_not_mem]
  exact forall_congr' fun v => not_congr (countTable_ne_zero h v)

theorem countTable_perm {bs bs' : List Byte} (h : bs.Perm bs') : countTable bs = countTable bs' :=
  congrArg tabulate (funext fun v => congrArg toWord (h.count_eq v))

/-- The number of input bytes equal to `v` is the number of indices that hold it. -/
theorem count_inputBytes (s : State) (n : Nat) (v : Byte) :
    (s.inputBytes n).count v =
      ((List.range n).filter (fun k => decide (s.memRead (Config.ibufBase + k) = v))).length := by
  rw [State.inputBytes, List.count, List.countP_map, List.countP_eq_length_filter]
  rfl

/-! ### TOTAL and ENTRIES of a counted table -/

theorem total_of_countTable {t : State} {bs : List Byte} (h : bs.length < 2 ^ 64)
    (ht : t.ftab = countTable bs) : t.total = toWord bs.length := by
  rw [State.total, ht, countTable, tableSum_counts h]

theorem entries_eq_zero {t : State} : t.entries = 0 ↔ tableEntries t.ftab = [] := by
  have hle := tableEntries_length_le t.ftab
  rw [State.entries, ← BitVec.toNat_inj, toNat_toWord (by omega), ← List.length_eq_zero_iff]
  rfl

/-! ### ANALYZE -/

/-- The completion of ANALYZE on input that fits in IBUF (41_frequency_analyzer.md R200). -/
theorem exec_analyze_ok {s : State} (h : s.ilen.toNat ≤ s.params.ibufSize) :
    exec .analyze s =
      .next (completeOk (s.writeTable (countTable (s.inputBytes s.ilen.toNat)))).advanceDraws :=
  exec_ok (analyzeBody_ok.2 ⟨h, rfl⟩)

/-- FTAB after ANALYZE is the table of the input (41_frequency_analyzer.md R200). -/
theorem exec_analyze_ftab {s t : State} (h : s.ilen.toNat ≤ s.params.ibufSize)
    (ht : exec .analyze s = .next t) : t.ftab = countTable (s.inputBytes s.ilen.toNat) := by
  rw [exec_analyze_ok h] at ht
  cases ht
  rfl

/-- Settles O34: the state ANALYZE leaves has the table of its input, whose counts are those of the
input bytes, and the invalidation is that of every write of FTAB. -/
theorem analyzeCountsTheInput : Obligations.AnalyzeCountsTheInput := by
  intro s hfit
  have hlt := inputBytes_lt s
  have hlen := inputBytes_length s s.ilen.toNat
  refine ⟨_, exec_analyze_ok hfit, completeOk_endsOk _, completeOk_keeps (writeTable_keeps s _),
    countTable_length _, fun v => ?counts, ?sum, ?total, tableEntries_length_le _, ?empty,
    rfl, rfl, rfl, rfl, rfl, ?maxLen⟩
  case counts => exact (countTable_get hlt v).trans (count_inputBytes s _ v)
  case sum => exact (tableSum_counts hlt).trans hlen
  case total => rw [total_of_countTable hlt rfl, hlen, toWord_toNat]
  case empty =>
    calc _ ↔ s.inputBytes s.ilen.toNat = [] :=
          entries_eq_zero.trans (tableEntries_countTable_eq_nil hlt)
      _ ↔ s.ilen.toNat = 0 := by rw [← List.length_eq_zero_iff, hlen]
      _ ↔ s.ilen = 0 := BitVec.toNat_inj (y := 0#64)
  case maxLen => exact congrArg toWord longestCode_emptyMap

/-- Settles O35: both tables are those of the inputs, and a count ignores the order. -/
theorem analyzeIgnoresTheOrderOfItsInput : Obligations.AnalyzeIgnoresTheOrderOfItsInput := by
  intro s s' t t' hfit hfit' hperm ht ht'
  rw [exec_analyze_ftab hfit ht, exec_analyze_ftab hfit' ht', countTable_perm hperm]

end Sys2Proof.Machine
end

section
/-! PROOFS. The tree builder: the tree of a table is the one the merge rule allows, its sums are
exact, and its shape (42_tree_builder.md R221 to R226). -/

namespace Sys2Proof.Machine

/-! ### The seeds of the merge -/

theorem tableEntries_eq_nil {F : List Word} : tableEntries F = [] ↔ ∀ v, tableGet F v = 0 := by
  simp [tableEntries_eq, List.filter_eq_nil_iff, mem_allBytes]

/-- The merge starts with one leaf per byte value with a positive count (42_tree_builder.md R221). -/
theorem seedQueue_eq (F : List Word) :
    seedQueue F = (allBytes.filter (fun v => decide (tableGet F v ≠ 0))).map
      (fun v => HuffmanNode.leaf v (tableGet F v)) := by
  rw [seedQueue, tableEntries_eq, List.map_map]
  rfl

/-- Settles O37: the merge loop follows the merge rule, which allows one tree only
(`buildTree_iff`), and the two ways to write the seeds agree. -/
theorem treeIsTheOneTheMergeRuleAllows : Obligations.TreeIsTheOneTheMergeRuleAllows := by
  intro F _
  refine ⟨buildTree_none.trans tableEntries_eq_nil, fun t => ?_⟩
  rw [← seedQueue_eq]
  exact buildTree_iff

/-! ### Sums and shape -/

/-- The tree of a table has one leaf per entry (42_tree_builder.md R221, R226). -/
theorem buildTree_leaves_length {F : List Word} {t : HuffmanNode} (h : buildTree F = some t) :
    t.leaves.length = (tableEntries F).length :=
  (buildTree_leaves h).length_eq.symm

/-- Settles O38: the sums are those of `buildTree_sums`; the leaves are the entries, at most 256 of
them, and every tree has fewer levels below its root than leaves and 2n - 1 nodes. -/
theorem treeSumsAndShape : Obligations.TreeSumsAndShape := by
  intro F t hlen ht
  have hleaves := buildTree_leaves_length ht
  have hentries : t.leaves.length ≤ 256 := hleaves ▸ tableEntries_length_le F
  have hnodes := nodes_eq t
  have hdepth := depth_lt_leaves t
  refine ⟨fun hsum => buildTree_sums hlen (by omega) ht, hleaves, ?nodes, ?depth, ?leaves, ?cap⟩
  case nodes | depth | leaves => omega
  case cap =>
    rw [Config.nodeCap]
    omega

end Sys2Proof.Machine
end

section
/-! PROOFS. The encoding map: BUILD_MAP leaves the map of TREE, whose codes are the paths to the
leaves, and the map of a table's tree is a complete prefix code (43_encoding_map.md R240 to
R244). -/

namespace Sys2Proof.Machine

/-! ### Codes and assignments -/

/-- The code of a byte value is the path assigned to it (43_encoding_map.md R241). -/
theorem buildMap_code_iff {t : HuffmanNode} (hnd : t.symbols.Nodup) {v : Byte} {c : Code}
    (hc : c ≠ []) : codeGet (buildMap (some t)) v = c ↔ (v, c) ∈ mapAssignments (some t) := by
  constructor
  · rintro rfl
    obtain ⟨d, hd⟩ := mem_assignments_of_symbol ((code_ne_nil_iff hnd v).1 hc)
    rwa [buildMap_code hnd hd]
  · exact buildMap_code hnd

theorem buildMap_code_mem {t : HuffmanNode} (hnd : t.symbols.Nodup) {v : Byte}
    (hv : codeGet (buildMap (some t)) v ≠ []) :
    (v, codeGet (buildMap (some t)) v) ∈ mapAssignments (some t) :=
  (buildMap_code_iff hnd hv).1 rfl

/-! ### The longest code -/

/-- MAXLEN bounds the code of each byte value, and is the least such bound (10_state.md R43). -/
theorem longestCode_buildMap_le {t : Option HuffmanNode} {k : Nat} :
    longestCode (buildMap t) ≤ k ↔ ∀ v, (codeGet (buildMap t) v).length ≤ k := by
  simp only [buildMap, codeGet_tabulate, longestCode_tabulate_le]

theorem assignment_length_le {t : HuffmanNode} {v : Byte} {c : Code}
    (h : (v, c) ∈ mapAssignments (some t)) : c.length ≤ max 1 t.depth := by
  cases t with
  | leaf u f =>
    obtain ⟨-, rfl⟩ := Prod.mk.inj (List.mem_singleton.1 h)
    exact le_max_left 1 _
  | internal f l r => exact (path_length_le_depth _ v c h).trans (le_max_right 1 _)

/-- No code is longer than the tree is deep, but for the one bit a singleton root is given. -/
theorem longestCode_le_depth {t : HuffmanNode} (hnd : t.symbols.Nodup) :
    longestCode (buildMap (some t)) ≤ max 1 t.depth := by
  rw [longestCode_buildMap_le]
  intro v
  by_cases hv : codeGet (buildMap (some t)) v = []
  · simp [hv]
  · exact assignment_length_le (buildMap_code_mem hnd hv)

/-- MAXLEN of a table's map is at most max(1, ENTRIES - 1) (43_encoding_map.md R244(d)). -/
theorem longestCode_table_le (F : List Word) :
    longestCode (buildMap (buildTree F)) ≤ max 1 ((tableEntries F).length - 1) := by
  cases h : buildTree F with
  | none => simp [buildMap_none]
  | some t =>
    have hlong := longestCode_le_depth (buildTree_symbols_nodup h)
    have hdepth := depth_lt_leaves t
    have hleaves := buildTree_leaves_length h
    omega

/-! ### Prefix freedom and the Kraft sum -/

/-- The codes of an internal root are paths to different leaves (43_encoding_map.md R244(b)). -/
theorem buildMap_prefixFree {f : Word} {l r : HuffmanNode}
    (hnd : (HuffmanNode.internal f l r).symbols.Nodup) :
    PrefixFree (buildMap (some (.internal f l r))) := by
  intro u v huv hu hv hprefix
  have hpu := buildMap_code_mem hnd hu
  have hpv := buildMap_code_mem hnd hv
  have hcode := paths_prefix_free _ _ _ _ _ hpu hpv hprefix
  rw [← hcode] at hpv
  exact huv (path_symbol_unique _ _ _ _ hpu hpv)

/-- The Kraft sum over the coded byte values is that over the paths (43_encoding_map.md R244(c)). -/
theorem buildMap_kraft {f : Word} {l r : HuffmanNode} {D : Nat}
    (hnd : (HuffmanNode.internal f l r).symbols.Nodup)
    (hD : (HuffmanNode.internal f l r).depth ≤ D) :
    ((allBytes.filter
        (fun v => decide (codeGet (buildMap (some (.internal f l r))) v ≠ []))).map
      (fun v => 2 ^ (D - (codeGet (buildMap (some (.internal f l r))) v).length))).sum = 2 ^ D := by
  simp only [code_ne_nil_iff hnd]
  rw [sum_filter_mem _ hnd, ← kraft_paths _ D hD, ← paths_symbols _ [], List.map_map]
  refine congrArg List.sum (List.map_congr_left fun ⟨v, c⟩ hmem => ?_)
  rw [Function.comp_apply, buildMap_code hnd hmem]

/-! ### A singleton root -/

theorem symbols_leaf_nodup (v : Byte) (f : Word) : (HuffmanNode.leaf v f).symbols.Nodup :=
  List.nodup_singleton v

/-- A root that is a leaf gives its byte value the code "0" (43_encoding_map.md R242). -/
theorem codeGet_buildMap_leaf (v : Byte) (f : Word) :
    codeGet (buildMap (some (.leaf v f))) v = [false] :=
  buildMap_code (symbols_leaf_nodup v f) List.mem_cons_self

theorem longestCode_buildMap_leaf (v : Byte) (f : Word) :
    longestCode (buildMap (some (.leaf v f))) = 1 := by
  have hcode := longestCode_buildMap_le.1 (le_refl (longestCode (buildMap (some (.leaf v f))))) v
  rw [codeGet_buildMap_leaf] at hcode
  exact le_antisymm (longestCode_le_depth (symbols_leaf_nodup v f)) hcode

/-! ### The obligations -/

/-- Settles O39: the body of BUILD_MAP writes the map of TREE; its codes are the assigned paths
(`buildMap_code_iff`), and the paths are the bit strings that lead to leaves. -/
theorem buildMapCompletes : Obligations.BuildMapCompletes := by
  intro s hvalid
  refine ⟨_, exec_ok (i := .buildMap) (buildMapBody_ok.2 ⟨hvalid, rfl⟩), completeOk_endsOk _,
    completeOk_keeps (writeMap_keeps s _), rfl, rfl, tabulate_length _, ?absent, ?leaf, ?internal⟩
  all_goals simp only [advanceDraws_map, completeOk_map, writeMap_map]
  case absent =>
    intro ht v
    rw [ht, buildMap_none, codeGet_emptyMap]
  case leaf =>
    intro v f ht
    rw [ht]
    exact ⟨codeGet_buildMap_leaf v f,
      fun u hu => buildMap_no_code (mt List.mem_singleton.1 hu),
      congrArg toWord (longestCode_buildMap_leaf v f)⟩
  case internal =>
    intro f l r ht hnd v c hc
    rw [ht]
    have hcode := buildMap_code_iff hnd (v := v) hc
    exact ⟨hcode.trans (mem_paths_iff_follow _ v c), hcode⟩

/-- Settles O40: the coded byte values are those of the entries; the codes are the paths of a tree
of at most 256 leaves, which are prefix free and whose Kraft sum is 1. -/
theorem mapIsACompletePrefixCode : Obligations.MapIsACompletePrefixCode := by
  rintro F _ - rfl
  refine ⟨fun v => ?coded, fun f l r ht => ?complete, longestCode_table_le F⟩
  case coded =>
    rw [List.length_pos_iff, code_iff_count, Nat.pos_iff_ne_zero]
    exact not_congr (BitVec.toNat_inj (y := 0#64)).symm
  case complete =>
    have hnd := buildTree_symbols_nodup ht
    have hdepth := depth_lt_leaves (.internal f l r)
    have hleaves := buildTree_leaves_length ht
    have hentries := tableEntries_length_le F
    rw [ht]
    exact ⟨buildMap_prefixFree hnd, buildMap_kraft hnd (by omega)⟩

end Sys2Proof.Machine
end

section
/-! PROOFS. The bit sequence: how BITSEQ is packed into storage bytes, and what BS_CLEAR, BS_APPEND
and BS_BITAT leave in it (44_bit_sequence.md R260 to R266). -/

namespace Sys2Proof.Machine

/-! ### Storage bytes -/

/-- Bit `i` of BITSEQ in the storage (44_bit_sequence.md R260, R261); bits past the end are 0. -/
theorem storeByte_getLsbD_bitAt (bits : List Bool) (i : Nat) :
    (storeByte bits (i / 8)).getLsbD (7 - i % 8) = bitAt bits i := by
  rw [storeByte_getLsbD _ _ _ (Nat.mod_lt i (by decide)), Nat.div_add_mod, bitAt]

/-- A storage byte that starts at or past the end of the sequence is 0 (30_encoding.md R160). -/
theorem storeByte_past_end {bits : List Bool} {k : Nat} (h : bits.length ≤ 8 * k) :
    storeByte bits k = 0 := by
  rw [storeByte, List.drop_eq_nil_of_le h]
  rfl

theorem getD_append_singleton (bits : List Bool) (b : Bool) (i : Nat) :
    (bits ++ [b]).getD i false = (bits.getD i false || (b && decide (i = bits.length))) := by
  obtain hi | rfl | hi := Nat.lt_trichotomy i bits.length
  · rw [List.getD_append _ _ _ _ hi]
    simp [hi.ne]
  · simp
  · rw [List.getD_eq_default _ _ (by simpa using hi), List.getD_eq_default _ _ hi.le]
    simp [hi.ne']

/-- Bit `j`, most significant first, of the byte whose bit `r` in that order is `b`, every
other bit 0. -/
theorem oneBit_getLsbD (b : Bool) {r j : Nat} (hr : r < 8) (hj : j < 8) :
    (if b then 1#8 <<< (7 - r) else 0).getLsbD (7 - j) = (b && decide (j = r)) := by
  cases b with
  | false => simp
  | true =>
    rw [if_pos rfl, ← BitVec.twoPow_eq, BitVec.getLsbD_twoPow]
    have hiff : 7 - r = 7 - j ↔ j = r := by omega
    have hlt : 7 - r < 8 := by omega
    simp [hiff, hlt]

/-- Appending a bit sets its own bit of its storage byte and no other: the bits past the end were 0
(44_bit_sequence.md R261). -/
theorem storeByte_append_own (bits : List Bool) (b : Bool) :
    storeByte (bits ++ [b]) (bits.length / 8) =
      storeByte bits (bits.length / 8) ||| (if b then 1#8 <<< (7 - bits.length % 8) else 0) := by
  refine byte_ext fun j hj => ?_
  have hown : 8 * (bits.length / 8) + j = bits.length ↔ j = bits.length % 8 := by omega
  rw [BitVec.getLsbD_or, storeByte_getLsbD _ _ _ hj, storeByte_getLsbD _ _ _ hj,
    oneBit_getLsbD b (Nat.mod_lt _ (by decide)) hj, getD_append_singleton]
  simp only [hown]

/-- Appending a bit changes no storage byte but its own (44_bit_sequence.md R261). -/
theorem storeByte_append_other {bits : List Bool} (b : Bool) {k : Nat} (hk : k ≠ bits.length / 8) :
    storeByte (bits ++ [b]) k = storeByte bits k := by
  refine byte_ext fun j hj => ?_
  have hother : 8 * k + j ≠ bits.length := by omega
  rw [storeByte_getLsbD _ _ _ hj, storeByte_getLsbD _ _ _ hj, getD_append_singleton,
    decide_eq_false hother, Bool.and_false, Bool.or_false]

/-- Settles O44: a bit is read where it is stored; the byte of an appended bit is the byte before
with that bit set, which is 0 when the bit is the first of its byte. -/
theorem bitStorePacking : Obligations.BitStorePacking := by
  refine ⟨fun bits i _ => storeByte_getLsbD_bitAt bits i,
    fun bits b => ⟨?own, fun k hk => storeByte_append_other b hk⟩⟩
  rw [storeByte_append_own]
  by_cases hnew : bits.length % 8 = 0
  · rw [if_pos hnew, storeByte_past_end (by omega), hnew]
    exact BitVec.zero_or
  · rw [if_neg hnew]

/-! ### BS_CLEAR -/

/-- Settles O41: the body of BS_CLEAR writes the empty sequence and never raises. -/
theorem bsClearEmptiesTheSequence : Obligations.BsClearEmptiesTheSequence := fun s =>
  ⟨_, exec_ok (i := .bsClear) rfl, completeOk_endsOk _, completeOk_keeps (writeBits_keeps s []),
    rfl, rfl⟩

/-! ### BS_APPEND -/

@[simp] theorem patternBits_length (n : Nat) (w : Word) : (patternBits n w).length = n := by
  simp [patternBits]

/-- Bit `j` of a pattern is bit n-1-j of its word (44_bit_sequence.md R265). -/
theorem patternBits_getD {n j : Nat} (w : Word) (hj : j < n) :
    (patternBits n w).getD j false = w.getLsbD (n - 1 - j) := by
  simp [patternBits, hj]

theorem bsAppendBody_range {s : State} (h : 64 < s.arg0.toNat) :
    bsAppendBody s = raise .rangeError s.arg0.toNat := if_pos h

theorem bsAppendBody_capacity {s : State} (h : s.arg0.toNat ≤ 64)
    (hcap : s.params.bsCapBits < s.bits.length + s.arg0.toNat) :
    bsAppendBody s = raise .capacityError (s.bits.length + s.arg0.toNat) :=
  (if_neg (Nat.not_lt.2 h)).trans (if_pos hcap)

/-- Every error of BS_APPEND clears BITSEQ (44_bit_sequence.md R265). -/
theorem exec_bsAppend_raise {s : State} {k : ErrKind} {n : Nat} (h : bsAppendBody s = raise k n) :
    ∃ t, exec .bsAppend s = .next t ∧ EndsWith (errCodeOf k) (toWord n) t ∧ t.bits = [] :=
  ⟨_, exec_raise (i := .bsAppend) h, completeError_endsWith _ ⟨k, _⟩ _,
    (completeError_cleared _ _ _).bitseq List.mem_cons_self⟩

/-- Settles O42: the body appends the pattern when both checks pass, and otherwise raises the error
of the first check that fails. -/
theorem bsAppendAppendsThePattern : Obligations.BsAppendAppendsThePattern := by
  refine fun s => ⟨fun h64 hcap => ?appended, fun h64 => ?tooLong,
    fun h64 hcap => exec_bsAppend_raise (bsAppendBody_capacity h64 hcap)⟩
  case appended =>
    refine ⟨_, exec_ok (i := .bsAppend) (bsAppendBody_ok.2 ⟨h64, hcap, rfl⟩), completeOk_endsOk _,
      completeOk_keeps (writeBits_keeps s _), ?length, fun i hi => ?old, fun j hj => ?new⟩
    all_goals simp only [advanceDraws_bits, completeOk_bits, writeBits_bits]
    case length => rw [List.length_append, patternBits_length]
    case old => exact List.getD_append _ _ _ _ hi
    case new =>
      rw [List.getD_append_right _ _ _ _ (Nat.le_add_right _ _), Nat.add_sub_cancel_left,
        patternBits_getD _ hj]
  case tooLong =>
    have herr := exec_bsAppend_raise (bsAppendBody_range h64)
    rwa [toWord_toNat] at herr

/-! ### BS_BITAT -/

theorem bsBitatBody_range {s : State} (h : s.bits.length ≤ s.arg0.toNat) :
    bsBitatBody s = raise .rangeError s.arg0.toNat := if_pos h

/-- A bit is put into RESULT zero-extended (44_bit_sequence.md R266). -/
theorem toWord_toNat_bool (b : Bool) : toWord b.toNat = if b then 1 else 0 := by
  cases b <;> rfl

/-- Settles O43: the body writes the bit into RESULT when the index is in range and raises
otherwise, which clears RESULT and nothing else. -/
theorem bsBitatReadsTheBit : Obligations.BsBitatReadsTheBit := by
  refine fun s => ⟨fun hi => ?inRange, fun hi => ?outOfRange⟩
  case inRange =>
    have hb : bodyOf .bsBitat s = .ok _ := bsBitatBody_ok.2 ⟨hi, rfl⟩
    exact ⟨_, exec_ok hb, completeOk_endsOk _, completeOk_keeps (body_keeps (by decide) hb),
      toWord_toNat_bool _⟩
  case outOfRange =>
    have hb : bodyOf .bsBitat s = raise .rangeError s.arg0.toNat := bsBitatBody_range hi
    refine ⟨_, exec_raise hb, ?_, (completeError_cleared _ _ _).result List.mem_cons_self,
      completeError_keeps _ _ _⟩
    rw [toWord_toNat]
    exact completeError_endsWith _ ⟨.rangeError, s.arg0⟩ _

end Sys2Proof.Machine
end

section
/-! PROOFS. The encoder: with the map of its own input ENCODE meets no missing code, and BITLEN is the
weighted sum of the code lengths (45_encoder.md R281). -/

namespace Sys2Proof.Machine

/-- With a valid map and a code for every byte of an input that fits in IBUF, the one error left to
ENCODE is CAPACITY_ERROR (45_encoder.md R280). -/
theorem encodeBody_error_kind {s : State} {e : CmdError} (hvalid : s.mapValid = true)
    (hfit : s.ilen.toNat ≤ s.params.ibufSize)
    (hcodes : ∀ b ∈ s.inputBytes s.ilen.toNat, codeGet s.map b ≠ [])
    (h : encodeBody s = .error e) : e.kind = .capacityError := by
  rw [encodeBody, if_pos hvalid, input_ok.2 ⟨hfit, rfl⟩] at h
  cases hloop : encodeBytes s.map s.params.bsCapBits 0 0 (s.inputBytes s.ilen.toNat) with
  | ok bits => simp [hloop] at h
  | error e' =>
    have he : e' = e := by simpa [hloop] using h
    exact he ▸ encodeBytes_error_kind _ 0 0 hcodes hloop

/-- Each byte value contributes its code as often as it is counted (45_encoder.md R281). -/
theorem codesOf_length_countTable {bs : List Byte} (h : bs.length < 2 ^ 64) (M : List Code) :
    (codesOf M bs).length =
      (allBytes.map fun v => (tableGet (countTable bs) v).toNat * (codeGet M v).length).sum := by
  simp only [countTable_get h]
  rw [codesOf_length, sum_count_mul (fun v => (codeGet M v).length)]

/-- Settles O47: every byte of the input has a code, as its count is positive, so the body either
writes the codes of the input or raises CAPACITY_ERROR. -/
theorem encodeLengthIsTheWeightedSum : Obligations.EncodeLengthIsTheWeightedSum := by
  intro s t hvalid hfit hftab hmap ht
  have hlt := inputBytes_lt s
  have hcodes : ∀ b ∈ s.inputBytes s.ilen.toNat, codeGet s.map b ≠ [] := by
    rw [hmap, hftab]
    exact countTable_codes hlt
  obtain ⟨u, hbody, rfl⟩ | ⟨e, hbody, rfl⟩ := complete_next (r := encodeBody s) ht
  case inl =>
    obtain ⟨-, -, -, -, rfl⟩ := encodeBody_ok.1 hbody
    refine ⟨by simp, fun _ => ?_⟩
    simp only [advanceDraws_bits, completeOk_bits, writeBits_bits, hftab]
    exact codesOf_length_countTable hlt s.map
  case inr =>
    have hkind := encodeBody_error_kind hvalid hfit hcodes hbody
    have hend := completeError_endsWith (dest .encode) e s
    refine ⟨?_, fun hok => absurd (hok.symm.trans hend.err) Bool.false_ne_true⟩
    rw [hend.errCode, hkind]
    decide

end Sys2Proof.Machine
end

section
/-! PROOFS. The decoder: DECODE with a root that is a leaf and with an absent tree, and that DECODE
undoes ENCODE (46_decoder.md R302 to R304). -/

namespace Sys2Proof.Machine

/-! ### A root that is a leaf -/

/-- The bit after fewer than T zeros is missing or 1 (46_decoder.md R302). -/
theorem decodeSingleton_bad_bit (v : Byte) {k T : Nat} {rest : List Bool} (hk : k < T)
    (hrest : rest = [] ∨ ∃ rest', rest = true :: rest') :
    decodeSingleton v 0 T (List.replicate k false ++ rest) = raise .decodingError k := by
  obtain ⟨m, rfl⟩ : ∃ m, T = k + (m + 1) := ⟨T - k - 1, by omega⟩
  rw [decodeSingleton_run v k 0 _ rest (by omega), Nat.zero_add, Nat.add_sub_cancel_left]
  obtain rfl | ⟨rest', rfl⟩ := hrest
  · rfl
  · rfl

/-- Bits are left after T zeros (46_decoder.md R302). -/
theorem decodeSingleton_extra_bits (v : Byte) (T : Nat) {rest : List Bool} (hrest : rest ≠ []) :
    decodeSingleton v 0 T (List.replicate T false ++ rest) = raise .formatError T := by
  rw [decodeSingleton_run v T 0 T rest le_rfl, Nat.zero_add, Nat.sub_self, decodeSingleton,
    if_neg hrest]
  rfl

/-- Settles O49: a singleton's walk runs over the leading zeros, and the bit after them decides how
it ends; with an absent tree it only matters whether there is a bit at all. -/
theorem decodeOfTheDegenerateTrees : Obligations.DecodeOfTheDegenerateTrees := by
  intro s hvalid hfit
  refine ⟨fun v f k rest htree hbits => ?leaf, fun htree hbits => ?extraBit,
    fun htree hbits => ?empty⟩
  case leaf =>
    have hdecode : decodeBits s.tree s.total.toNat s.bits =
        decodeSingleton v 0 s.total.toNat (List.replicate k false ++ rest) := by
      rw [htree, hbits, decodeBits]
    refine ⟨fun hk hrest => ?badBit, fun hk hrest => ?tooLong, fun hk hrest => ?zeros⟩
    case badBit =>
      exact exec_decode_raise hvalid hfit (hdecode.trans (decodeSingleton_bad_bit v hk hrest))
    case tooLong =>
      subst hk
      have hend := exec_decode_raise hvalid hfit
        (hdecode.trans (decodeSingleton_extra_bits v _ hrest))
      rwa [toWord_toNat] at hend
    case zeros =>
      have hall : decodeBits s.tree s.total.toNat s.bits = .ok (List.replicate k v) := by
        rw [hdecode, hrest, ← hk, List.append_nil, decodeSingleton_zeros]
      obtain ⟨t, ht, hok, -, hout⟩ := exec_decode_ok hvalid hfit hall
      exact ⟨t, ht, hok, hout⟩
  case extraBit =>
    have hdecode : decodeBits s.tree s.total.toNat s.bits = raise .formatError 0 := by
      rw [htree, decodeBits, decodeEmpty, if_neg hbits]
    exact exec_decode_raise hvalid hfit hdecode
  case empty =>
    have hdecode : decodeBits s.tree s.total.toNat s.bits = .ok [] := by
      rw [htree, decodeBits, decodeEmpty, if_pos hbits]
    obtain ⟨t, ht, hok, -, hout⟩ := exec_decode_ok hvalid hfit hdecode
    exact ⟨t, ht, hok, hout.olen⟩

/-! ### DECODE after ENCODE -/

/-- A command that has ended without error has run its body to the end. -/
theorem body_of_exec_no_error {i : Instr} {s t : State} (h : exec i s = .next t)
    (herr : t.err = false) : ∃ u, bodyOf i s = .ok u ∧ t = (completeOk u).advanceDraws := by
  obtain hok | ⟨e, -, rfl⟩ := complete_next (exec_eq i s ▸ h)
  · exact hok
  · exact absurd (herr.symm.trans (completeError_endsWith (dest i) e s).err) Bool.false_ne_true

/-- DECODE of the codes of a byte string, with the table and the tree of that string
(46_decoder.md R304). -/
theorem exec_decode_of_countTable {t : State} {bs : List Byte} (hlt : bs.length < 2 ^ 64)
    (hvalid : t.treeValid = true) (hftab : t.ftab = countTable bs)
    (htree : t.tree = buildTree t.ftab) (hbits : t.bits = codesOf (buildMap t.tree) bs)
    (hfit : bs.length ≤ t.params.obufSize) :
    ∃ u, exec .decode t = .next u ∧ EndsOk u ∧ OutputIs bs u := by
  have htotal : t.total.toNat = bs.length := by
    rw [total_of_countTable hlt hftab, toNat_toWord hlt]
  have hdecode : decodeBits t.tree t.total.toNat t.bits = .ok bs := by
    rw [htotal, hbits, htree, hftab]
    exact decode_countTable hlt
  obtain ⟨u, hu, hok, -, hout⟩ := exec_decode_ok hvalid (htotal.trans_le hfit) hdecode
  exact ⟨u, hu, hok, hout⟩

/-- Settles O51: an ENCODE without error leaves the codes of its input in BITSEQ and the table and
the tree as they are, and DECODE undoes these codes. -/
theorem decodeUndoesEncode : Obligations.DecodeUndoesEncode := by
  intro s t _ hvalid hftab htree hmap hfit henc herr
  obtain ⟨u, hbody, rfl⟩ := body_of_exec_no_error henc herr
  obtain ⟨-, -, -, -, rfl⟩ := encodeBody_ok.1 hbody
  refine exec_decode_of_countTable (inputBytes_lt s) hvalid hftab htree ?bits ?fit
  case bits => exact congrArg (codesOf · _) hmap
  case fit => rwa [inputBytes_length]

end Sys2Proof.Machine
end

section
/-! PROOFS. The archive codec: reading an archive and writing one undo each other
(47_archive_codec.md R324). -/

namespace Sys2Proof.Machine

/-- Settles O54: the reader undoes the writer, and accepts nothing but the writer's output for the
pair it answers. The capacity limit only serves to keep the bit count a 64-bit number. -/
theorem codecRoundTrip : Obligations.CodecRoundTrip := by
  intro cap F bits hcap
  refine ⟨fun hlen hsum hbits => ?readsWritten, fun bs haccepts => ?onlyWritten⟩
  case readsWritten =>
    exact deserialize_serialize hlen (by omega) hbits (by omega)
  case onlyWritten =>
    obtain ⟨hlen, hsum, hbits, harchive⟩ := deserialize_inv haccepts
    exact ⟨harchive, hlen, Nat.le_sub_one_of_lt hsum, hbits⟩

end Sys2Proof.Machine
end

section
/-! PROOFS. COMPRESS and DECOMPRESS: what each leaves when its bodies succeed, the one error left to
COMPRESS, and that the two undo each other (48_control_and_composite.md R352, R353, R364). -/

namespace Sys2Proof.Machine

/-! ### COMPRESS -/

/-- The bits COMPRESS leaves in BITSEQ: the codes of a byte string in the map of its own table. -/
def payloadOf (bs : List Byte) : List Bool := codesOf (buildMap (buildTree (countTable bs))) bs

/-- The archive COMPRESS writes for a byte string. -/
def archiveOf (bs : List Byte) : List Byte := serializeBytes (countTable bs) (payloadOf bs)

theorem serializeBody_error_kind {s : State} {e : CmdError} (h : serializeBody s = .error e) :
    e.kind = .capacityError := by
  rw [serializeBody] at h
  split at h
  · cases h
    rfl
  · cases h

/-- On input that fits in IBUF the one error left to COMPRESS is CAPACITY_ERROR, of ENCODE or of
SERIALIZE (48_control_and_composite.md R364). -/
theorem compressBody_error_kind {s : State} {e : CmdError}
    (hfit : s.ilen.toNat ≤ s.params.ibufSize) (h : compressBody s = .error e) :
    e.kind = .capacityError := by
  rw [compressBody_eq hfit] at h
  cases hencode : encodeBody s.analyzed with
  | error e' =>
    obtain rfl : e' = e := Except.error.inj ((runBodies_cons_error hencode).symm.trans h)
    refine encodeBody_error_kind (analyzed_mapValid s) ?_ ?_ hencode
    · simpa using hfit
    · simpa using countTable_codes (inputBytes_lt s)
  | ok u =>
    rw [runBodies_cons hencode] at h
    cases hserialize : serializeBody u with
    | error e' =>
      obtain rfl : e' = e := Except.error.inj ((runBodies_cons_error hserialize).symm.trans h)
      exact serializeBody_error_kind hserialize
    | ok v =>
      rw [runBodies_cons hserialize] at h
      cases h

/-- What COMPRESS has done when its bodies succeed: payload and archive are those of its input, and
they fit. -/
theorem compressBody_ok_effect {s u : State} (h : compressBody s = .ok u) :
    (payloadOf (s.inputBytes s.ilen.toNat)).length ≤ s.params.bsCapBits ∧
      (archiveOf (s.inputBytes s.ilen.toNat)).length ≤ s.params.obufSize ∧
      u = (s.analyzed.writeBits (payloadOf (s.inputBytes s.ilen.toNat))).writeOutput
        (archiveOf (s.inputBytes s.ilen.toNat)) := by
  obtain ⟨s1, s2, s3, s4, hanalyze, htree, hmap, hencode, hserialize⟩ := compressBody_ok.1 h
  obtain ⟨-, rfl⟩ := analyzeBody_ok.1 hanalyze
  obtain rfl := buildTreeBody_ok.1 htree
  obtain ⟨-, rfl⟩ := buildMapBody_ok.1 hmap
  change encodeBody s.analyzed = .ok s4 at hencode
  obtain ⟨-, -, -, hbits, rfl⟩ := encodeBody_ok.1 hencode
  obtain ⟨hsize, rfl⟩ := serializeBody_ok.1 hserialize
  simp only [analyzed_ilen, analyzed_inputBytes, analyzed_map, analyzed_params, analyzed_ftab,
    writeBits_params, writeBits_ftab, writeBits_bits] at hbits hsize ⊢
  refine ⟨?_, hsize, rfl⟩
  obtain hempty | hbits := hbits
  · rw [hempty]
    exact Nat.zero_le _
  · exact hbits

/-- The completion of COMPRESS without error: BITSEQ and OBUF hold payload and archive of its input,
both within their capacities. -/
theorem compress_without_error {s t : State} (h : exec .compress s = .next t)
    (herr : t.err = false) :
    (payloadOf (s.inputBytes s.ilen.toNat)).length ≤ s.params.bsCapBits ∧
      (archiveOf (s.inputBytes s.ilen.toNat)).length ≤ s.params.obufSize ∧
      t.bits = payloadOf (s.inputBytes s.ilen.toNat) ∧
      OutputIs (archiveOf (s.inputBytes s.ilen.toNat)) t := by
  obtain ⟨u, hbody, rfl⟩ := body_of_exec_no_error h herr
  obtain ⟨hbits, hsize, rfl⟩ := compressBody_ok_effect hbody
  exact ⟨hbits, hsize, rfl, writeOutput_outputIs _ _⟩

/-- COMPRESS of input that fits in IBUF ends without error or with CAPACITY_ERROR. -/
theorem compress_ends {s t : State} (hfit : s.ilen.toNat ≤ s.params.ibufSize)
    (h : exec .compress s = .next t) : t.err = false ∨ t.errCode = 7 := by
  obtain ⟨u, -, rfl⟩ | ⟨e, hbody, rfl⟩ := complete_next (r := compressBody s) h
  · exact .inl (completeOk_endsOk u).err
  · refine .inr ?_
    rw [(completeError_endsWith _ e s).errCode, compressBody_error_kind hfit hbody]
    rfl

/-! ### DECOMPRESS -/

/-- The input is a byte string that IBUF lists from its first byte on. -/
theorem inputBytes_of_listed {u : State} {bs : List Byte}
    (h : ∀ k, k < bs.length → Mem.get? u.mem (Config.ibufBase + k) = bs[k]?) :
    u.inputBytes bs.length = bs := by
  refine List.ext_getElem (inputBytes_length _ _) fun k hk hk' => ?_
  simp [State.inputBytes, State.memRead, h k hk', hk']

/-- DECOMPRESS of the archive COMPRESS writes for a byte string, with room for payload and output:
it decodes to the byte string (47_archive_codec.md R324, 46_decoder.md R304). -/
theorem decompress_archiveOf {u : State} {bs : List Byte} (hlt : bs.length < 2 ^ 64)
    (hfit : u.ilen.toNat ≤ u.params.ibufSize)
    (hinput : u.inputBytes u.ilen.toNat = archiveOf bs)
    (hbits : (payloadOf bs).length ≤ u.params.bsCapBits) (hcap : u.params.bsCapBits < 2 ^ 64)
    (hroom : bs.length ≤ u.params.obufSize) :
    ∃ x, exec .decompress u = .next x ∧ EndsOk x ∧ OutputIs bs x := by
  have hsum : tableSum (countTable bs) = bs.length := tableSum_counts hlt
  have hread : deserializeBytes u.params.bsCapBits (u.inputBytes u.ilen.toNat) =
      .ok (countTable bs, payloadOf bs) := by
    rw [hinput]
    exact deserialize_serialize (countTable_length bs) (by omega) hbits (by omega)
  have hdeserialize : deserializeBody u =
      .ok ((u.writeTable (countTable bs)).writeBits (payloadOf bs)) :=
    deserializeBody_ok.2 ⟨hfit, _, _, hread, rfl⟩
  have htotal : (((u.writeTable (countTable bs)).writeBits (payloadOf bs)).writeTree
      (buildTree (countTable bs))).total.toNat = bs.length := by
    rw [total_of_countTable hlt rfl, toNat_toWord hlt]
  have hdecode := decodeBody_ok.2 ⟨writeTree_treeValid _ _, htotal.trans_le hroom, bs,
    htotal.symm ▸ decode_countTable hlt, rfl⟩
  have hbody : bodyOf .decompress u = .ok _ :=
    decompressBody_ok.2 ⟨_, _, hdeserialize, buildTreeBody_ok.2 rfl, hdecode⟩
  exact ⟨_, exec_ok hbody, completeOk_endsOk _, writeOutput_outputIs _ _⟩

/-! ### Copies of one byte value -/

/-- A table has no more entries than a list that holds every counted byte value. -/
theorem tableEntries_length_le_of_subset {F : List Word} {vs : List Byte}
    (h : ∀ v, tableGet F v ≠ 0 → v ∈ vs) : (tableEntries F).length ≤ vs.length := by
  rw [tableEntries_eq, List.length_map]
  refine ((allBytes_nodup.filter _).subperm fun v hv => h v ?_).length_le
  simpa using (List.mem_filter.1 hv).2

/-- The code of the one byte value of an input is one bit long (43_encoding_map.md R242, R244). -/
theorem code_length_of_replicate {n : Nat} {v : Byte} (hpos : 1 ≤ n) (hlt : n < 2 ^ 64) :
    (codeGet (buildMap (buildTree (countTable (List.replicate n v)))) v).length = 1 := by
  have hlen : (List.replicate n v).length < 2 ^ 64 := by rwa [List.length_replicate]
  have hmem : v ∈ List.replicate n v := List.mem_replicate.2 ⟨by omega, rfl⟩
  have hcode := List.length_pos_iff.2 (countTable_codes hlen v hmem)
  have hentries : (tableEntries (countTable (List.replicate n v))).length ≤ [v].length :=
    tableEntries_length_le_of_subset fun u hu => List.mem_singleton.2
      (List.eq_of_mem_replicate ((countTable_ne_zero hlen u).1 hu))
  have hlong := longestCode_buildMap_le.1
    (longestCode_table_le (countTable (List.replicate n v))) v
  rw [List.length_singleton] at hentries
  omega

theorem payloadOf_replicate_length {n : Nat} (v : Byte) (hpos : 1 ≤ n) (hlt : n < 2 ^ 64) :
    (payloadOf (List.replicate n v)).length = n := by
  rw [payloadOf, codesOf_length, List.map_replicate, code_length_of_replicate hpos hlt,
    List.sum_replicate, smul_eq_mul, Nat.mul_one]

/-! ### The round trip -/

/-- Settles O60: COMPRESS leaves the archive of its input in OBUF; the copied archive is the input
of DECOMPRESS, which reads table and payload back from it and decodes them. -/
theorem decompressUndoesCompress : Obligations.DecompressUndoesCompress := by
  intro s t hwf hfit hcompress
  obtain ⟨-, -, -, hobuf, -, hcap, -, -, -⟩ := params_bounds hwf
  have hlt := inputBytes_lt s
  refine ⟨compress_ends hfit hcompress,
    fun herr u hparams hilen hroomIn hroomOut hcopy => ?roundTrip,
    fun herr v hpos hcopies => ?copies⟩
  all_goals obtain ⟨hbits, hsize, htbits, holen, hbytes⟩ := compress_without_error hcompress herr
  case roundTrip =>
    have hn : t.olen.toNat = (archiveOf (s.inputBytes s.ilen.toNat)).length := by
      rw [holen, toNat_toWord (by omega)]
    have hinput : u.inputBytes u.ilen.toNat = archiveOf (s.inputBytes s.ilen.toNat) := by
      rw [hilen, hn]
      exact inputBytes_of_listed fun k hk => (hcopy k (by omega)).trans (hbytes k)
    obtain ⟨x, hx, hok, hout⟩ := decompress_archiveOf hlt (hilen ▸ hroomIn) hinput
      (hparams ▸ hbits) (by rw [hparams]; omega) ((inputBytes_length _ _).trans_le hroomOut)
    refine ⟨x, hx, hok, ?_, hout⟩
    rw [hout.olen, inputBytes_length, toWord_toNat]
  case copies =>
    rw [htbits, hcopies]
    exact payloadOf_replicate_length v hpos s.ilen.isLt

end Sys2Proof.Machine
end

section
/-! PROOFS. The life of a command word: its issue, a write to CMD while a command runs, and illegal
words; and the control commands NOP and SOFT_RESET (48_control_and_composite.md R351, R354, R355,
R360, R362). -/

namespace Sys2Proof.Machine

/-! ### Writes to CMD and STATUS -/

theorem step_write_cmd_idle {s : State} {w : Word} {ts : List Turn} (hidle : s.busy = false)
    (ht : s.turns = .write 0x08 8 w :: ts) :
    step s = .next (({ s with turns := ts } : State).issue w) := by
  have hstep : step s = writeReg 0x08 .cmd w { s with turns := ts } :=
    step_write_reg ht (by decide) (by decide)
  have hidle' : ({ s with turns := ts } : State).busy = false := hidle
  rw [hstep, writeReg, hidle']
  rfl

theorem step_write_cmd_busy {s : State} {w : Word} {ts : List Turn} (hbusy : s.busy = true)
    (ht : s.turns = .write 0x08 8 w :: ts) :
    step s = .next { s with turns := ts, ovr := true } := by
  have hstep : step s = writeReg 0x08 .cmd w { s with turns := ts } :=
    step_write_reg ht (by decide) (by decide)
  have hbusy' : ({ s with turns := ts } : State).busy = true := hbusy
  rw [hstep, writeReg, hbusy']
  rfl

theorem step_write_status {s : State} {v : Word} {ts : List Turn}
    (ht : s.turns = .write 0x10 8 v :: ts) :
    step s = .next (({ s with turns := ts } : State).writeStatus v) :=
  step_write_reg ht (by decide) (by decide)

/-- Bit 3 of a value written to STATUS clears OVR, whatever else it clears (10_state.md R34). -/
theorem writeStatus_ovr_of_bit {v : Word} (h : v.getLsbD 3 = true) (s : State) :
    (s.writeStatus v).ovr = false := by
  rw [State.writeStatus, h]
  cases v.getLsbD 2 <;> rfl

/-- Settles O5: the write is `State.issue`, which sets the fields of R360, and with DONE and ERR
cleared the interrupt line is low. -/
theorem cmdWriteIssuesTheCommand : Obligations.CmdWriteIssuesTheCommand :=
  fun _ _ _ hidle ht => ⟨_, step_write_cmd_idle hidle ht, rfl, rfl, rfl⟩

/-- Settles O6: the write sets OVR alone; issue, bit 3 of a STATUS write and
both resets clear it. -/
theorem cmdWriteWhileBusyIsDropped : Obligations.CmdWriteWhileBusyIsDropped := by
  refine ⟨fun s w ts => step_write_cmd_busy,
    fun s w ts hidle ht => ⟨_, step_write_cmd_idle hidle ht, rfl⟩,
    fun s v ts hbit ht => ⟨_, step_write_status ht, writeStatus_ovr_of_bit hbit _⟩,
    fun s ts ht => ⟨({ s with turns := ts } : State).hardwareReset, ?hardReset, rfl⟩,
    fun s => ⟨_, exec_ok (i := .softReset) rfl, rfl⟩⟩
  case hardReset => rw [step, ht]

/-! ### The core's step -/

theorem step_of_no_turns {s : State} (ht : s.turns = []) : step s = coreStep s := by
  rw [step, ht]

theorem step_of_core_turn {s : State} {ts : List Turn} (ht : s.turns = .core :: ts) :
    step s = coreStep { s with turns := ts } := by
  rw [step, ht]

/-- The core completes a word that decodes to no command with ILLEGAL_COMMAND
(48_control_and_composite.md R355, R361). -/
theorem coreStep_illegal {s : State} {w : Word} (hillegal : ∀ i, decodeWord w ≠ .ok i)
    (hseq : s.seq = .running w) : coreStep s = completeIllegal w s := by
  rw [coreStep, hseq]
  cases hdecode : decodeWord w with
  | ok i => exact absurd hdecode (hillegal i)
  | error e => simp only [hdecode]

/-- Settles O7: an illegal word is issued as every word is, and wherever the core moves while it
runs, its completion is the error entry with an empty destination set. -/
theorem illegalWordEndsInIllegalCommand : Obligations.IllegalWordEndsInIllegalCommand := by
  refine fun s w hillegal => ⟨fun ts hidle ht => ?issued, fun hseq ht => ?noTurns,
    fun ts hseq ht => ?coreTurn⟩
  case issued =>
    exact ⟨_, _, step_write_cmd_idle hidle ht, rfl,
      (step_of_core_turn rfl).trans (coreStep_illegal hillegal rfl), rfl⟩
  case noTurns => exact ⟨_, (step_of_no_turns ht).trans (coreStep_illegal hillegal hseq), rfl⟩
  case coreTurn => exact ⟨_, (step_of_core_turn ht).trans (coreStep_illegal hillegal hseq), rfl⟩

/-! ### NOP and SOFT_RESET -/

/-- Settles O57: the body of NOP leaves the state as it is. -/
theorem nopOnlyCompletes : Obligations.NopOnlyCompletes :=
  fun _ => ⟨_, exec_ok (i := .nop) rfl, rfl⟩

/-- STATUS after a completion without error and without overrun (10_state.md R34). -/
theorem statusWord_of_endsOk {t : State} {opc : Byte} (hok : EndsOk t) (hovr : t.ovr = false)
    (hopc : t.lastOpc = opc) : t.statusWord = toWord (2 + 65536 * opc.toNat) := by
  have hbusy : t.busy = false := by rw [State.busy, hok.seq]
  rw [State.statusWord, hbusy, hok.done, hok.err, hok.errCode, hovr, hopc]
  simp

/-- Settles O31: the body of SOFT_RESET never raises; TOTAL, ENTRIES and MAXLEN are those of the
empty table and the empty map, and only the cells of OBUF are dropped from memory. -/
theorem softResetCompletes : Obligations.SoftResetCompletes := by
  intro s
  refine ⟨_, exec_ok (i := .softReset) rfl, ?status, rfl, rfl, rfl, rfl, rfl, rfl, rfl, rfl, rfl,
    tableGet_emptyTable, ?total, ?entries, rfl, rfl, rfl, codeGet_emptyMap, ?maxLen, rfl,
    mem_get?_dropObuf s.mem, rfl, rfl, rfl⟩
  case status =>
    calc _ = toWord (2 + 65536 * (0x1F : Byte).toNat) :=
          statusWord_of_endsOk (completeOk_endsOk _) rfl rfl
      _ = 0x1F0002 := by decide
  case total => exact congrArg toWord tableSum_emptyTable
  case entries => exact entries_eq_zero.2 (tableEntries_eq_nil.2 tableGet_emptyTable)
  case maxLen => exact congrArg toWord longestCode_emptyMap

end Sys2Proof.Machine
end

section
/-! PROOFS. The exceptions of the host interface: accesses of a width or alignment their region does
not admit (60_exceptions.md R413, 20_memory.md R102). -/

namespace Sys2Proof.Machine

theorem accessAllowed_iff {r : Region} {a n : Nat} :
    accessAllowed r a n = true ↔
      (n = 8 ∧ a % 8 = 0) ∨
        (r ∈ [Region.mapcodew, .bssw, .ibuf, .obuf] ∧ n ∈ [1, 2, 4] ∧ a % n = 0) := by
  simp only [accessAllowed, Bool.or_eq_true, Bool.and_eq_true, beq_iff_eq, List.contains_iff_mem,
    and_assoc]

theorem hostRead_inadmissible {s : State} {a : Addr} {n : Nat} {row : RegionRow}
    (h : touchedRegion s.params a.toNat n = some row)
    (ha : regionAdmits row.region a.toNat n = false) :
    hostRead a n s = .fault (.hostAccessFault a n) := by
  rw [hostRead_of_region h, ha]
  rfl

/-- Settles O23: an access that starts in a region is an access to that region, and the model's
check of widths and alignments is the one of R102. -/
theorem inadmissibleAccessFaults : Obligations.InadmissibleAccessFaults := by
  intro s row a n v ts hwf hrow hbase hend hbad
  have hregion : touchedRegion s.params a.toNat n = some row :=
    touchedRegion_of_mem hwf hrow n hbase hend
  have hadmit : regionAdmits row.region a.toNat n = false := by
    rw [regionAdmits_eq]
    exact Bool.eq_false_iff.2 (mt accessAllowed_iff.1 hbad)
  exact ⟨fun ht => (step_of_read ht).trans (hostRead_inadmissible hregion hadmit),
    fun ht => (step_of_write ht).trans (hostWrite_inadmissible hregion hadmit)⟩

end Sys2Proof.Machine
end

section
/-! PROOFS. The encoding of commands as bytes: which byte strings the decoder reads a command from
(30_encoding.md R140, R141, R143, 20_memory.md R103). -/

namespace Sys2Proof.Machine

/-- A word is the word of a command exactly when it decodes to it (30_encoding.md R141). -/
theorem decodeWord_eq_ok_iff_encodeWord {w : Word} {i : Instr} :
    decodeWord w = .ok i ↔ w = encodeWord i := by
  rw [decodeWord_eq_ok]
  constructor
  · rintro ⟨hrsv, hopc⟩
    have hhigh := congrArg BitVec.toNat hrsv
    have hlow := congrArg BitVec.toNat hopc
    have hlt := w.isLt
    apply BitVec.eq_of_toNat_eq
    simp only [rsvField, opcField, BitVec.extractLsb'_toNat, Nat.shiftRight_eq_div_pow,
      BitVec.ofNat_eq_ofNat, BitVec.toNat_ofNat] at hhigh hlow
    rw [encodeWord, BitVec.toNat_setWidth, ← hlow]
    omega
  · rintro rfl
    cases i <;> exact ⟨rfl, rfl⟩

/-- Eight bytes are the bytes of their little-endian value (20_memory.md R103). -/
theorem wordBytes_leNat {bs : List Byte} (h : bs.length = 8) :
    wordBytes (toWord (leNat bs)) = bs := by
  refine List.ext_getElem ((wordBytes_length _).trans h.symm) fun k hk hk' => ?_
  have hbyte := extract_leNat bs h.le k
  rw [List.getD_eq_getElem _ _ hk'] at hbyte
  simpa [wordBytes, wordByte] using hbyte

/-- The word of eight bytes is `w` exactly when they are the bytes of `w`. -/
theorem toWord_leNat_eq_iff {bs : List Byte} (h : bs.length = 8) {w : Word} :
    toWord (leNat bs) = w ↔ bs = wordBytes w :=
  ⟨fun hw => hw ▸ (wordBytes_leNat h).symm, fun hbs => hbs ▸ leNat_wordBytes w⟩

/-- The decoder takes the first eight bytes as one word and leaves the others. -/
theorem decodeBytes_eq_ok {bs rest : List Byte} {i : Instr} :
    decodeBytes bs = .ok (i, rest) ↔
      8 ≤ bs.length ∧ decodeWord (toWord (leNat (bs.take 8))) = .ok i ∧ rest = bs.drop 8 := by
  rw [decodeBytes]
  by_cases hshort : bs.length < 8
  · rw [if_pos hshort]
    exact iff_of_false (fun h => nomatch h) (fun h => absurd h.1 (by omega))
  · rw [if_neg hshort]
    cases decodeWord (toWord (leNat (bs.take 8))) <;> simp [Nat.not_lt.1 hshort, eq_comm]

/-- Settles O2: the first eight bytes decode to the command exactly when they are the bytes of its
word, and what is left are the bytes after them. -/
theorem decodeAndEncodeAgree : Obligations.DecodeAndEncodeAgree := by
  intro bs i rest
  rw [decodeBytes_eq_ok, decodeWord_eq_ok_iff_encodeWord]
  constructor
  · rintro ⟨hlen, hword, rfl⟩
    rw [← (toWord_leNat_eq_iff (by simp [hlen])).1 hword, List.take_append_drop]
  · rintro rfl
    have hlen := wordBytes_length (encodeWord i)
    refine ⟨by simp [hlen], ?_, (List.drop_left' hlen).symm⟩
    rw [List.take_left' hlen, leNat_wordBytes]

/-- Settles O3: the ten words are those of their commands, and the two others fail the check of the
opcode and that of the reserved bits. -/
theorem sampleWordsDecodeAsListed : Obligations.SampleWordsDecodeAsListed := by
  refine ⟨?_, ?_, ?_, ?_, ?_, ?_, ?_, ?_, ?_, ?_, ?_, ?_⟩ <;> rfl

end Sys2Proof.Machine
end

section
/-! PROOFS. Steps of the core: every command ends, changes only its destination set and the
completion record, and keeps the data part of the invariant (48_control_and_composite.md R350, R356,
R361, 60_exceptions.md R405, R406). -/

namespace Sys2Proof.Machine

/-! ### Every command ends -/

/-- The error kinds have the codes 1 to 7 (60_exceptions.md R401). -/
theorem errCodeOf_bounds (k : ErrKind) : 1 ≤ (errCodeOf k).toNat ∧ (errCodeOf k).toNat ≤ 7 := by
  cases k <;> decide

/-- A command answers the completion of its body: without error, or with the body's error. -/
theorem exec_next (i : Instr) (s : State) :
    (∃ u, bodyOf i s = .ok u ∧ exec i s = .next (completeOk u).advanceDraws) ∨
      (∃ e, bodyOf i s = .error e ∧
        exec i s = .next (completeError (dest i) e s).advanceDraws) := by
  rw [exec_eq]
  cases bodyOf i s with
  | ok u => exact .inl ⟨u, rfl, rfl⟩
  | error e => exact .inr ⟨e, rfl, rfl⟩

theorem busy_eq_false_of_idle {s : State} (h : s.seq = .idle) : s.busy = false := by
  rw [State.busy, h]

/-- Settles O9: the completion without error sets DONE and clears the error record, and error entry
sets ERR with the code of the error and clears the destination set. -/
theorem everyCommandEnds : Obligations.EveryCommandEnds := by
  intro i s
  obtain ⟨u, -, hexec⟩ | ⟨e, -, hexec⟩ := exec_next i s
  · have hend := completeOk_endsOk u
    exact ⟨_, hexec, hend.seq, busy_eq_false_of_idle hend.seq,
      .inl ⟨hend.done, hend.err, hend.errCode, hend.errInfo⟩⟩
  · have hend := completeError_endsWith (dest i) e s
    have hcode := errCodeOf_bounds e.kind
    rw [← hend.errCode] at hcode
    exact ⟨_, hexec, hend.seq, busy_eq_false_of_idle hend.seq,
      .inr ⟨hend.done, hend.err, hcode.1, hcode.2, completeError_cleared _ _ _⟩⟩

/-! ### What a command keeps -/

/-- A command other than SOFT_RESET keeps everything outside its destination set
(48_control_and_composite.md R350, R361). -/
theorem exec_keeps {i : Instr} (hi : i ≠ .softReset) {s t : State} (h : exec i s = .next t) :
    KeepsOutside (dest i) s t := by
  obtain ⟨u, hbody, rfl⟩ | ⟨e, -, rfl⟩ := complete_next (exec_eq i s ▸ h)
  · exact completeOk_keeps (body_keeps hi hbody)
  · exact completeError_keeps _ _ _

/-- Settles O10: the destination sets written out are those of `dest`, and SOFT_RESET is not among
the commands. -/
theorem commandsKeepWhatTheyDoNotWrite : Obligations.CommandsKeepWhatTheyDoNotWrite := by
  intro i ds s t hmem h
  have hdest : ds = dest i ∧ i ≠ .softReset := by
    cases i <;> simp at hmem <;> exact ⟨hmem, by decide⟩
  obtain ⟨rfl, hi⟩ := hdest
  exact exec_keeps hi h

/-! ### The core's step -/

theorem coreStep_idle {s : State} (h : s.seq = .idle) : coreStep s = .next s := by
  rw [coreStep, h]

theorem coreStep_running {s : State} {w : Word} {i : Instr} (hseq : s.seq = .running w)
    (hdecode : decodeWord w = .ok i) : coreStep s = exec i s := by
  rw [coreStep, hseq]
  simp only [hdecode]

/-- What the core's step can do: wait, or complete the running command, or an illegal word
(48_control_and_composite.md R355, R361). -/
theorem coreStep_cases (s : State) :
    coreStep s = .next s ∨ (∃ i, coreStep s = exec i s) ∨
      ∃ w, coreStep s = completeIllegal w s := by
  cases hseq : s.seq with
  | idle => exact .inl (coreStep_idle hseq)
  | running w =>
    cases hdecode : decodeWord w with
    | ok i => exact .inr (.inl ⟨i, coreStep_running hseq hdecode⟩)
    | error e =>
      exact .inr (.inr ⟨w, coreStep_illegal (fun i hi => nomatch hdecode.symm.trans hi) hseq⟩)

/-- The core's step never stops (60_exceptions.md R411). -/
theorem coreStep_next (s : State) : ∃ t, coreStep s = .next t := by
  obtain h | ⟨i, h⟩ | ⟨w, h⟩ := coreStep_cases s
  · exact ⟨_, h⟩
  · obtain ⟨u, -, hexec⟩ | ⟨e, -, hexec⟩ := exec_next i s
    · exact ⟨_, h.trans hexec⟩
    · exact ⟨_, h.trans hexec⟩
  · exact ⟨_, h⟩

/-- Settles O4: the core's turn is the step of the core, whether the schedule names it or is
empty. -/
theorem stepRunsTheDecodedCommand : Obligations.StepRunsTheDecodedCommand := by
  refine ⟨fun s w i hseq hdecode => ⟨fun ht => ?_, fun ts ht => ?_⟩,
    fun s hidle => ⟨fun ht => ?_, fun ts ht => ?_⟩⟩
  · rw [step_of_no_turns ht, coreStep_running hseq hdecode]
  · rw [step_of_core_turn ht]
    exact coreStep_running hseq hdecode
  · rw [step_of_no_turns ht, coreStep_idle hidle]
  · rw [step_of_core_turn ht]
    exact coreStep_idle hidle

/-! ### Faults -/

theorem step_of_hardReset {s : State} {ts : List Turn} (ht : s.turns = .hardReset :: ts) :
    step s = .next ({ s with turns := ts } : State).hardwareReset := by
  rw [step, ht]

/-- The fault of the first event of a schedule is that of the step. -/
theorem exists_turnFault_iff {s : State} {t : Turn} {ts : List Turn} {f : Fault}
    (ht : s.turns = t :: ts) :
    (∃ t' ts', s.turns = t' :: ts' ∧ turnFault { s with turns := ts' } t' = some f) ↔
      turnFault { s with turns := ts } t = some f := by
  constructor
  · rintro ⟨t', ts', hts, hf⟩
    obtain ⟨rfl, rfl⟩ := List.cons.inj (ht.symm.trans hts)
    exact hf
  · exact fun hf => ⟨t, ts, ht, hf⟩

/-- Settles O8: a host access stops with the fault `turnFault` names and is never refused; the
core's step and the reset input answer a next state. -/
theorem onlyHostAccessesFault : Obligations.OnlyHostAccessesFault := by
  intro s f
  cases ht : s.turns with
  | nil =>
    obtain ⟨t, hstep⟩ := coreStep_next s
    rw [step_of_no_turns ht, hstep]
    exact ⟨by simp, by simp⟩
  | cons t ts =>
    rw [← ht, exists_turnFault_iff ht]
    cases t with
    | read a n =>
      rw [step_of_read ht]
      exact ⟨hostRead_fault, fun _ => hostRead_not_refused⟩
    | write a n v =>
      rw [step_of_write ht]
      exact ⟨hostWrite_fault, fun _ => hostWrite_not_refused⟩
    | hardReset =>
      rw [step_of_hardReset ht]
      exact ⟨by simp [turnFault], by simp⟩
    | core =>
      obtain ⟨t, hstep⟩ := coreStep_next { s with turns := ts }
      rw [step_of_core_turn ht, hstep]
      exact ⟨by simp [turnFault], by simp⟩

end Sys2Proof.Machine
end
section
/-! PROOFS. The invariant: reset meets it and every step keeps it; what a host access leaves alone
(10_state.md R34, R39, R41, R47, R48, R51, R53, 20_memory.md R109, 48_control_and_composite.md
R361). -/

namespace Sys2Proof.Machine

/-! ### The data part and the commands -/

theorem bsAppendBody_data {s t : State} (h : s.DataInv) (hb : bsAppendBody s = .ok t) :
    t.DataInv := by
  obtain ⟨-, hfit, rfl⟩ := bsAppendBody_ok.1 hb
  exact writeBits_data h (by rwa [List.length_append, patternBits_length])

theorem bsBitatBody_data {s t : State} (h : s.DataInv) (hb : bsBitatBody s = .ok t) :
    t.DataInv := by
  obtain ⟨-, rfl⟩ := bsBitatBody_ok.1 hb
  have hbit : toWord (bitAt s.bits s.arg0.toNat).toNat = 0 ∨
      toWord (bitAt s.bits s.arg0.toNat).toNat = 1 := by
    cases bitAt s.bits s.arg0.toNat
    · exact .inl rfl
    · exact .inr rfl
  exact { h with resultIsBit := hbit }

theorem hardwareReset_data {s : State} (h : s.DataInv) : s.hardwareReset.DataInv :=
  { resetWith_data h.paramsOk with }

/-- SOFT_RESET keeps IBUF, whose cells lie below OBUF (48_control_and_composite.md R354). -/
theorem softResetBody_data {s t : State} (h : s.DataInv) (hb : softResetBody s = .ok t) :
    t.DataInv := by
  cases hb
  refine { hardwareReset_data h with
    memCanonical := mem_dropObuf_wf h.memCanonical
    outputSpecified := fun k hk => absurd hk (Nat.not_lt_zero k)
    memInBuffers := ?_ }
  intro c hc
  obtain ⟨hmem, hlt⟩ := mem_dropObuf_subset hc
  obtain hi | ⟨hlo, -⟩ := h.memInBuffers c hmem
  · exact .inl hi
  · exact absurd hlt (Nat.not_lt.2 hlo)

theorem compressBody_data {s t : State} (h : s.DataInv) (hb : compressBody s = .ok t) :
    t.DataInv := by
  obtain ⟨s1, s2, s3, s4, h1, h2, h3, h4, h5⟩ := compressBody_ok.1 hb
  exact serializeBody_data (encodeBody_data (buildMapBody_data (buildTreeBody_data
    (countTable_data h h1) h2) h3) h4) h5

theorem decompressBody_data {s t : State} (h : s.DataInv) (hb : decompressBody s = .ok t) :
    t.DataInv := by
  obtain ⟨s1, s2, h1, h2, h3⟩ := decompressBody_ok.1 hb
  exact decodeBody_data (buildTreeBody_data (deserializeBody_data h h1) h2) h3

/-- A command's body that succeeds keeps the data part of the invariant. -/
theorem body_data {i : Instr} {s t : State} (h : s.DataInv) (hb : bodyOf i s = .ok t) :
    t.DataInv := by
  cases i with
  | nop => cases hb; exact h
  | analyze => exact countTable_data h hb
  | buildTree => exact buildTreeBody_data h hb
  | buildMap => exact buildMapBody_data h hb
  | bsClear => cases hb; exact writeBits_data h (Nat.zero_le _)
  | bsAppend => exact bsAppendBody_data h hb
  | bsBitat => exact bsBitatBody_data h hb
  | encode => exact encodeBody_data h hb
  | decode => exact decodeBody_data h hb
  | serialize => exact serializeBody_data h hb
  | deserialize => exact deserializeBody_data h hb
  | compress => exact compressBody_data h hb
  | decompress => exact decompressBody_data h hb
  | softReset => exact softResetBody_data h hb

/-! ### Completions meet the invariant -/

/-- An idle state with DONE set, ERR clear and no error record meets the rest of the invariant. -/
theorem completeOk_inv {u : State} (h : u.DataInv) : (completeOk u).advanceDraws.Inv :=
  State.DataInv.inv (DataInv_record h .idle true false 0 0 (u.draws + 1))
    (by simp) (fun hbusy => nomatch hbusy) (fun _ => ⟨rfl, rfl⟩) (fun herr => nomatch herr)

/-- So does error entry, whose destination set holds the tree with the table and the map with the
tree (10_state.md R51). -/
theorem completeError_inv {s : State} {ds : List DestMember} (h : s.DataInv)
    (htree : DestMember.ftab ∈ ds → DestMember.tree ∈ ds)
    (hmap : DestMember.tree ∈ ds → DestMember.map ∈ ds) (e : CmdError) :
    (completeError ds e s).advanceDraws.Inv :=
  State.DataInv.inv (DataInv_record (clearDest_data h htree hmap) .idle false true
      (errCodeOf e.kind) e.info ((clearDest ds s).draws + 1))
    (fun hdone => nomatch hdone.1) (fun hbusy => nomatch hbusy) (fun herr => nomatch herr)
    (fun _ => errCodeOf_bounds e.kind)

theorem exec_inv {i : Instr} {s t : State} (h : s.DataInv) (hexec : exec i s = .next t) :
    t.Inv := by
  obtain ⟨u, hbody, rfl⟩ | ⟨e, -, rfl⟩ := complete_next (exec_eq i s ▸ hexec)
  · exact completeOk_inv (body_data h hbody)
  · exact completeError_inv h (dest_closed i).1 (dest_closed i).2 e

theorem coreStep_inv {s t : State} (h : s.Inv) (hstep : coreStep s = .next t) : t.Inv := by
  obtain hcore | ⟨i, hcore⟩ | ⟨w, hcore⟩ := coreStep_cases s
  · cases hcore.symm.trans hstep
    exact h
  · exact exec_inv h.data (hcore.symm.trans hstep)
  · cases hcore.symm.trans hstep
    exact completeError_inv h.data (by simp) (by simp) _

/-! ### Reset -/

/-- With no command running and a clear status the data part is the whole invariant. -/
theorem resetWith_inv {p : Params} (h : p.wellFormed = true) : (State.resetWith p).Inv :=
  (resetWith_data h).inv (fun hdone => nomatch hdone.1) (fun hbusy => nomatch hbusy)
    (fun _ => ⟨rfl, rfl⟩) (fun herr => nomatch herr)

/-- Settles O11: reset meets the data part, and its status is clear; TCFG is a legal choice. -/
theorem resetMeetsTheInvariant : Obligations.ResetMeetsTheInvariant :=
  ⟨fun _ => resetWith_inv, resetWith_inv (by decide)⟩

theorem hardwareReset_inv {s : State} (h : s.Inv) : s.hardwareReset.Inv :=
  { resetWith_inv h.paramsOk with }

/-! ### Host accesses -/

/-- The schedule is no part of the invariant. -/
theorem inv_turns {s : State} (h : s.Inv) (ts : List Turn) : ({ s with turns := ts } : State).Inv :=
  { h with }

theorem hostRead_inv {s t : State} {a : Addr} {n : Nat} (h : s.Inv)
    (hread : hostRead a n s = .next t) : t.Inv := by
  obtain ⟨v, rfl⟩ := hostRead_next hread
  exact { h with }

/-- Issue clears DONE, ERR and the error record (48_control_and_composite.md R360). -/
theorem issue_inv {s : State} (h : s.Inv) (w : Word) : (s.issue w).Inv :=
  { h with
    doneOrErr := fun hdone => nomatch hdone.1
    busyQuiet := fun _ => ⟨rfl, rfl⟩
    noErrNoCode := fun _ => ⟨rfl, rfl⟩
    errCodeKnown := fun herr => nomatch herr }

/-- A write to STATUS, field by field (10_state.md R34). -/
theorem writeStatus_eq (s : State) (v : Word) :
    s.writeStatus v = { s with
      done := s.done && !v.getLsbD 1
      err := s.err && !v.getLsbD 2
      ovr := s.ovr && !v.getLsbD 3
      errCode := if v.getLsbD 2 then 0 else s.errCode
      errInfo := if v.getLsbD 2 then 0 else s.errInfo } := by
  rw [State.writeStatus]
  cases v.getLsbD 1 <;> cases v.getLsbD 2 <;> cases v.getLsbD 3 <;> simp [acknowledgeError]

/-- Bits of STATUS are only cleared, ERR together with its record (60_exceptions.md R407). -/
theorem writeStatus_inv {s : State} (h : s.Inv) (v : Word) : (s.writeStatus v).Inv := by
  rw [writeStatus_eq]
  refine { h with doneOrErr := ?_, busyQuiet := ?_, noErrNoCode := ?_, errCodeKnown := ?_ }
  · simp only [Bool.and_eq_true]
    exact fun hboth => h.doneOrErr ⟨hboth.1.1, hboth.2.1⟩
  · intro hbusy
    obtain ⟨hdone, herr⟩ := h.busyQuiet hbusy
    simp [hdone, herr]
  · cases v.getLsbD 2
    · simpa using h.noErrNoCode
    · simp
  · cases v.getLsbD 2
    · simpa using h.errCodeKnown
    · simp

/-- An access IBUF admits lies inside IBUF (20_memory.md R101, R102). -/
theorem ibuf_access_inside {p : Params} (hwf : p.wellFormed = true) {row : RegionRow} {a n : Nat}
    (hrow : touchedRegion p a n = some row) (hregion : row.region = .ibuf)
    (hadmit : regionAdmits .ibuf a n = true) :
    Config.ibufBase ≤ a ∧ a + n ≤ Config.ibufBase + p.ibufSize := by
  obtain ⟨hmem, hbelow, habove⟩ := touchedRegion_mem hrow
  obtain ⟨hn, hmod⟩ := regionAdmits_width hadmit
  have hinside := admitted_inside hwf hmem hn hmod hbelow
  have hibuf : row = ⟨.ibuf, Config.ibufBase, p.ibufSize⟩ := by
    simp only [memoryMap, List.mem_cons, List.not_mem_nil, or_false] at hmem
    rcases hmem with rfl | rfl | rfl | rfl | rfl | rfl | rfl <;> simp at hregion ⊢
  subst hibuf
  refine ⟨?_, hinside⟩
  simp only [List.mem_cons, List.not_mem_nil, or_false, Config.ibufBase] at hn habove ⊢
  rcases hn with rfl | rfl | rfl | rfl <;> omega

/-- A host write changes a register a host may write, issues a command, or writes inside IBUF; none
of these breaks the invariant (10_state.md R31 to R39, 20_memory.md R104). -/
theorem hostWrite_inv {s t : State} {a : Addr} {n : Nat} {v : Word} (h : s.Inv)
    (hwrite : hostWrite a n v s = .next t) : t.Inv := by
  obtain rfl | rfl | ⟨-, rfl⟩ | rfl | rfl | ⟨-, rfl | rfl | rfl⟩ |
    ⟨-, row, hrow, hregion, hadmit, rfl⟩ := hostWrite_next hwrite
  case inl => exact h
  case inr.inr.inl => exact issue_inv h v
  case inr.inr.inr.inl => exact writeStatus_inv h v
  case inr.inr.inr.inr.inr.inr =>
    obtain ⟨hbase, hend⟩ := ibuf_access_inside h.paramsOk hrow hregion hadmit
    have hlen : ((wordBytes v).take n).length ≤ n := List.length_take_le _ _
    have hdata := putInput_data h.data hbase
      (Nat.le_trans (Nat.add_le_add_left hlen _) hend)
    exact hdata.inv h.doneOrErr h.busyQuiet h.noErrNoCode h.errCodeKnown
  all_goals exact { h with }

/-- Settles O12: the invariant is kept by the two kinds of host access, by the reset input and by
the core's step, which are all that a step can be. -/
theorem everyStepKeepsTheInvariant : Obligations.EveryStepKeepsTheInvariant := by
  intro s t hinv hstep
  cases ht : s.turns with
  | nil =>
    rw [step_of_no_turns ht] at hstep
    exact coreStep_inv hinv hstep
  | cons turn ts =>
    have hinv' := inv_turns hinv ts
    cases turn with
    | read a n =>
      rw [step_of_read ht] at hstep
      exact hostRead_inv hinv' hstep
    | write a n v =>
      rw [step_of_write ht] at hstep
      exact hostWrite_inv hinv' hstep
    | hardReset =>
      rw [step_of_hardReset ht] at hstep
      cases hstep
      exact hardwareReset_inv hinv'
    | core =>
      rw [step_of_core_turn ht] at hstep
      exact coreStep_inv hinv' hstep

/-- Settles O14: a host read sets the value read and the draw counter. -/
theorem readsHaveNoSideEffect : Obligations.ReadsHaveNoSideEffect := by
  intro s t a n ts ht hstep
  obtain ⟨v, rfl⟩ := hostRead_next (step_of_read ht ▸ hstep)
  rfl

/-- What a host access leaves alone (48_control_and_composite.md R361): everything that a command
computes, and DONE and ERR but for clearing them. -/
structure SameResults (s t : State) : Prop where
  params : t.params = s.params
  ftab : t.ftab = s.ftab
  tree : t.tree = s.tree
  treeValid : t.treeValid = s.treeValid
  map : t.map = s.map
  mapValid : t.mapValid = s.mapValid
  bits : t.bits = s.bits
  olen : t.olen = s.olen
  result : t.result = s.result
  obuf : ∀ k, Config.obufBase ≤ k → Mem.get? t.mem k = Mem.get? s.mem k
  done : t.done = true → s.done = true
  err : t.err = true → s.err = true

theorem SameResults.refl (s : State) : SameResults s s where
  params := rfl
  ftab := rfl
  tree := rfl
  treeValid := rfl
  map := rfl
  mapValid := rfl
  bits := rfl
  olen := rfl
  result := rfl
  obuf := fun _ _ => rfl
  done := id
  err := id

theorem hostRead_sameResults {s t : State} {a : Addr} {n : Nat}
    (hread : hostRead a n s = .next t) : SameResults s t := by
  obtain ⟨v, rfl⟩ := hostRead_next hread
  exact { SameResults.refl s with }

/-- A host write clears DONE and ERR only, and IBUF ends before OBUF begins. -/
theorem hostWrite_sameResults {s t : State} {a : Addr} {n : Nat} {v : Word}
    (hwf : s.params.wellFormed = true) (hwrite : hostWrite a n v s = .next t) :
    SameResults s t := by
  obtain rfl | rfl | ⟨-, rfl⟩ | rfl | rfl | ⟨-, rfl | rfl | rfl⟩ |
    ⟨-, row, hrow, hregion, hadmit, rfl⟩ := hostWrite_next hwrite
  case inl => exact SameResults.refl _
  case inr.inr.inl =>
    exact { SameResults.refl s with
      done := fun hdone => nomatch hdone
      err := fun herr => nomatch herr }
  case inr.inr.inr.inl =>
    rw [writeStatus_eq]
    exact { SameResults.refl s with
      done := fun hdone => (Bool.and_eq_true _ _ ▸ hdone).1
      err := fun herr => (Bool.and_eq_true _ _ ▸ herr).1 }
  case inr.inr.inr.inr.inr.inr =>
    obtain ⟨-, hend⟩ := ibuf_access_inside hwf hrow hregion hadmit
    obtain ⟨-, hibuf, -⟩ := params_bounds hwf
    refine { SameResults.refl s with obuf := fun k hk => ?_ }
    have hlen : ((wordBytes v).take n).length ≤ n := List.length_take_le _ _
    refine (mem_get?_putBytes _ _ _ _).trans (if_neg ?_)
    simp only [Config.ibufBase, Config.obufBase] at hend hk
    omega
  all_goals exact { SameResults.refl s with }

/-- Settles O13: a host read sets the value read and the draw counter, and a host write is one of
the cases of `hostWrite_next`. -/
theorem hostAccessesLeaveResultsAlone : Obligations.HostAccessesLeaveResultsAlone := by
  intro s t a n v ts ht hwf hstep
  have hsame : SameResults s t := by
    obtain ht | ht := ht
    · rw [step_of_read ht] at hstep
      exact { hostRead_sameResults hstep with }
    · rw [step_of_write ht] at hstep
      exact { hostWrite_sameResults (s := { s with turns := ts }) hwf hstep with }
  exact ⟨hsame.params, hsame.ftab, hsame.tree, hsame.treeValid, hsame.map, hsame.mapValid,
    hsame.bits, hsame.olen, hsame.result, hsame.obuf, hsame.done, hsame.err⟩

end Sys2Proof.Machine
end

section
/-! PROOFS. The control registers and the interrupt line: the STATUS word and writes to it, `irq`,
reads of every register, operands, read-only registers, and the hardware reset (10_state.md R31 to
R45, R52, R53, 20_memory.md R104, 60_exceptions.md R407, R408, 70_reset_and_hazards.md R450). -/

namespace Sys2Proof.Machine

/-! ### STATUS -/

/-- The STATUS word as a number (10_state.md R34): its fields leave room for no carry. -/
theorem statusWord_toNat (s : State) :
    s.statusWord.toNat = s.busy.toNat + 2 * s.done.toNat + 4 * s.err.toNat + 8 * s.ovr.toNat
      + 256 * s.errCode.toNat + 65536 * s.lastOpc.toNat := by
  have := s.busy.toNat_le
  have := s.done.toNat_le
  have := s.err.toNat_le
  have := s.ovr.toNat_le
  have := s.errCode.isLt
  have := s.lastOpc.isLt
  exact toNat_toWord (by omega)

/-- A bit of a word, read off its value. -/
theorem getLsbD_of_toNat {w : Word} {i : Nat} {b : Bool} (h : w.toNat / 2 ^ i % 2 = b.toNat) :
    w.getLsbD i = b := by
  rw [BitVec.getLsbD, Nat.testBit_eq_decide_div_mod_eq, h]
  cases b <;> rfl

/-- The flags of STATUS (10_state.md R34). -/
theorem statusWord_flags (s : State) :
    s.statusWord.getLsbD 0 = s.busy ∧ s.statusWord.getLsbD 1 = s.done ∧
      s.statusWord.getLsbD 2 = s.err ∧ s.statusWord.getLsbD 3 = s.ovr := by
  have := s.busy.toNat_le
  have := s.done.toNat_le
  have := s.err.toNat_le
  have := s.ovr.toNat_le
  refine ⟨?_, ?_, ?_, ?_⟩ <;> apply getLsbD_of_toNat <;> rw [statusWord_toNat] <;> omega

/-- ERRCODE and LASTOPC in STATUS (10_state.md R34). -/
theorem statusWord_codes (s : State) :
    s.statusWord.extractLsb' 8 4 = s.errCode ∧ s.statusWord.extractLsb' 16 8 = s.lastOpc := by
  have := s.busy.toNat_le
  have := s.done.toNat_le
  have := s.err.toNat_le
  have := s.ovr.toNat_le
  have := s.errCode.isLt
  have := s.lastOpc.isLt
  constructor <;> apply BitVec.eq_of_toNat_eq <;>
    rw [BitVec.extractLsb'_toNat, statusWord_toNat, Nat.shiftRight_eq_div_pow] <;> omega

/-- Settles O15: the flags, the two codes and the reserved fields are read off the sum that makes
the word. -/
theorem statusWordLayout : Obligations.StatusWordLayout := by
  intro s
  obtain ⟨hbusy, hdone, herr, hovr⟩ := statusWord_flags s
  obtain ⟨hcode, hopc⟩ := statusWord_codes s
  obtain ⟨hlow, hmid, hhigh⟩ := statusWord_reserved_fields s
  exact ⟨hbusy, hdone, herr, hovr, hlow, hcode, hmid, hopc, hhigh⟩

/-- Settles O16: the write is `State.writeStatus`, whose fields `writeStatus_eq` lists. -/
theorem statusWriteClearsByOnes : Obligations.StatusWriteClearsByOnes := by
  intro s v ts ht
  rw [step_write_status ht, writeStatus_eq]

/-! ### The interrupt line -/

/-- The two enables of the IRQEN word (10_state.md R36). -/
theorem irqenWord_enables (s : State) :
    s.irqenWord.getLsbD 0 = s.doneIe ∧ s.irqenWord.getLsbD 1 = s.errIe := by
  rw [State.irqenWord]
  cases s.doneIe <;> cases s.errIe <;> decide

theorem irq_of_endsOk {t : State} (h : EndsOk t) : t.irq = t.doneIe := by
  simp [State.irq, h.done, h.err]

theorem irq_of_endsWith {t : State} {code : BitVec 4} {info : Word} (h : EndsWith code info t) :
    t.irq = t.errIe := by
  simp [State.irq, h.done, h.err]

/-- After a completion `irq` is the enable of the way the command ended (60_exceptions.md R408). -/
theorem irq_of_exec {i : Instr} {s t : State} (h : exec i s = .next t) :
    t.irq = if t.err then t.errIe else t.doneIe := by
  obtain ⟨u, -, rfl⟩ | ⟨e, -, rfl⟩ := complete_next (exec_eq i s ▸ h)
  · exact irq_of_endsOk (completeOk_endsOk u)
  · exact irq_of_endsWith (completeError_endsWith _ e s)

theorem step_write_irqen {s : State} {v : Word} {ts : List Turn}
    (ht : s.turns = .write 0x20 8 v :: ts) :
    step s = .next (({ s with turns := ts } : State).writeIrqen v) :=
  step_write_reg ht (by decide) (by decide)

/-- Settles O18: `irq` is a function of DONE, ERR and the two enables, and each of the events sets
these four bits as its own lemma says. -/
theorem interruptFollowsCompletion : Obligations.InterruptFollowsCompletion := by
  refine ⟨fun s => ?formula, fun i s t => irq_of_exec, fun s w ts hidle ht => ?issue,
    fun s v ts ht => ?status, fun s v ts ht => ?irqen⟩
  case formula =>
    obtain ⟨-, hdone, herr, -⟩ := statusWord_flags s
    obtain ⟨hdoneIe, herrIe⟩ := irqenWord_enables s
    rw [hdone, herr, hdoneIe, herrIe, State.irq]
  case issue => exact ⟨_, step_write_cmd_idle hidle ht, rfl⟩
  case status =>
    have hirq : (({ s with turns := ts } : State).writeStatus v).irq =
        ((s.done && !v.getLsbD 1 && s.doneIe) || (s.err && !v.getLsbD 2 && s.errIe)) := by
      rw [writeStatus_eq]
      rfl
    refine ⟨_, step_write_status ht, hirq, fun hdone herr => ?_⟩
    rw [hirq]
    obtain hdone | hdone := hdone <;> obtain herr | herr := herr <;> simp [hdone, herr]
  case irqen =>
    have hirq : (({ s with turns := ts } : State).writeIrqen v).irq =
        ((s.done && v.getLsbD 0) || (s.err && v.getLsbD 1)) := rfl
    refine ⟨_, step_write_irqen ht, hirq, fun hdone herr => ?_⟩
    rw [hirq, Bool.or_eq_false_iff, Bool.and_eq_false_iff, Bool.and_eq_false_iff]
    exact ⟨hdone, herr⟩

/-! ### Reads and writes of registers -/

/-- Settles O19: every listed offset is that of its register, and with no command running an aligned
8-byte read returns the register's value. -/
theorem controlRegistersReadTheirState : Obligations.ControlRegistersReadTheirState := by
  intro s off val ts hidle hmem ht
  have hreg : off.toNat < 0x100 ∧ off.toNat % 8 = 0 ∧ s.regValue (regAt off.toNat) = val := by
    simp only [List.mem_cons, Prod.mk.injEq, List.not_mem_nil, or_false] at hmem
    rcases hmem with ⟨rfl, rfl⟩ | hmem
    · exact ⟨by decide, by decide, idWord_eq⟩
    · rcases hmem with ⟨rfl, rfl⟩ | ⟨rfl, rfl⟩ | ⟨rfl, rfl⟩ | ⟨rfl, rfl⟩ | ⟨rfl, rfl⟩ | ⟨rfl, rfl⟩ |
        ⟨rfl, rfl⟩ | ⟨rfl, rfl⟩ | ⟨rfl, rfl⟩ | ⟨rfl, rfl⟩ | ⟨rfl, rfl⟩ | ⟨rfl, rfl⟩ | ⟨rfl, rfl⟩ |
        ⟨rfl, rfl⟩ | ⟨rfl, rfl⟩ | ⟨rfl, rfl⟩ | ⟨rfl, rfl⟩ | ⟨rfl, rfl⟩ <;>
      exact ⟨by decide, by decide, rfl⟩
  obtain ⟨hlt, h8, rfl⟩ := hreg
  exact ⟨_, step_read_reg ht hlt h8 (by rw [hidle, Bool.false_and]), rfl⟩

/-- ARG0, ARG1 and ILEN take what a host writes while no command runs (10_state.md R37, R39). -/
theorem writeReg_operand_idle {s : State} (hidle : s.busy = false) (a : Addr) (v : Word) :
    writeReg a .arg0 v s = .next { s with arg0 := v } ∧
      writeReg a .arg1 v s = .next { s with arg1 := v } ∧
      writeReg a .ilen v s = .next { s with ilen := v } := by
  simp [writeReg, hidle]

/-- A host must not write them while a command runs (70_reset_and_hazards.md R461). -/
theorem writeReg_operand_busy {s : State} (hbusy : s.busy = true) (a : Addr) (v : Word) {r : Reg}
    (hr : r ∈ [Reg.arg0, .arg1, .ilen]) : writeReg a r v s = .fault (.hostHazard a) := by
  simp only [List.mem_cons, List.not_mem_nil, or_false] at hr
  rcases hr with rfl | rfl | rfl <;> simp [writeReg, hbusy]

/-- Settles O21: the three offsets are those of the operand registers. -/
theorem operandRegistersTakeEveryValue : Obligations.OperandRegistersTakeEveryValue := by
  intro s v ts hidle
  have hwrite := fun a => writeReg_operand_idle (s := { s with turns := ts }) hidle a v
  refine ⟨fun ht => ?_, fun ht => ?_, fun ht => ?_⟩ <;>
    rw [step_write_reg ht (by decide) (by decide)]
  · exact (hwrite _).1
  · exact (hwrite _).2.1
  · exact (hwrite _).2.2

/-- An admitted write to a read-only region is ignored (20_memory.md R104). -/
theorem hostWrite_readOnly {s : State} {a : Addr} {n : Nat} {row : RegionRow} (v : Word)
    (hrow : touchedRegion s.params a.toNat n = some row)
    (hregion : row.region ∈ [Region.ftabw, .maplenw, .mapcodew, .bssw, .obuf])
    (hadmit : regionAdmits row.region a.toNat n = true) : hostWrite a n v s = .next s := by
  rw [hostWrite, hrow]
  simp only [hadmit, if_true]
  simp only [List.mem_cons, List.not_mem_nil, or_false] at hregion
  rcases hregion with h | h | h | h | h <;> rw [h]

/-- Settles O24: a host does not write these registers and regions, CMD reads 0, and an access that
touches no region is `hostRead_unmapped` or `hostWrite_unmapped`. -/
theorem readOnlyAndUnmappedAccesses : Obligations.ReadOnlyAndUnmappedAccesses := by
  intro s a n v ts hwf
  refine ⟨fun off hoff ht => ?registers, fun row hmem hregion hbase hend hadmit ht => ?regions,
    fun ht => ⟨_, step_read_reg ht (by decide) (by decide) (Bool.and_false _), rfl⟩,
    fun hnone => ?unmapped⟩
  case registers =>
    have hreg : off.toNat < 0x100 ∧ off.toNat % 8 = 0 ∧
        isWritableReg (regAt off.toNat) = false := by
      simp only [List.mem_cons, List.not_mem_nil, or_false] at hoff
      rcases hoff with rfl | rfl | rfl | rfl | rfl | rfl | rfl | rfl | rfl | rfl | rfl | rfl |
        rfl <;> exact ⟨by decide, by decide, rfl⟩
    obtain ⟨hlt, h8, hfixed⟩ := hreg
    rw [step_write_reg ht hlt h8, writeReg_of_not_writable hfixed]
  case regions =>
    rw [step_of_write ht]
    exact hostWrite_readOnly v (touchedRegion_of_mem hwf hmem n hbase hend) hregion hadmit
  case unmapped =>
    have htouch : touchedRegion ({ s with turns := ts } : State).params a.toNat n = none :=
      touchedRegion_eq_none.2 hnone
    refine ⟨fun ht => ⟨_, (step_of_read ht).trans (hostRead_unmapped htouch), rfl⟩, fun ht => ?_⟩
    rw [step_of_write ht, hostWrite_unmapped htouch]

/-! ### The hardware reset -/

/-- Settles O30: the state is `State.hardwareReset`; TOTAL, ENTRIES and MAXLEN are those of the
empty table and the empty map. -/
theorem hardwareResetSetsEveryState : Obligations.HardwareResetSetsEveryState := by
  intro s ts ht
  refine ⟨_, step_of_hardReset ht, rfl, rfl, rfl, idWord_eq, rfl, rfl, rfl, rfl, rfl, rfl, rfl,
    tableGet_emptyTable, ?total, ?entries, rfl, rfl, rfl, codeGet_emptyMap, rfl, ?maxLen, rfl,
    fun _ => rfl, rfl, rfl, rfl, rfl⟩
  case total => exact congrArg toWord tableSum_emptyTable
  case entries => exact entries_eq_zero.2 (tableEntries_eq_nil.2 tableGet_emptyTable)
  case maxLen => exact congrArg toWord longestCode_emptyMap

end Sys2Proof.Machine
end

section
/-! PROOFS. The buffers and windows: what a host read finds in them, idle and busy, little-endian
order, the hazards of IBUF, and the accesses of host programs (20_memory.md R101 to R107,
30_encoding.md R144, R160, R161, 70_reset_and_hazards.md R460 to R462). -/

namespace Sys2Proof.Machine

/-! ### One byte of a region -/

/-- The byte a host read finds at offset `k` of a region (20_memory.md R101). -/
theorem hostByte_of_row {s : State} (hwf : s.params.wellFormed = true) {row : RegionRow}
    (hrow : row ∈ memoryMap s.params) {k : Nat} (hk : k < row.size) :
    s.hostByte (row.base + k) =
      if s.busy && drawnWhileBusy row.region k then Config.freeByte s.draws (row.base + k)
      else s.idleByte row.region k := by
  rw [State.hostByte, touchedRegion_of_mem hwf hrow 1 (Nat.le_add_right _ _)
    (Nat.add_lt_add_left hk _)]
  simp only [Nat.add_sub_cancel_left]

theorem hostByte_idle {s : State} (hwf : s.params.wellFormed = true) (hidle : s.busy = false)
    {row : RegionRow} (hrow : row ∈ memoryMap s.params) {k : Nat} (hk : k < row.size) :
    s.hostByte (row.base + k) = s.idleByte row.region k := by
  rw [hostByte_of_row hwf hrow hk, hidle, Bool.false_and, if_neg Bool.false_ne_true]

/-- A read of a result while a command runs finds a draw (70_reset_and_hazards.md R462). -/
theorem hostByte_drawn {s : State} (hwf : s.params.wellFormed = true) (hbusy : s.busy = true)
    {row : RegionRow} (hrow : row ∈ memoryMap s.params) {a : Nat} (hbase : row.base ≤ a)
    (hend : a < row.base + row.size) (hdrawn : drawnWhileBusy row.region (a - row.base) = true) :
    s.hostByte a = Config.freeByte s.draws a := by
  obtain ⟨k, rfl⟩ := Nat.exists_eq_add_of_le hbase
  rw [Nat.add_sub_cancel_left] at hdrawn
  rw [hostByte_of_row hwf hrow (Nat.lt_of_add_lt_add_left hend), hbusy, hdrawn, Bool.true_and,
    if_pos rfl]

/-- IBUF shows the byte the core reads, a command running or not (20_memory.md R105). -/
theorem hostByte_ibuf {s : State} (hwf : s.params.wellFormed = true) {k : Nat}
    (hk : k < s.params.ibufSize) :
    s.hostByte (Config.ibufBase + k) = s.memRead (Config.ibufBase + k) := by
  have hrow : (⟨.ibuf, Config.ibufBase, s.params.ibufSize⟩ : RegionRow) ∈ memoryMap s.params := by
    simp [memoryMap]
  rw [hostByte_of_row hwf hrow hk, drawnWhileBusy, Bool.and_false, if_neg Bool.false_ne_true]
  rfl

@[simp] theorem hostByte_turns (s : State) (ts : List Turn) (a : Nat) :
    ({ s with turns := ts } : State).hostByte a = s.hostByte a := by
  simp only [State.hostByte]
  rfl

@[simp] theorem hostValue_turns (s : State) (ts : List Turn) (a n : Nat) :
    ({ s with turns := ts } : State).hostValue a n = s.hostValue a n := by
  simp only [State.hostValue, hostByte_turns]

/-! ### Little-endian accesses -/

/-- A read returns no byte past its width (20_memory.md R103). -/
theorem hostValue_extract_above (s : State) (a : Nat) {n k : Nat} (hk : n ≤ k) :
    (s.hostValue a n).extractLsb' (8 * k) 8 = 0 := by
  rw [State.hostValue, extract_leNat _ (by simp), List.getD_eq_default]
  simp only [List.length_map, List.length_range]
  omega

theorem regionAdmits_ibuf {a n : Nat} (hn : n ∈ [1, 2, 4, 8]) (ha : a % n = 0) :
    regionAdmits .ibuf a n = true := by
  simp [regionAdmits, ha] at hn ⊢
  exact hn

/-- An admitted write into IBUF: a hazard while a command runs, and otherwise the bytes of the value
in memory (20_memory.md R103, 70_reset_and_hazards.md R461). -/
theorem hostWrite_ibuf {s : State} (hwf : s.params.wellFormed = true) {a : Addr} {n : Nat}
    (v : Word) (hn : n ∈ [1, 2, 4, 8]) (ha : a.toNat % n = 0) (hbase : Config.ibufBase ≤ a.toNat)
    (hend : a.toNat < Config.ibufBase + s.params.ibufSize) :
    hostWrite a n v s =
      if s.busy then .fault (.hostHazard a)
      else .next { s with mem := Mem.putBytes s.mem a.toNat ((wordBytes v).take n) } := by
  have hrow : touchedRegion s.params a.toNat n = some ⟨.ibuf, Config.ibufBase, s.params.ibufSize⟩ :=
    touchedRegion_of_mem hwf (by simp [memoryMap]) n hbase hend
  rw [hostWrite, hrow]
  simp only [regionAdmits_ibuf hn ha, if_true]

/-- A host read of IBUF finds the byte that memory lists (20_memory.md R105). -/
theorem hostByte_of_listed {s : State} (hwf : s.params.wellFormed = true) {a : Nat} {b : Byte}
    (hbase : Config.ibufBase ≤ a) (hend : a < Config.ibufBase + s.params.ibufSize)
    (hlisted : Mem.get? s.mem a = some b) : s.hostByte a = b := by
  obtain ⟨k, rfl⟩ := Nat.exists_eq_add_of_le hbase
  rw [hostByte_ibuf hwf (Nat.lt_of_add_lt_add_left hend), State.memRead, hlisted, Option.getD_some]

/-- The bytes of a word written at `a`, as memory lists them (20_memory.md R103). -/
theorem get?_putBytes_wordBytes (m : List Host.Cell) (a : Nat) (v : Word) {n k : Nat} (hn : n ≤ 8)
    (hk : k < n) :
    Mem.get? (Mem.putBytes m a ((wordBytes v).take n)) (a + k) =
      some (v.extractLsb' (8 * k) 8) := by
  have hlen : ((wordBytes v).take n).length = n := by
    rw [List.length_take, wordBytes_length]
    omega
  rw [mem_get?_putBytes, if_pos (by omega), Nat.add_sub_cancel_left, List.getElem?_take, if_pos hk,
    wordBytes_getElem?, if_pos (by omega)]

/-- Settles O25: a read is the value of the bytes found, and a write puts the bytes of its value at
rising addresses, where the next reads find them. -/
theorem hostAccessesAreLittleEndian : Obligations.HostAccessesAreLittleEndian := by
  refine ⟨fun s row a n ts hwf hmem hbase hend hadmit ht => ?read, fun s a n k hn hk => ?bytes,
    fun s a n v ts hwf hidle hn ha hbase hend ht => ?write⟩
  case read =>
    have hrow : touchedRegion ({ s with turns := ts } : State).params a.toNat n = some row :=
      touchedRegion_of_mem hwf hmem n hbase hend
    have hallowed : regionAdmits row.region a.toNat n = true := by
      rw [regionAdmits_eq]
      exact accessAllowed_iff.2 hadmit
    have hn : n ≤ 8 := by
      have hwidth := (regionAdmits_width hallowed).1
      simp only [List.mem_cons, List.not_mem_nil, or_false] at hwidth
      omega
    have hstep := (step_of_read ht).trans ((hostRead_of_region hrow).trans (if_pos hallowed))
    rw [hostValue_turns] at hstep
    exact ⟨_, hstep, rfl, rfl, fun k hk => hostValue_extract s _ n k hn hk,
      fun k hk => hostValue_extract_above s _ hk⟩
  case bytes =>
    refine ⟨hostValue_extract s a n k ?_ hk, hostValue_one s _⟩
    simp only [List.mem_cons, List.not_mem_nil, or_false] at hn
    omega
  case write =>
    have hn8 : n ≤ 8 := by
      simp only [List.mem_cons, List.not_mem_nil, or_false] at hn
      omega
    have hlen : ((wordBytes v).take n).length = n := by
      rw [List.length_take, wordBytes_length]
      omega
    have hinside : a.toNat + n ≤ Config.ibufBase + s.params.ibufSize :=
      admitted_inside hwf (row := ⟨.ibuf, Config.ibufBase, s.params.ibufSize⟩) (by simp [memoryMap])
        hn ha hend
    have hwrite := (hostWrite_ibuf (s := { s with turns := ts }) hwf v hn ha hbase hend).trans
      (if_neg (Bool.eq_false_iff.1 hidle))
    exact ⟨_, (step_of_write ht).trans hwrite,
      fun k hk => hostByte_of_listed (s := { s with turns := ts, mem := _ }) hwf
        (Nat.le_add_right_of_le hbase) (Nat.lt_of_lt_of_le (Nat.add_lt_add_left hk _) hinside)
        (get?_putBytes_wordBytes _ _ v hn8 hk),
      fun b hb => (mem_get?_putBytes _ _ _ _).trans (if_neg (by omega)), rfl⟩

/-- Settles O26: the three registers and IBUF are protected while a command runs, STATUS and IRQEN
are not. -/
theorem writesToInputsWhileBusyAreHazards : Obligations.WritesToInputsWhileBusyAreHazards := by
  intro s a n v ts hwf hbusy
  have hbusy' : ({ s with turns := ts } : State).busy = true := hbusy
  refine ⟨fun off hoff ht => ?operands, fun hn ha hbase hend ht => ?ibuf,
    fun off hoff ht => ?allowed⟩
  case operands =>
    have hreg : off.toNat < 0x100 ∧ off.toNat % 8 = 0 ∧
        regAt off.toNat ∈ [Reg.arg0, .arg1, .ilen] := by
      simp only [List.mem_cons, List.not_mem_nil, or_false] at hoff
      rcases hoff with rfl | rfl | rfl <;> exact ⟨by decide, by decide, by decide⟩
    obtain ⟨hlt, h8, hoperand⟩ := hreg
    rw [step_write_reg ht hlt h8, writeReg_operand_busy hbusy' _ _ hoperand]
  case ibuf =>
    exact ((step_of_write ht).trans
      (hostWrite_ibuf (s := { s with turns := ts }) hwf v hn ha hbase hend)).trans (if_pos hbusy)
  case allowed =>
    simp only [List.mem_cons, List.not_mem_nil, or_false] at hoff
    rcases hoff with rfl | rfl
    · exact ⟨_, step_write_status ht⟩
    · exact ⟨_, step_write_irqen ht⟩

/-! ### Reads while a command runs -/

/-- The registers that hold results, by their place in the window (70_reset_and_hazards.md R460). -/
theorem isResultReg_of_index : ∀ q < 16, q = 3 ∨ q = 7 ∨ 9 ≤ q →
    isResultReg (regAt (8 * q)) = true := by decide

/-- An offset stands for the register whose eight bytes it is one of (10_state.md R31). -/
theorem regAt_eq_of_index (a : Nat) : regAt a = regAt (8 * (a / 8)) := by
  unfold regAt
  rw [Nat.mul_div_cancel_left _ (by decide)]

/-- Settles O27: the listed bytes are those of results, and the other registers and IBUF are not
drawn. -/
theorem readsOfResultsWhileBusyAreDraws : Obligations.ReadsOfResultsWhileBusyAreDraws := by
  intro s a hwf hbusy
  refine ⟨fun ha => ?drawn, fun off val hmem => ?defined, fun k => hostByte_ibuf hwf⟩
  case drawn =>
    rw [← or_assoc, ← or_assoc, or_assoc (a := 0x18 ≤ a ∧ a < 0x20)] at ha
    obtain hreg | ha := ha
    · exact hostByte_drawn hwf hbusy (row := ⟨.reg, Config.regBase, 0x100⟩) (by simp [memoryMap])
        (Nat.zero_le _) (by simp only [Config.regBase]; omega)
        (by
          change isResultReg (regAt a) = true
          rw [regAt_eq_of_index]
          exact isResultReg_of_index _ (by omega) (by omega))
    · rcases ha with ⟨hlo, hhi⟩ | ⟨hlo, hhi⟩ | ⟨hlo, hhi⟩ | ⟨hlo, hhi⟩ | ⟨hlo, hhi⟩
      · exact hostByte_drawn hwf hbusy (row := ⟨.ftabw, Config.ftabBase, 0x800⟩)
          (by simp [memoryMap]) hlo hhi rfl
      · exact hostByte_drawn hwf hbusy (row := ⟨.maplenw, Config.mapLenBase, 0x800⟩)
          (by simp [memoryMap]) hlo hhi rfl
      · exact hostByte_drawn hwf hbusy (row := ⟨.mapcodew, Config.mapCodeBase, 0x2000⟩)
          (by simp [memoryMap]) hlo hhi rfl
      · exact hostByte_drawn hwf hbusy (row := ⟨.bssw, Config.bssBase, s.params.bsCapBits / 8⟩)
          (by simp [memoryMap]) hlo hhi rfl
      · exact hostByte_drawn hwf hbusy (row := ⟨.obuf, Config.obufBase, s.params.obufSize⟩)
          (by simp [memoryMap]) hlo hhi rfl
  case defined =>
    have hreg : off < 0x100 ∧ off % 8 = 0 ∧ isResultReg (regAt off) = false ∧
        s.regValue (regAt off) = val := by
      simp only [List.mem_cons, Prod.mk.injEq, List.not_mem_nil, or_false] at hmem
      rcases hmem with ⟨rfl, rfl⟩ | hmem
      · exact ⟨by decide, by decide, rfl, idWord_eq⟩
      · rcases hmem with ⟨rfl, rfl⟩ | ⟨rfl, rfl⟩ | ⟨rfl, rfl⟩ | ⟨rfl, rfl⟩ | ⟨rfl, rfl⟩ |
          ⟨rfl, rfl⟩ | ⟨rfl, rfl⟩ | ⟨rfl, rfl⟩ <;> exact ⟨by decide, by decide, rfl, rfl⟩
    obtain ⟨hlt, h8, hdefined, rfl⟩ := hreg
    exact hostValue_reg s off hlt h8 (by rw [hdefined, Bool.and_false])

/-! ### The windows while no command runs -/

/-- A storage byte is specified exactly when a bit of the sequence falls in it (20_memory.md
R107). -/
theorem lt_ceilDiv8_iff {k n : Nat} : k < ceilDiv8 n ↔ 8 * k < n := by
  unfold ceilDiv8
  omega

/-- A window of 256 entries of eight bytes shows entry `i` at offset 8i (20_memory.md R101). -/
theorem hostValue_of_entries {s : State} (hwf : s.params.wellFormed = true) (hidle : s.busy = false)
    {row : RegionRow} (hrow : row ∈ memoryMap s.params) (hsize : row.size = 0x800) {f : Nat → Word}
    (hentries : ∀ k, s.idleByte row.region k = wordByte (f (k / 8)) (k % 8)) {i : Nat}
    (hi : i < 256) : s.hostValue (row.base + 8 * i) 8 = f i := by
  refine hostValue_of_bytes _ _ _ fun k hk => ?_
  have hindex : (8 * i + k) / 8 = i ∧ (8 * i + k) % 8 = k := by omega
  rw [Nat.add_assoc, hostByte_idle hwf hidle hrow (by omega), hentries, hindex.1, hindex.2]

/-- Settles O28: each window is read at the offset of its entry or slot. -/
theorem windowsShowTheState : Obligations.WindowsShowTheState := by
  intro s hwf hidle
  refine ⟨fun k => hostByte_ibuf hwf, fun k hk => ?obuf, fun k j hk hj => ?bssw,
    fun v => ⟨?ftabw, ?maplenw⟩, fun v k j hk hj => ?mapcodew⟩
  case obuf =>
    exact hostByte_idle hwf hidle (row := ⟨.obuf, Config.obufBase, s.params.obufSize⟩)
      (by simp [memoryMap]) hk
  case bssw =>
    have hbyte : s.hostByte (Config.bssBase + k) = s.idleByte .bssw k :=
      hostByte_idle hwf hidle (row := ⟨.bssw, Config.bssBase, s.params.bsCapBits / 8⟩)
        (by simp [memoryMap]) hk
    simp only [State.idleByte, State.bitLen, lt_ceilDiv8_iff] at hbyte
    split
    · rw [hbyte, if_pos ‹_›, storeByte_getLsbD _ _ _ hj]
    · rw [hbyte, if_neg ‹_›]
  case ftabw =>
    exact hostValue_of_entries hwf hidle (row := ⟨.ftabw, Config.ftabBase, 0x800⟩)
      (by simp [memoryMap]) rfl (f := fun i => s.ftab.getD i 0) (fun _ => rfl) v.isLt
  case maplenw =>
    exact hostValue_of_entries hwf hidle (row := ⟨.maplenw, Config.mapLenBase, 0x800⟩)
      (by simp [memoryMap]) rfl (f := fun i => toWord (s.map.getD i []).length) (fun _ => rfl)
      v.isLt
  case mapcodew =>
    have hv := v.isLt
    have hbyte : s.hostByte (Config.mapCodeBase + (32 * v.toNat + k)) = _ :=
      hostByte_idle hwf hidle (row := ⟨.mapcodew, Config.mapCodeBase, 0x2000⟩) (by simp [memoryMap])
        (show 32 * v.toNat + k < 0x2000 by omega)
    rw [Nat.add_assoc, hbyte, State.idleByte, show (32 * v.toNat + k) / 32 = v.toNat by omega,
      show (32 * v.toNat + k) % 32 = k by omega, storeByte_getLsbD _ _ _ hj]
    rfl

/-! ### Host programs -/

/-- `WB` writes its bytes in order at rising addresses (30_encoding.md R144). -/
theorem byteWrites_getElem? (bs : List Byte) : ∀ (a j : Nat),
    (byteWrites a bs)[j]? =
      bs[j]?.map (fun b => .write (BitVec.ofNat 32 (a + j)) 1 (b.zeroExtend 64)) := by
  induction bs with
  | nil => exact fun _ _ => rfl
  | cons b bs ih =>
    intro a j
    cases j with
    | zero => rfl
    | succ j =>
      rw [byteWrites, List.getElem?_cons_succ, ih, List.getElem?_cons_succ, Nat.add_right_comm,
        Nat.add_assoc]

theorem byteWrites_length (bs : List Byte) : ∀ a, (byteWrites a bs).length = bs.length := by
  induction bs with
  | nil => exact fun _ => rfl
  | cons b bs ih => exact fun a => congrArg Nat.succ (ih (a + 1))

/-- Settles O29: every action but `WB` is one expression for its accesses, and `WB` is
`byteWrites`. -/
theorem hostActionsAreTheirAccesses : Obligations.HostActionsAreTheirAccesses := by
  intro vs e k bs n i r g c t
  refine ⟨rfl, rfl, rfl, byteWrites_length bs _, fun j hj => ?_, rfl, rfl, rfl, rfl⟩
  refine (byteWrites_getElem? bs _ j).trans ?_
  rw [List.getElem?_eq_getElem hj, List.getD_eq_getElem _ _ hj]
  rfl

end Sys2Proof.Machine
end

section
/-! PROOFS. Commands that end with an error, said once for a body that raises; and the commands
before DECODE: BUILD_TREE, ENCODE and the errors of missing input state and of too long an input
(10_state.md R39, 42_tree_builder.md R220, 45_encoder.md R280, 60_exceptions.md R403, R404,
70_reset_and_hazards.md R454). -/

namespace Sys2Proof.Machine

/-! ### A body that raises -/

/-- A command whose body ends with an error ends with it, clears its destination set and keeps the
rest (60_exceptions.md R405). -/
theorem exec_error {i : Instr} {s : State} {e : CmdError} (h : bodyOf i s = .error e) :
    ∃ t, exec i s = .next t ∧ EndsWith (errCodeOf e.kind) e.info t ∧ Cleared (dest i) t ∧
      KeepsOutside (dest i) s t := by
  rw [exec_eq, h]
  exact ⟨_, rfl, completeError_endsWith _ e s, completeError_cleared _ _ _,
    completeError_keeps _ _ _⟩

/-- The same for a body that raises. -/
theorem exec_raise_ends {i : Instr} {s : State} {k : ErrKind} {n : Nat}
    (h : bodyOf i s = raise k n) :
    ∃ t, exec i s = .next t ∧ EndsWith (errCodeOf k) (toWord n) t ∧ Cleared (dest i) t := by
  obtain ⟨t, ht, hend, hcleared, -⟩ := exec_error h
  exact ⟨t, ht, hend, hcleared⟩

/-- And only then does it end with an error. -/
theorem body_of_exec_endsWith {i : Instr} {s t : State} {code : BitVec 4} {info : Word}
    (h : exec i s = .next t) (hend : EndsWith code info t) :
    ∃ e, bodyOf i s = .error e ∧ errCodeOf e.kind = code ∧ e.info = info := by
  obtain ⟨u, -, rfl⟩ | ⟨e, hbody, rfl⟩ := complete_next (exec_eq i s ▸ h)
  · exact absurd hend.err (by rw [(completeOk_endsOk u).err]; exact Bool.false_ne_true)
  · exact ⟨e, hbody, hend.errCode, hend.errInfo⟩

/-! ### Input longer than the buffer -/

theorem analyzeBody_range {s : State} (h : s.params.ibufSize < s.ilen.toNat) :
    analyzeBody s = raise .rangeError s.ilen.toNat := by
  rw [analyzeBody, input_error h]
  rfl

theorem deserializeBody_range {s : State} (h : s.params.ibufSize < s.ilen.toNat) :
    deserializeBody s = raise .rangeError s.ilen.toNat := by
  rw [deserializeBody, input_error h]
  rfl

theorem encodeBody_range {s : State} (hvalid : s.mapValid = true)
    (h : s.params.ibufSize < s.ilen.toNat) : encodeBody s = raise .rangeError s.ilen.toNat := by
  rw [encodeBody, if_pos hvalid, input_error h]
  rfl

theorem compressBody_range {s : State} (h : s.params.ibufSize < s.ilen.toNat) :
    compressBody s = raise .rangeError s.ilen.toNat :=
  runBodies_cons_error (analyzeBody_range h)

theorem decompressBody_range {s : State} (h : s.params.ibufSize < s.ilen.toNat) :
    decompressBody s = raise .rangeError s.ilen.toNat :=
  runBodies_cons_error (deserializeBody_range h)

/-- Settles O33: each of the five bodies reads its input first, ENCODE after its check of
MAP_VALID. -/
theorem inputLongerThanTheBufferIsARangeError :
    Obligations.InputLongerThanTheBufferIsARangeError := by
  intro s i hlong hi
  have hbody : bodyOf i s = raise .rangeError s.ilen.toNat := by
    simp only [List.mem_cons, List.not_mem_nil, or_false] at hi
    rcases hi with (rfl | rfl | rfl | rfl) | ⟨rfl, hvalid⟩
    · exact analyzeBody_range hlong
    · exact deserializeBody_range hlong
    · exact compressBody_range hlong
    · exact decompressBody_range hlong
    · exact encodeBody_range hvalid hlong
  have hends := exec_raise_ends hbody
  rwa [toWord_toNat] at hends

/-! ### Missing input state -/

theorem buildMapBody_sequence {s : State} (h : s.treeValid = false) :
    buildMapBody s = raise .sequenceError 0x03 := if_neg (Bool.eq_false_iff.1 h)

theorem encodeBody_sequence {s : State} (h : s.mapValid = false) :
    encodeBody s = raise .sequenceError 0x07 := if_neg (Bool.eq_false_iff.1 h)

theorem decodeBody_sequence {s : State} (h : s.treeValid = false) :
    decodeBody s = raise .sequenceError 0x08 := if_neg (Bool.eq_false_iff.1 h)

/-- Settles O32: BUILD_TREE has no precondition, and the empty table has no tree; the three others
check their valid bit first. -/
theorem commandsNeedTheirInputState : Obligations.CommandsNeedTheirInputState := by
  refine ⟨fun p => ⟨_, exec_ok (i := .buildTree) rfl, completeOk_endsOk _, ?noTree, rfl⟩,
    fun s h => exec_raise_ends (i := .buildMap) (buildMapBody_sequence h),
    fun s h => exec_raise_ends (i := .encode) (encodeBody_sequence h),
    fun s h => exec_raise_ends (i := .decode) (decodeBody_sequence h), fun p => ⟨rfl, rfl⟩⟩
  case noTree => exact buildTree_none.2 tableEntries_emptyTable

/-! ### BUILD_TREE -/

/-- NODECOUNT of the tree of a table (10_state.md R43, 42_tree_builder.md R226). -/
theorem treeNodes_buildTree (F : List Word) :
    treeNodes (buildTree F) = 2 * (tableEntries F).length - 1 := by
  cases ht : buildTree F with
  | none => rw [buildTree_none.1 ht]; rfl
  | some t =>
    have hnodes := nodes_eq t
    rw [buildTree_leaves_length ht] at hnodes
    rw [treeNodes]
    omega

/-- Settles O36: the body of BUILD_TREE writes the tree of FTAB and never raises. -/
theorem buildTreeCompletes : Obligations.BuildTreeCompletes := by
  intro s
  refine ⟨_, exec_ok (i := .buildTree) rfl, completeOk_endsOk _,
    completeOk_keeps (writeTree_keeps s _), rfl, rfl, ?nodeCount, rfl, rfl,
    congrArg toWord longestCode_emptyMap⟩
  have hentries := tableEntries_length_le s.ftab
  exact (congrArg (fun n => (toWord n).toNat) (treeNodes_buildTree s.ftab)).trans
    (toNat_toWord (by omega))

/-! ### ENCODE -/

/-- Settles O45: the body writes the codes of the input. -/
theorem encodeConcatenatesTheCodes : Obligations.EncodeConcatenatesTheCodes := by
  intro s hvalid hfit hcodes hroom
  have hbody : bodyOf .encode s = .ok _ :=
    encodeBody_ok.2 ⟨hvalid, hfit, hcodes, .inr hroom, rfl⟩
  exact ⟨_, exec_ok hbody, completeOk_endsOk _, completeOk_keeps (writeBits_keeps s _), rfl⟩

/-- The loop of ENCODE ends at the first byte without a code (45_encoder.md R280). -/
theorem encodeBytes_no_code {M : List Code} {cap : Nat} {good rest : List Byte} {b : Byte}
    (hgood : ∀ x ∈ good, codeGet M x ≠ []) (hfit : (codesOf M good).length ≤ cap)
    (hb : codeGet M b = []) :
    encodeBytes M cap 0 0 (good ++ b :: rest) = raise .encodingError good.length := by
  rw [encodeBytes_run good 0 0 hgood (by omega), encodeBytes, if_pos hb, Nat.zero_add]
  rfl

/-- The loop of ENCODE ends at the first code that does not fit (45_encoder.md R280). -/
theorem encodeBytes_no_room {M : List Code} {cap : Nat} {good rest : List Byte} {b : Byte}
    (hgood : ∀ x ∈ good, codeGet M x ≠ []) (hfit : (codesOf M good).length ≤ cap)
    (hb : codeGet M b ≠ []) (hroom : cap < (codesOf M good).length + (codeGet M b).length) :
    encodeBytes M cap 0 0 (good ++ b :: rest) =
      raise .capacityError ((codesOf M good).length + (codeGet M b).length) := by
  rw [encodeBytes_run good 0 0 hgood (by omega), encodeBytes, if_neg hb,
    Nat.zero_add (codesOf M good).length, if_pos hroom]
  rfl

/-- An error of the loop is the error of ENCODE. -/
theorem encodeBody_of_loop_error {s : State} {k : ErrKind} {n : Nat} (hvalid : s.mapValid = true)
    (hfit : s.ilen.toNat ≤ s.params.ibufSize)
    (hloop : encodeBytes s.map s.params.bsCapBits 0 0 (s.inputBytes s.ilen.toNat) = raise k n) :
    encodeBody s = raise k n := by
  rw [encodeBody, if_pos hvalid, input_ok.2 ⟨hfit, rfl⟩]
  simp only [hloop]
  rfl

/-- Settles O46: the loop runs over the good bytes and ends at the next one, and error entry clears
BITSEQ. -/
theorem encodeReportsTheFirstBadByte : Obligations.EncodeReportsTheFirstBadByte := by
  intro s good rest b hvalid hfit hinput hgood hgoodFit
  refine ⟨fun hb => ?noCode, fun hb hroom => ?noRoom⟩
  case noCode =>
    have hloop := encodeBytes_no_code (rest := rest) hgood hgoodFit hb
    rw [← hinput] at hloop
    obtain ⟨t, ht, hend, hcleared⟩ :=
      exec_raise_ends (i := .encode) (encodeBody_of_loop_error hvalid hfit hloop)
    exact ⟨t, ht, hend, hcleared.bitseq List.mem_cons_self⟩
  case noRoom =>
    have hloop := encodeBytes_no_room (rest := rest) hgood hgoodFit hb hroom
    rw [← hinput] at hloop
    obtain ⟨t, ht, hend, hcleared⟩ :=
      exec_raise_ends (i := .encode) (encodeBody_of_loop_error hvalid hfit hloop)
    exact ⟨t, ht, hcleared.bitseq List.mem_cons_self, hend⟩

end Sys2Proof.Machine
end

section
/-! PROOFS. DECODE: the codes of TOTAL symbols, and the errors of its walk (46_decoder.md R300,
R301). -/

namespace Sys2Proof.Machine

/-- The codes of a byte string over the byte values of a table decode with the tree of the table
(46_decoder.md R300). -/
theorem decodeBits_codes {F : List Word} {bs : List Byte} (hbs : ∀ b ∈ bs, tableGet F b ≠ 0) :
    decodeBits (buildTree F) bs.length (codesOf (buildMap (buildTree F)) bs) = .ok bs := by
  cases ht : buildTree F with
  | none =>
    have hempty : bs = [] := List.eq_nil_iff_forall_not_mem.2 fun b hb =>
      hbs b hb (tableEntries_eq_nil.1 (buildTree_none.1 ht) b)
    rw [hempty]
    rfl
  | some t =>
    exact decode_codes (buildTree_symbols_nodup ht) fun b hb =>
      (mem_table_symbols ht b).2 (hbs b hb)

/-- Settles O48: by the invariant the tree is that of FTAB, and its codes decode to the byte
string. -/
theorem decodeEmitsTheSymbols : Obligations.DecodeEmitsTheSymbols := by
  intro s bs hinv hvalid hfit hlen hbs hbits
  have hdecode : decodeBits s.tree s.total.toNat s.bits = .ok bs := by
    rw [hbits, ← hlen, hinv.treeCurrent hvalid]
    exact decodeBits_codes hbs
  obtain ⟨t, ht, hok, hkeeps, hout⟩ := exec_decode_ok hvalid hfit hdecode
  refine ⟨t, ht, hok, hkeeps, hout, ?_⟩
  rw [hout.olen, hlen, toWord_toNat]

/-! ### Errors of the walk -/

theorem decodeBody_capacity {s : State} (hvalid : s.treeValid = true)
    (h : s.params.obufSize < s.total.toNat) :
    decodeBody s = raise .capacityError s.total.toNat := by
  rw [decodeBody, if_pos hvalid, if_pos h]

section Walk

variable {f : Word} {l r : HuffmanNode} {code : Byte → Code} {bs : List Byte} {T : Nat}
  (hbs : ∀ b ∈ bs, (b, code b) ∈ (HuffmanNode.internal f l r).paths [])

include hbs

/-- The bits end at the root with fewer than T symbols out (46_decoder.md R301). -/
theorem decodeWalk_too_few (hfew : bs.length < T) :
    decodeWalk T l r l r 0 0 (bs.flatMap code) = raise .formatError (bs.flatMap code).length := by
  have hrun := decodeWalk_run T code [] bs 0 0 hbs (by omega)
  rw [List.append_nil] at hrun
  rw [hrun, decodeWalk, if_neg (by simp), if_pos (by omega), Nat.zero_add]
  rfl

/-- The bits end inside a code (46_decoder.md R301). -/
theorem decodeWalk_ends_inside {u : Byte} {c d : Code}
    (hu : (u, c ++ d) ∈ (HuffmanNode.internal f l r).paths []) (hc : c ≠ []) (hd : d ≠ [])
    (hle : bs.length ≤ T) :
    decodeWalk T l r l r 0 0 (bs.flatMap code ++ c) =
      raise .decodingError (bs.flatMap code ++ c).length := by
  obtain ⟨f', l', r', hwalk, hbelow, -⟩ := decodeWalk_inside T l r _ u c d hu hd f l r rfl
    (0 + (bs.flatMap code).length) (0 + bs.length)
  have hroot : (l', r') ≠ (l, r) := by
    rintro ⟨⟩
    exact absurd (hbelow hc) (by simp only [HuffmanNode.nodes]; omega)
  rw [decodeWalk_run T code c bs 0 0 hbs (by omega), hwalk, decodeWalk, if_pos hroot,
    List.length_append, Nat.zero_add]
  rfl

/-- A whole code follows T symbols (46_decoder.md R301). -/
theorem decodeWalk_too_many {u : Byte} {c : Code} (rest : List Bool)
    (hu : (u, c) ∈ (HuffmanNode.internal f l r).paths []) (hT : bs.length = T) :
    decodeWalk T l r l r 0 0 (bs.flatMap code ++ c ++ rest) =
      raise .formatError ((bs.flatMap code ++ c).length - 1) := by
  rw [List.append_assoc, decodeWalk_run T code _ bs 0 0 hbs (by omega),
    decodeWalk_path T l r _ c hu f l r rfl, if_pos (by omega), List.length_append, Nat.zero_add]
  rfl

end Walk

/-- Settles O50: the capacity check comes first; then the walk runs over the codes of the byte
string and what follows them decides. -/
theorem decodeWalkErrors : Obligations.DecodeWalkErrors := by
  refine ⟨fun s hvalid hbig => ?capacity, fun s f l r code bs hvalid hfit htree hbs => ?walk⟩
  case capacity =>
    obtain ⟨t, ht, hend, hcleared, hkeeps⟩ :=
      exec_error (i := .decode) (decodeBody_capacity hvalid hbig)
    rw [toWord_toNat] at hend
    exact ⟨t, ht, hend, hcleared.obuf List.mem_cons_self, hkeeps⟩
  case walk =>
    have hdecode : decodeBits s.tree s.total.toNat s.bits =
        decodeWalk s.total.toNat l r l r 0 0 s.bits := by rw [htree, decodeBits]
    refine ⟨fun hfew hbits => ?_, fun u c d hu hc hd hle hbits => ?_,
      fun u c rest hu hlen hbits => ?_⟩
    · have hwalk := decodeWalk_too_few hbs hfew
      rw [← hbits] at hwalk
      exact exec_decode_raise hvalid hfit (hdecode.trans hwalk)
    · have hwalk := decodeWalk_ends_inside hbs hu hc hd hle
      rw [← hbits] at hwalk
      exact exec_decode_raise hvalid hfit (hdecode.trans hwalk)
    · have hwalk := decodeWalk_too_many hbs rest hu hlen
      rw [← hbits] at hwalk
      exact exec_decode_raise hvalid hfit (hdecode.trans hwalk)

end Sys2Proof.Machine
end

section
/-! PROOFS. DESERIALIZE: the archives it reads and the faults it reports (47_archive_codec.md R322,
R323). -/

namespace Sys2Proof.Machine

/-- DESERIALIZE of the archive of a table and bits within the limits (47_archive_codec.md R322). -/
theorem deserializeBody_of_archive {s : State} {F : List Word} {bits : List Bool}
    (hwf : s.params.wellFormed = true) (hfit : s.ilen.toNat ≤ s.params.ibufSize)
    (hlen : F.length = 256) (hsum : tableSum F ≤ 2 ^ 64 - 1)
    (hbits : bits.length ≤ s.params.bsCapBits)
    (hinput : s.inputBytes s.ilen.toNat = serializeBytes F bits) :
    deserializeBody s = .ok ((s.writeTable F).writeBits bits) := by
  obtain ⟨-, -, -, -, -, hcap, -, -, -⟩ := params_bounds hwf
  refine deserializeBody_ok.2 ⟨hfit, F, bits, ?_, rfl⟩
  rw [hinput]
  exact deserialize_serialize hlen (by omega) hbits (by omega)

/-- Settles O55: the reader gives table and bits back, and writing the table invalidates tree and
map. -/
theorem deserializeReadsTheArchive : Obligations.DeserializeReadsTheArchive := by
  intro s F bits hwf hfit hlen hsum hbits hinput
  have hbody : bodyOf .deserialize s = .ok _ :=
    deserializeBody_of_archive hwf hfit hlen hsum hbits hinput
  exact ⟨_, exec_ok hbody, completeOk_endsOk _, completeOk_keeps (body_keeps (by decide) hbody),
    rfl, rfl, rfl, rfl, rfl, rfl⟩

/-- An error of the reader is the error of DESERIALIZE. -/
theorem deserializeBody_of_reader_error {s : State} {e : CmdError}
    (hfit : s.ilen.toNat ≤ s.params.ibufSize)
    (h : deserializeBytes s.params.bsCapBits (s.inputBytes s.ilen.toNat) = .error e) :
    deserializeBody s = .error e := by
  rw [deserializeBody, input_ok.2 ⟨hfit, rfl⟩]
  simp only [h]

/-- Settles O56: the fault is the error the reader raises (`deserialize_fault`), and an input
without a fault is read (`archive_total`), so it is an archive. -/
theorem deserializeReportsTheFirstFault : Obligations.DeserializeReportsTheFirstFault := by
  intro s hfit
  refine ⟨fun code info hfault => ?fault, ?total⟩
  case fault =>
    obtain ⟨k, rfl, hraise⟩ := deserialize_fault hfault
    exact exec_error (i := .deserialize) (deserializeBody_of_reader_error hfit hraise)
  case total =>
    refine (archive_total s.params.bsCapBits (s.inputBytes s.ilen.toNat)).imp_left ?_
    rintro ⟨F, bits, hread⟩
    obtain ⟨hlen, hsum, hbits, harchive⟩ := deserialize_inv hread
    exact ⟨F, bits, hlen, Nat.le_sub_one_of_lt hsum, hbits, harchive⟩

/-- The faults of an archive are FORMAT_ERROR and CAPACITY_ERROR (47_archive_codec.md R323). -/
theorem archiveFault_code {cap : Nat} {A : List Byte} {code : BitVec 4} {info : Nat}
    (h : ArchiveFault cap A code info) : code = 1 ∨ code = 7 := by
  cases h
  case overCapacity => exact .inr rfl
  all_goals exact .inl rfl

/-- DESERIALIZE ends with FORMAT_ERROR, RANGE_ERROR or CAPACITY_ERROR (47_archive_codec.md R322). -/
theorem deserializeBody_error_code {s : State} {e : CmdError} (h : deserializeBody s = .error e) :
    errCodeOf e.kind ∈ [1#4, 6#4, 7#4] := by
  by_cases hfit : s.ilen.toNat ≤ s.params.ibufSize
  · obtain ⟨F, bits, hread⟩ | ⟨code, info, hfault⟩ :=
      archive_total s.params.bsCapBits (s.inputBytes s.ilen.toNat)
    · exact nomatch (deserializeBody_ok.2 ⟨hfit, F, bits, hread, rfl⟩).symm.trans h
    · obtain ⟨k, hk, hraise⟩ := deserialize_fault hfault
      obtain rfl := Except.error.inj ((deserializeBody_of_reader_error hfit hraise).symm.trans h)
      obtain rfl | rfl := archiveFault_code hfault <;> simp [hk]
  · obtain rfl := Except.error.inj ((deserializeBody_range (Nat.lt_of_not_le hfit)).symm.trans h)
    change (6 : BitVec 4) ∈ _
    decide

end Sys2Proof.Machine
end

section
/-! PROOFS. COMPRESS and DECOMPRESS: every way they end (48_control_and_composite.md R352, R353). -/

namespace Sys2Proof.Machine

/-! ### COMPRESS -/

/-- The ENCODE of COMPRESS, when the codes of the input fit (48_control_and_composite.md R352). -/
theorem encodeBody_analyzed {s : State} (hfit : s.ilen.toNat ≤ s.params.ibufSize)
    (hbits : (payloadOf (s.inputBytes s.ilen.toNat)).length ≤ s.params.bsCapBits) :
    encodeBody s.analyzed =
      .ok (s.analyzed.writeBits (payloadOf (s.inputBytes s.ilen.toNat))) := by
  refine encodeBody_ok.2 ⟨analyzed_mapValid s, ?_⟩
  simp only [analyzed_ilen, analyzed_params, analyzed_inputBytes, analyzed_map]
  exact ⟨hfit, countTable_codes (inputBytes_lt s), .inr hbits, rfl⟩

/-- COMPRESS whose archive does not fit in OBUF. -/
theorem compressBody_archive_too_big {s : State} (hfit : s.ilen.toNat ≤ s.params.ibufSize)
    (hbits : (payloadOf (s.inputBytes s.ilen.toNat)).length ≤ s.params.bsCapBits)
    (hsize : s.params.obufSize < (archiveOf (s.inputBytes s.ilen.toNat)).length) :
    compressBody s = raise .capacityError (archiveOf (s.inputBytes s.ilen.toNat)).length := by
  rw [compressBody_eq hfit, runBodies_cons (encodeBody_analyzed hfit hbits)]
  refine runBodies_cons_error ?_
  rw [serializeBody]
  simp only [writeBits_params, writeBits_ftab, writeBits_bits, analyzed_params, analyzed_ftab]
  exact if_pos hsize

/-- COMPRESS whose codes and archive fit. -/
theorem compressBody_fits {s : State} (hfit : s.ilen.toNat ≤ s.params.ibufSize)
    (hbits : (payloadOf (s.inputBytes s.ilen.toNat)).length ≤ s.params.bsCapBits)
    (hsize : (archiveOf (s.inputBytes s.ilen.toNat)).length ≤ s.params.obufSize) :
    compressBody s = .ok ((s.analyzed.writeBits (payloadOf (s.inputBytes s.ilen.toNat))).writeOutput
      (archiveOf (s.inputBytes s.ilen.toNat))) := by
  rw [compressBody_eq hfit, runBodies_cons (encodeBody_analyzed hfit hbits)]
  refine runBodies_cons_ok.2 ⟨_, serializeBody_ok.2 ⟨?_, ?_⟩, rfl⟩ <;>
    simp only [writeBits_params, writeBits_ftab, writeBits_bits, analyzed_params, analyzed_ftab]
  · exact hsize
  · rfl

/-- COMPRESS whose codes do not fit in BITSEQ: it ends at the first byte whose code does not. -/
theorem compressBody_codes_too_long {s : State} {good rest : List Byte} {b : Byte} {M : List Code}
    (hfit : s.ilen.toNat ≤ s.params.ibufSize)
    (hinput : s.inputBytes s.ilen.toNat = good ++ b :: rest)
    (hM : M = buildMap (buildTree (countTable (good ++ b :: rest))))
    (hgoodFit : (codesOf M good).length ≤ s.params.bsCapBits)
    (hroom : s.params.bsCapBits < (codesOf M good).length + (codeGet M b).length) :
    compressBody s =
      raise .capacityError ((codesOf M good).length + (codeGet M b).length) := by
  have hcodes := countTable_codes (inputBytes_lt s)
  rw [hinput, ← hM] at hcodes
  have hloop := encodeBytes_no_room (rest := rest)
    (fun x hx => hcodes x (List.mem_append_left _ hx)) hgoodFit
    (hcodes b (List.mem_append_right _ List.mem_cons_self)) hroom
  rw [compressBody_eq hfit]
  refine runBodies_cons_error (encodeBody_of_loop_error (analyzed_mapValid s) ?_ ?_)
  · simpa using hfit
  · simpa [hinput, ← hM] using hloop

/-- Settles O58: COMPRESS reads its input, then its ENCODE and its SERIALIZE can only fail for want
of room; the four ends are those of its body. -/
theorem compressCompletes : Obligations.CompressCompletes := by
  refine ⟨fun s hlong => ?range, fun s good rest b M hfit hinput hM hgoodFit hroom => ?codes,
    ?archive, fun s t hexec herr => ?errors, ?fits⟩
  case range =>
    have hends := exec_raise_ends (i := .compress) (compressBody_range hlong)
    rwa [toWord_toNat] at hends
  case codes =>
    exact exec_raise_ends (i := .compress)
      (compressBody_codes_too_long hfit hinput hM hgoodFit hroom)
  case archive =>
    rintro s _ _ _ hfit rfl rfl rfl hbits hsize
    exact exec_raise_ends (i := .compress) (compressBody_archive_too_big hfit hbits hsize)
  case errors =>
    by_cases hfit : s.ilen.toNat ≤ s.params.ibufSize
    · have hfull := (compress_ends hfit hexec).resolve_left (by simp [herr])
      exact .inr ⟨hfull, hfit⟩
    · have hlong := Nat.lt_of_not_le hfit
      obtain ⟨t', ht', hend, -⟩ := exec_error (i := .compress) (compressBody_range hlong)
      cases hexec.symm.trans ht'
      exact .inl ⟨hend.errCode, hlong⟩
  case fits =>
    rintro s _ _ _ _ hfit rfl rfl rfl rfl hbits hsize
    have hbody : bodyOf .compress s = .ok _ := compressBody_fits hfit hbits hsize
    exact ⟨_, exec_ok hbody, completeOk_endsOk _, completeOk_keeps (body_keeps (by decide) hbody),
      analyzed_ftab s, analyzed_tree s, rfl, analyzed_map s, rfl, rfl, writeOutput_outputIs _ _⟩

/-! ### DECODE as a function of the state it reads -/

/-- The bytes DECODE emits, or its error (46_decoder.md R300). -/
def decodedBytes (s : State) : Except CmdError (List Byte) :=
  if s.treeValid then
    if s.params.obufSize < s.total.toNat then raise .capacityError s.total.toNat
    else decodeBits s.tree s.total.toNat s.bits
  else raise .sequenceError 0x08

theorem decodeBody_eq (s : State) : decodeBody s = (decodedBytes s).map s.writeOutput := by
  rw [decodeBody, decodedBytes]
  split
  · split
    · rfl
    · cases decodeBits s.tree s.total.toNat s.bits <;> rfl
  · rfl

theorem decodeBody_eq_error {s : State} {e : CmdError} :
    decodeBody s = .error e ↔ decodedBytes s = .error e := by
  rw [decodeBody_eq]
  cases decodedBytes s <;> simp [Except.map]

theorem decodeBody_eq_ok {s t : State} :
    decodeBody s = .ok t ↔ ∃ bs, decodedBytes s = .ok bs ∧ t = s.writeOutput bs := by
  rw [decodeBody_eq]
  cases decodedBytes s <;> simp [Except.map, eq_comm]

/-- With a valid tree DECODE ends with FORMAT_ERROR, DECODING_ERROR or CAPACITY_ERROR. -/
theorem decodedBytes_error_code {s : State} {e : CmdError} (hvalid : s.treeValid = true)
    (h : decodedBytes s = .error e) : errCodeOf e.kind ∈ [1#4, 3#4, 7#4] := by
  rw [decodedBytes, if_pos hvalid] at h
  split at h
  · cases h
    change (7 : BitVec 4) ∈ _
    decide
  · obtain hkind | hkind := decodeBits_error_kind h <;> rw [hkind] <;> decide

/-! ### DECOMPRESS -/

/-- The state DECOMPRESS has built when its DECODE starts, from the one its DESERIALIZE left. -/
def State.treeBuilt (s : State) : State := s.writeTree (buildTree s.ftab)

/-- DECOMPRESS after its DESERIALIZE is the DECODE of the state with the tree built. -/
theorem decompressBody_eq {s s1 : State} (h : deserializeBody s = .ok s1) :
    decompressBody s = (decodedBytes s1.treeBuilt).map s1.treeBuilt.writeOutput := by
  rw [decompressBody, runBodies_cons h, runBodies_cons (buildTreeBody_ok.2 rfl), ← decodeBody_eq]
  rw [State.treeBuilt, runBodies]
  cases decodeBody (s1.writeTree (buildTree s1.ftab)) <;> rfl

/-- The errors of DECOMPRESS are those of its DESERIALIZE and of its DECODE
(48_control_and_composite.md R353). -/
theorem decompressBody_error_code {s : State} {e : CmdError} (h : decompressBody s = .error e) :
    errCodeOf e.kind ∈ [1#4, 3#4, 6#4, 7#4] := by
  cases hread : deserializeBody s with
  | error e' =>
    obtain rfl := Except.error.inj ((runBodies_cons_error hread).symm.trans h)
    have hcode := deserializeBody_error_code hread
    simp only [List.mem_cons, List.not_mem_nil, or_false] at hcode ⊢
    tauto
  | ok s1 =>
    rw [decompressBody_eq hread] at h
    cases hdecode : decodedBytes s1.treeBuilt with
    | ok bs => rw [hdecode] at h; cases h
    | error e' =>
      rw [hdecode] at h
      cases h
      have hcode := decodedBytes_error_code rfl hdecode
      simp only [List.mem_cons, List.not_mem_nil, or_false] at hcode ⊢
      tauto

/-- Settles O59: the completions between the three commands run alone change the completion record
and the draw counter only, which DECODE does not read. -/
theorem decompressCompletes : Obligations.DecompressCompletes := by
  refine ⟨fun s t code info hexec hend => ?deserializeError,
    fun s t u x hread hok htree hdecode => ?chain, fun s t hexec herr => ?errors, ?archive⟩
  case deserializeError =>
    obtain ⟨e, hbody, rfl, rfl⟩ := body_of_exec_endsWith hexec hend
    obtain ⟨y, hy, hendy, hcleared, -⟩ :=
      exec_error (i := .decompress) (runBodies_cons_error hbody)
    exact ⟨y, hy, hendy, hcleared⟩
  case chain =>
    obtain ⟨s1, hdeserialize, rfl⟩ := body_of_exec_no_error hread hok.err
    cases htree
    have hbody := decompressBody_eq hdeserialize
    refine ⟨fun code info hend => ?_, fun hend => ?_⟩
    · obtain ⟨e, hraise, rfl, rfl⟩ := body_of_exec_endsWith hdecode hend
      have hbytes := decodeBody_eq_error.1 hraise
      change decodedBytes s1.treeBuilt = .error e at hbytes
      rw [hbytes] at hbody
      obtain ⟨y, hy, hendy, hcleared, -⟩ := exec_error (i := .decompress) hbody
      exact ⟨y, hy, hendy, hcleared⟩
    · obtain ⟨v, hout, rfl⟩ := body_of_exec_no_error hdecode hend.err
      obtain ⟨bs, hbytes, rfl⟩ := decodeBody_eq_ok.1 hout
      change decodedBytes s1.treeBuilt = .ok bs at hbytes
      rw [hbytes] at hbody
      exact ⟨_, exec_ok (i := .decompress) hbody, rfl⟩
  case errors =>
    obtain ⟨u, -, rfl⟩ | ⟨e, hbody, rfl⟩ := complete_next (r := decompressBody s) hexec
    · exact nomatch herr
    · exact decompressBody_error_code hbody
  case archive =>
    rintro s bs _ hwf hfit rfl hroom hbits hinput
    obtain ⟨-, -, -, hobuf, -, hcap, -, -, -⟩ := params_bounds hwf
    have hlt : bs.length < 2 ^ 64 := by omega
    have hsum : tableSum (countTable bs) = bs.length := tableSum_counts hlt
    obtain ⟨t, ht, hok, hout⟩ := decompress_archiveOf hlt hfit hinput hbits (by omega) hroom
    obtain ⟨v, hbody, rfl⟩ := body_of_exec_no_error ht hok.err
    have hkeeps := completeOk_keeps (body_keeps (by decide) hbody)
    have hbody' := (decompressBody_eq (deserializeBody_of_archive hwf hfit (countTable_length bs)
      (by omega) hbits hinput)).symm.trans hbody
    rw [← decodeBody_eq, decodeBody_eq_ok] at hbody'
    obtain ⟨out, -, rfl⟩ := hbody'
    exact ⟨_, ht, hok, hkeeps, hout, rfl, rfl, rfl, rfl, rfl⟩

end Sys2Proof.Machine
end
